-- ==== Sys2Proof/Word.lean ====
section
/-! DEFINITION. The word types of the block: the 32-bit register word (R23), the byte and the bit sequence (R31). -/

namespace Sys2Proof

/-- A value that crosses the register port: unsigned, 32 bits (R23, R30). -/
abbrev Word := BitVec 32

/-- A byte of the byte buffer (R154), and the width of an error code field (R124). -/
abbrev Byte := BitVec 8

/-- A bit sequence: element 0 is its first, earliest-emitted bit (R31). -/
abbrev Bits := List Bool

end Sys2Proof
end

