-- ==== Sys2Proof/Config.lean ====
section
/-! DEFINITION. What an instance of the block fixes (R20, R201) and the free value the spec leaves open (R1221). -/

namespace Sys2Proof

/-- The configuration record of R20, with HUF_BASE of R201. An instance's record is held in State and no step
changes it (log 1). The derived parameters (MID, TOP, MAX_LETTER, BYTE_CAP) are in Machine/Slots.lean. -/
structure Params where
  /-- BRANCH_W, the width in bits of a trie branch slot. -/
  branchW : Nat
  /-- SENTINEL, the reserved end-marker letter. -/
  sentinel : Nat
  /-- NODE_CAP, the number of trie node slots. -/
  nodeCap : Nat
  /-- MAX_CW_LEN, the longest codeword the code table and the operand port hold. -/
  maxCwLen : Nat
  /-- BIT_CAP, the capacity of OBUF and of IBUF in bits. -/
  bitCap : Nat
  /-- TEXT_CAP, the capacity of TXT in letters. -/
  textCap : Nat
  /-- COUNT_W, the width of a frequency counter. -/
  countW : Nat
  /-- HUF_BASE, the host address of the register window (R201). -/
  hufBase : Nat
  deriving DecidableEq, Repr

/-- The default column of R20. HUF_BASE has no default in the spec: 0, DESIGN CHOICE (log 1). -/
def Params.default : Params where
  branchW := 16
  sentinel := 256
  nodeCap := 1024
  maxCwLen := 32
  bitCap := 2 ^ 23
  textCap := 2 ^ 20
  countW := 32
  hufBase := 0

/-- The value an unspecified register read returns in phase BUSY (R1221, 93 S1): any value. It has no body, so
nothing is known of it; the argument is State's counter `draws`, a fresh one for each draw (log 4). -/
opaque Config.freeRead : Nat → Word

end Sys2Proof
end

