-- ==== Sys2Proof/Machine/Slots.lean ====
section
/-! DEFINITION. The derived parameters (R20 to R22) and the compact branch-slot format of the trie (R900 to R902). -/

namespace Sys2Proof

/-- `MID`, the midpoint of the slot value space (R20, R900). -/
def Params.mid (p : Params) : Nat := 2 ^ (p.branchW - 1)

/-- `EMPTY`, the slot value that means empty: the midpoint itself (R20, R900). -/
def Params.emptySlot (p : Params) : Nat := p.mid

/-- `TOP`, the top sentinel (R20, R900). -/
def Params.top (p : Params) : Nat := 2 ^ p.branchW - 1

/-- `MAX_LETTER = MID - 2` (R20, R22). -/
def Params.maxLetter (p : Params) : Nat := p.mid - 2

/-- `BYTE_CAP = BIT_CAP / 8` (R20). -/
def Params.byteCap (p : Params) : Nat := p.bitCap / 8

/-- `2^COUNT_W - 1`, the largest value a frequency counter holds (R155, R611). -/
def Params.maxCount (p : Params) : Nat := 2 ^ p.countW - 1

/-- `MAX_BYTE` (R21). -/
def Params.maxByte (_ : Params) : Nat := 255

namespace Machine

/-- A trie node: the two packed branch slots, `br0` followed on bit 0 and `br1` on bit 1 (R157, R902). -/
structure Node where
  br0 : Nat
  br1 : Nat
  deriving DecidableEq, Repr

/-- The decoded view of a slot (R900, R901). `reserved` keeps the raw value: 0, which is never stored, or a value
above TOP, which a BRANCH_W-bit slot cannot hold. -/
inductive Slot where
  | empty
  | child (m : Nat)
  | leaf (l : Nat)
  | reserved (raw : Nat)
  deriving DecidableEq, Repr

/-- `Slot(v)` of R901, by the table of R900. -/
def slotOf (p : Params) (v : Nat) : Slot :=
  if v = 0 then .reserved v
  else if v < p.mid then .child v
  else if v = p.emptySlot then .empty
  else if v ≤ p.top then .leaf (p.top - v)
  else .reserved v

/-- `Enc` of R901. -/
def encSlot (p : Params) : Slot → Nat
  | .empty => p.emptySlot
  | .child m => m
  | .leaf l => p.top - l
  | .reserved raw => raw

/-- `br_b` of a node (R902). -/
def Node.br (n : Node) : Bool → Nat
  | false => n.br0
  | true => n.br1

/-- A node with both slots EMPTY. -/
def Node.blank (p : Params) : Node := { br0 := p.emptySlot, br1 := p.emptySlot }

end Machine

end Sys2Proof
end

