-- ==== Sys2Proof/Syntax.lean ====
section
/-! DEFINITION. The command set: one constructor per row of the opcode table (R310). A command word carries no
operand fields (R301): operands are the values of OPA, OPB and OPC sampled when the word was accepted. -/

namespace Sys2Proof

/-- The 44 commands of R310, in the table's order. -/
inductive Instr where
  | nop
  | clear
  | obufClr
  | obufPut
  | obufGet
  | ibufClr
  | ibufPut
  | ibufGet
  | seek
  | xfer
  | byteClr
  | bytePut
  | byteGet
  | unaryEnc
  | unaryDec
  | gammaEnc
  | gammaDec
  | txtClr
  | txtPut
  | txtGet
  | bytesToText
  | textToBytes
  | freqClr
  | freqCount
  | freqSet
  | freqGet
  | build
  | ctClr
  | ctSet
  | ctGet
  | packTable
  | unpackTable
  | encLetter
  | encText
  | trieClr
  | trieInsert
  | trieBuild
  | decodeOne
  | decodeAll
  | nodeGet
  | pad
  | unpad
  | packBytes
  | unpackBytes
  deriving DecidableEq, Repr

end Sys2Proof
end

