-- ==== Sys2Proof/WellFormed.lean ====
section
/-! DEFINITION. The checks of what enters the machine: a legal parameter record (R20), a legal command word (R300,
R320) and a legal host access (R210, R110). A command has no operand fields, so every Instr is well formed. -/

namespace Sys2Proof

/-- The legal ranges of R20 (BRANCH_W from 10, as C14 says) and of R201. -/
def Params.legal (p : Params) : Bool :=
  decide (10 ≤ p.branchW) && decide (p.branchW ≤ 31)
    && decide (255 < p.sentinel) && decide (p.sentinel ≤ p.maxLetter)
    && decide (1 ≤ p.nodeCap) && decide (p.nodeCap ≤ p.mid)
    && decide (1 ≤ p.maxCwLen) && decide (p.maxCwLen ≤ 32)
    && decide (p.bitCap % 8 = 0) && decide (8 ≤ p.bitCap) && decide (p.bitCap ≤ 2 ^ 32 - 8)
    && decide (1 ≤ p.textCap) && decide (p.textCap ≤ p.maxCount)
    && decide (p.countW = 32)
    && decide (p.hufBase % 256 = 0)

/-- The opcodes R320 lists as unassigned are those outside these ranges of R310. -/
def opcodeAssigned (op : Nat) : Bool :=
  decide (op ≤ 0x0C) || (decide (0x10 ≤ op) && decide (op ≤ 0x13)) || (decide (0x20 ≤ op) && decide (op ≤ 0x24))
    || (decide (0x28 ≤ op) && decide (op ≤ 0x2B)) || decide (op = 0x30) || (decide (0x40 ≤ op) && decide (op ≤ 0x46))
    || (decide (0x50 ≤ op) && decide (op ≤ 0x55)) || (decide (0x60 ≤ op) && decide (op ≤ 0x63))

/-- A CMD word is legal when RSVD (bits [31:8]) is 0 and OPCODE (bits [7:0]) is assigned (R300, R320). -/
def cmdWordLegal (w : Word) : Bool := decide (w.toNat / 256 = 0) && opcodeAssigned (w.toNat % 256)

/-- A host access the block's interface has: 32 bits wide, at a multiple of 4, within the 256-byte window (R210, R110). -/
def accessLegal (p : Params) (addr width : Nat) : Bool :=
  decide (width = 4) && decide (addr % 4 = 0) && decide (p.hufBase ≤ addr) && decide (addr < p.hufBase + 256)

end Sys2Proof
end

