-- ==== Sys2Proof/Decode.lean ====
section
/-! DEFINITION. Decoding and encoding of the 32-bit command word (R300, R310, R320, R321). Decoding is total: a word
is a command or is rejected by name, and the sequencer completes a rejected word with IllegalCommand. -/

namespace Sys2Proof

/-- Why a command word is illegal (R320). -/
inductive DecodeError where
  /-- RSVD, bits [31:8], is not 0. -/
  | reservedBits
  /-- OPCODE, bits [7:0], is not in R310. -/
  | unassignedOpcode
  deriving DecidableEq, Repr

/-- OPCODE, bits [7:0] of a command word (R300). -/
def opcodeField (w : Word) : Nat := (w.extractLsb' 0 8).toNat

/-- RSVD, bits [31:8] of a command word (R300). -/
def rsvdField (w : Word) : Nat := (w.extractLsb' 8 24).toNat

/-- The opcode map of R310. -/
def ofOpcode : Nat → Option Instr
  | 0x00 => some .nop
  | 0x01 => some .clear
  | 0x02 => some .obufClr
  | 0x03 => some .obufPut
  | 0x04 => some .obufGet
  | 0x05 => some .ibufClr
  | 0x06 => some .ibufPut
  | 0x07 => some .ibufGet
  | 0x08 => some .seek
  | 0x09 => some .xfer
  | 0x0A => some .byteClr
  | 0x0B => some .bytePut
  | 0x0C => some .byteGet
  | 0x10 => some .unaryEnc
  | 0x11 => some .unaryDec
  | 0x12 => some .gammaEnc
  | 0x13 => some .gammaDec
  | 0x20 => some .txtClr
  | 0x21 => some .txtPut
  | 0x22 => some .txtGet
  | 0x23 => some .bytesToText
  | 0x24 => some .textToBytes
  | 0x28 => some .freqClr
  | 0x29 => some .freqCount
  | 0x2A => some .freqSet
  | 0x2B => some .freqGet
  | 0x30 => some .build
  | 0x40 => some .ctClr
  | 0x41 => some .ctSet
  | 0x42 => some .ctGet
  | 0x43 => some .packTable
  | 0x44 => some .unpackTable
  | 0x45 => some .encLetter
  | 0x46 => some .encText
  | 0x50 => some .trieClr
  | 0x51 => some .trieInsert
  | 0x52 => some .trieBuild
  | 0x53 => some .decodeOne
  | 0x54 => some .decodeAll
  | 0x55 => some .nodeGet
  | 0x60 => some .pad
  | 0x61 => some .unpad
  | 0x62 => some .packBytes
  | 0x63 => some .unpackBytes
  | _ => none

/-- The command a word selects: RSVD is checked first, then OPCODE alone tells the command (R300, R320). -/
def decode (w : Word) : Except DecodeError Instr :=
  if rsvdField w ≠ 0 then .error .reservedBits
  else match ofOpcode (opcodeField w) with
    | some i => .ok i
    | none => .error .unassignedOpcode

/-- The OPCODE of a command, written from the second column of R310. -/
def Instr.opcode : Instr → Byte
  | .nop => 0x00
  | .clear => 0x01
  | .obufClr => 0x02
  | .obufPut => 0x03
  | .obufGet => 0x04
  | .ibufClr => 0x05
  | .ibufPut => 0x06
  | .ibufGet => 0x07
  | .seek => 0x08
  | .xfer => 0x09
  | .byteClr => 0x0A
  | .bytePut => 0x0B
  | .byteGet => 0x0C
  | .unaryEnc => 0x10
  | .unaryDec => 0x11
  | .gammaEnc => 0x12
  | .gammaDec => 0x13
  | .txtClr => 0x20
  | .txtPut => 0x21
  | .txtGet => 0x22
  | .bytesToText => 0x23
  | .textToBytes => 0x24
  | .freqClr => 0x28
  | .freqCount => 0x29
  | .freqSet => 0x2A
  | .freqGet => 0x2B
  | .build => 0x30
  | .ctClr => 0x40
  | .ctSet => 0x41
  | .ctGet => 0x42
  | .packTable => 0x43
  | .unpackTable => 0x44
  | .encLetter => 0x45
  | .encText => 0x46
  | .trieClr => 0x50
  | .trieInsert => 0x51
  | .trieBuild => 0x52
  | .decodeOne => 0x53
  | .decodeAll => 0x54
  | .nodeGet => 0x55
  | .pad => 0x60
  | .unpad => 0x61
  | .packBytes => 0x62
  | .unpackBytes => 0x63

/-- The CMD word of a command: `zext_32(opcode)` (R330). -/
def encode (i : Instr) : Word := i.opcode.zeroExtend 32

/-- The command read from a word given as the opcode table numbers its bits: bit 0 is the word's least significant
bit, and every bit above `nbits` is 0. The command word is one 32-bit register word, so no byte order enters (R207). -/
def decodeTableWord (nbits w : Nat) : Option Instr :=
  match decode (BitVec.ofNat 32 (w % 2 ^ nbits)) with
  | .ok i => some i
  | .error _ => none

end Sys2Proof
end

