-- ==== Sys2Proof/Machine/BitSeq.lean ====
section
/-! DEFINITION. Pure functions on bit sequences: the notation of R31, R32 and R36, the unary and Elias-gamma codes
(R500 to R503), the padding prefix and the byte conversions (R1000, R1002). -/

namespace Sys2Proof.Machine

/-- `bitlen(n)`, for `n >= 1`: the number of binary digits of `n` (R32). -/
def bitLen (n : Nat) : Nat := Nat.log2 n + 1

/-- `bin_k(n)`: the `k` low-order bits of `n`, most significant first (R32). -/
def binBits : Nat → Nat → Bits
  | 0, _ => []
  | k + 1, n => n.testBit k :: binBits k n

/-- `val(s)`: the number a bit sequence is the binary form of, first bit most significant; `val(ε) = 0` (R32). -/
def bitsVal (s : Bits) : Nat := s.foldl (fun acc b => 2 * acc + b.toNat) 0

/-- `BitsOf(v, n)`: the `n` low-order bits of a register value, most significant first (R36, R206). -/
def bitsOf (v : Word) (n : Nat) : Bits := binBits n v.toNat

/-- The slice `s[i : j)` (R31). -/
def slice (s : Bits) (i j : Nat) : Bits := (s.drop i).take (j - i)

/-- `Unary(n)` (R500). -/
def unary (n : Nat) : Bits := List.replicate n true ++ [false]

/-- `Gamma(n)`, for `n >= 1` (R501). -/
def gamma (n : Nat) : Bits := List.replicate (bitLen n - 1) false ++ binBits (bitLen n) n

/-- The length of the run of bits `b` that a sequence begins with. -/
def runLength (b : Bool) : Bits → Nat
  | [] => 0
  | x :: xs => if x = b then runLength b xs + 1 else 0

/-- `UnaryRead(p)` (R502): `none` is Trunc, `some (value, next)` is Ok. -/
def unaryRead (ibuf : Bits) (p : Nat) : Option (Nat × Nat) :=
  let n := runLength true (ibuf.drop p)
  if p + n < ibuf.length then some (n, p + n + 1) else none

/-- `GammaRead(p)` (R503): `none` is Trunc, `some (value, k, next)` is Ok. The value is an exact natural. -/
def gammaRead (ibuf : Bits) (p : Nat) : Option (Nat × Nat × Nat) :=
  let z := runLength false (ibuf.drop p)
  let k := z + 1
  if ibuf.length - (p + z) < k then none
  else some (bitsVal (slice ibuf (p + z) (p + z + k)), k, p + z + k)

/-- The padding amount `r = 8 - (|s| mod 8)`, 1 to 8 (R1000). -/
def padAmount (n : Nat) : Nat := 8 - n % 8

/-- `Pad(s)`: the marker `Unary(r - 1)` in front of `s`, and nothing after it (R1000, C1, C2). -/
def padBits (s : Bits) : Bits := unary (padAmount s.length - 1) ++ s

/-- `Group(p)`: each chunk of 8 bits, most significant first, is one byte (R1002, R205). It is used on a sequence
whose length is a multiple of 8 only. -/
def groupBytes : Bits → List Byte
  | b7 :: b6 :: b5 :: b4 :: b3 :: b2 :: b1 :: b0 :: rest =>
    BitVec.ofNat 8 (bitsVal [b7, b6, b5, b4, b3, b2, b1, b0]) :: groupBytes rest
  | _ => []

/-- `Expand(B)`: each byte as 8 bits, most significant first (R1002, R205). -/
def expandBytes (bs : List Byte) : Bits := bs.flatMap (fun b => binBits 8 b.toNat)

end Sys2Proof.Machine
end

