-- ==== Sys2Proof/Machine/Tables.lean ====
section
/-! DEFINITION. The memories indexed by letter, FREQ and CT (R155, R156, R202), as sparse lists in one canonical
form: keys strictly rising; what an unlisted letter reads as is never listed (log 9). -/

namespace Sys2Proof.Machine

/-- Entries by letter, keys strictly rising. -/
abbrev Table (α : Type) := List (Nat × α)

/-- The canonical order: keys strictly rising, so no letter is listed twice. -/
def keysRising {α : Type} (t : Table α) : Bool := decide ((t.map Prod.fst).Pairwise (· < ·))

/-- The entry of a letter, if it has one. -/
def tableGet {α : Type} : Table α → Nat → Option α
  | [], _ => none
  | (k, v) :: t, l => if k = l then some v else tableGet t l

/-- Give a letter an entry, replacing any earlier one. -/
def tableSet {α : Type} : Table α → Nat → α → Table α
  | [], l, x => [(l, x)]
  | (k, v) :: t, l, x =>
    if l < k then (l, x) :: (k, v) :: t
    else if l = k then (l, x) :: t
    else (k, v) :: tableSet t l x

/-- Take a letter's entry away. -/
def tableErase {α : Type} : Table α → Nat → Table α
  | [], _ => []
  | (k, v) :: t, l => if k = l then t else (k, v) :: tableErase t l

/-- The table of a list of entries; a later entry of a letter replaces an earlier one. -/
def tableOf {α : Type} (es : List (Nat × α)) : Table α := es.foldl (fun t e => tableSet t e.1 e.2) []

/-- `FREQ[l]`: a letter that is not listed has count 0 (R155, R170). -/
def countGet (f : Table Nat) (l : Nat) : Nat := (tableGet f l).getD 0

/-- `FREQ[l] <- c`, keeping the canonical form: a count of 0 is not listed. -/
def countSet (f : Table Nat) (l c : Nat) : Table Nat := if c = 0 then tableErase f l else tableSet f l c

end Sys2Proof.Machine
end

