-- ==== Sys2Proof/Machine/State.lean ====
section
/-! DEFINITION. The state of the machine, its reset value and the reasons a step can stop. INVENTORY.md's State
section lists every field with the rule that names it. -/

namespace Sys2Proof.Machine

/-- The sequencer's phase (R101): BUSY holds the accepted command word and the operand values sampled with it. -/
inductive Phase where
  | idle
  | busy (cmd a b c : Word)
  deriving DecidableEq, Repr

/-- The ten error kinds of R1100. Their codes are in Machine/Ops.lean. -/
inductive ErrKind where
  | truncatedCode
  | truncatedHeader
  | emptyCodeword
  | prefixConflict
  | letterOutOfRange
  | unmappedLetter
  | decodeFailure
  | illegalCommand
  | badOperand
  | capacityExceeded
  deriving DecidableEq, Repr

/-- What the host (or the reset input) does to the block, one access at a time (R100, R33, R331, R1200). The model's
own: the list of these in State stands for the host agent (log 2). -/
inductive HostOp where
  /-- `MemWrite(addr, width, v)`; the width is in bytes. -/
  | write (addr width : Nat) (v : Word)
  /-- `MemRead(addr, width)`; the value goes to `rdata`. -/
  | read (addr width : Nat)
  /-- `WAIT`: read STATUS until bit 0 is 0 (R330, R331). -/
  | wait
  /-- `CHECK`: read ERR_CODE; the host program stops if it is not 0 (R331). -/
  | check
  /-- The reset input is asserted (R1200). -/
  | resetAssert
  /-- The reset input is released (R1200). -/
  | resetRelease
  deriving DecidableEq, Repr

/-- Why a step could stop with a fault. NOTHING raises one, so the type has no constructor: the block has no trap
(R1120), an error is a next state (R1110), it never stops the block (R1113) and every command terminates (R1114)
(log 12). A step that cannot fault makes no false claim provable: safe. -/
inductive Fault where
  deriving DecidableEq, Repr

/-- Why a step answers no meaning. All three are safe: the model stops where a block might go on. -/
inductive Refusal where
  /-- An instruction that has no meaning yet; raised only by an arm of `exec`. No arm raises it now. Safe. -/
  | notModelled (mnemonic : String)
  /-- A host access that is not 32 bits wide at a multiple of 4; raised by the host port (R210, 93 S5: refuse). Safe. -/
  | badAccess
  /-- A host access outside the 256-byte window; raised by the host port (R201, 93 S6: refuse). Safe. -/
  | outsideWindow
  deriving DecidableEq, Repr

/-- The state of the machine: plain data. -/
structure State where
  /-- The instance's parameters (R20); no step changes them (log 1). -/
  cfg : Params
  /-- The reset input is asserted (R1200; log 6). -/
  inReset : Bool
  /-- The sequencer's phase (R101). -/
  phase : Phase
  /-- LAST_CMD (R122). -/
  lastCmd : Word
  /-- ERR_CODE bits [7:0] (R124). -/
  errCode : Byte
  /-- ERR_FIRST bits [7:0] (R125). -/
  errFirst : Byte
  /-- STATUS.OVERRUN (R123). -/
  overrun : Bool
  /-- STATUS.CT_OOR (R123, R156). -/
  ctOor : Bool
  /-- OPA (R126). -/
  opa : Word
  /-- OPB (R126). -/
  opb : Word
  /-- OPC (R126). -/
  opc : Word
  /-- RESULT (R127). -/
  result : Word
  /-- RESULT2 (R127). -/
  result2 : Word
  /-- OBUF (R150). -/
  obuf : Bits
  /-- IBUF (R151). -/
  ibuf : Bits
  /-- ICUR, the input cursor (R152). -/
  icur : Nat
  /-- TXT (R153). -/
  txt : List Nat
  /-- BYTES (R154). -/
  bytes : List Byte
  /-- FREQ (R155): letters with a non-zero count. -/
  freq : Table Nat
  /-- CT (R156): letters with a valid entry. -/
  ct : Table Bits
  /-- NODE (R157): the allocated nodes, node 0 first; NODES is the length (log 8). -/
  node : List Node
  /-- The model's own: the host's accesses to come, next one first (log 2). -/
  host : List HostOp
  /-- The model's own: how many steps each command to come stays in BUSY (log 3). -/
  latency : List Nat
  /-- The model's own: steps left before the running command completes (log 3). -/
  busyLeft : Nat
  /-- The model's own: the value the port returned to the last read (log 10). -/
  rdata : Word
  /-- The model's own: the counter free values are drawn with (log 4). -/
  draws : Nat
  deriving DecidableEq, Repr

/-- Every piece of state at its value of R170, for an instance with parameters `p`. -/
def State.resetWith (p : Params) : State where
  cfg := p
  inReset := false
  phase := .idle
  lastCmd := 0
  errCode := 0
  errFirst := 0
  overrun := false
  ctOor := false
  opa := 0
  opb := 0
  opc := 0
  result := 0
  result2 := 0
  obuf := []
  ibuf := []
  icur := 0
  txt := []
  bytes := []
  freq := []
  ct := []
  node := [Node.blank p]
  host := []
  latency := []
  busyLeft := 0
  rdata := 0
  draws := 0

/-- The machine right after reset (R170), with the default parameters of R20, no host access pending and no latency
in store (log 1, 2, 3). -/
def State.reset : State := State.resetWith Params.default

end Sys2Proof.Machine
end

