-- ==== Sys2Proof/Machine/Ops.lean ====
section
/-! DEFINITION. The shared operations of the commands: how a command ends (return, raise, fail_at: R34, R400, R1110,
R1111), the reset of state (R171, R411, R1200), and the named operations over the buffers and memories. -/

namespace Sys2Proof.Machine

/-- What a step or a command answers. -/
abbrev Result := Host.Outcome State Fault Refusal

/-- The error codes of R1100; 0 is success. -/
def ErrKind.code : ErrKind → Byte
  | .truncatedCode => 1
  | .truncatedHeader => 2
  | .emptyCodeword => 3
  | .prefixConflict => 4
  | .letterOutOfRange => 5
  | .unmappedLetter => 6
  | .decodeFailure => 7
  | .illegalCommand => 8
  | .badOperand => 9
  | .capacityExceeded => 10

/-- The state after a successful command whose staged writes are in `s` (R400). -/
def State.commit (s : State) : State := { s with errCode := 0, phase := .idle }

/-- The state after `raise e` (R1110): ERR_CODE, ERR_FIRST if it was 0, and back to IDLE; all else as in `s`. -/
def State.recordError (s : State) (e : ErrKind) : State :=
  { s with
    errCode := e.code
    errFirst := if s.errFirst = 0 then e.code else s.errFirst
    phase := .idle }

/-- `return`: the command ends successfully and its staged writes, made in `s`, are committed (R34, R35, R400). -/
def ret (s : State) : Result := .next s.commit

/-- `raise e`: the block's one way of taking an error (R34, R1110). `s` is the state before the command, so the
staged writes are discarded (R35). -/
def raise (e : ErrKind) (s : State) : Result := .next (s.recordError e)

/-- `fail_at(e, p)`: raise with `ICUR <- p` (R34, R1111). -/
def failAt (e : ErrKind) (p : Nat) (s : State) : Result := raise e { s with icur := p }

/-- The sampled value of OPA (R101, R301). In phase IDLE it is the value an accepted CMD write would sample (log 11). -/
def State.argA (s : State) : Word :=
  match s.phase with
  | .busy _ a _ _ => a
  | .idle => s.opa

/-- The sampled value of OPB (R101, R301). -/
def State.argB (s : State) : Word :=
  match s.phase with
  | .busy _ _ b _ => b
  | .idle => s.opb

/-- The sampled value of OPC (R101, R301). -/
def State.argC (s : State) : Word :=
  match s.phase with
  | .busy _ _ _ c => c
  | .idle => s.opc

/-- A natural as a 32-bit register value. -/
def toWord (n : Nat) : Word := BitVec.ofNat 32 n

/-- `OAppend(bits)` of R36, with the rest of the command after it. -/
def oAppend (bits : Bits) (s : State) (k : State → Result) : Result :=
  if s.cfg.bitCap < s.obuf.length + bits.length then raise .capacityExceeded s
  else k { s with obuf := s.obuf ++ bits }

/-- `Remaining()` of R36. -/
def State.remaining (s : State) : Nat := s.ibuf.length - s.icur

/-- NODES (R128, R157). -/
def State.nodes (s : State) : Nat := s.node.length

/-- CT_COUNT, the number of letters with a valid entry (R128). -/
def State.ctCount (s : State) : Nat := s.ct.length

/-- The datapath state at its reset values, by CLEAR (R171, R411). OPA, OPB, OPC, ERR_FIRST, OVERRUN and LAST_CMD
are kept. -/
def State.clearDatapath (s : State) : State :=
  { s with
    obuf := []
    ibuf := []
    icur := 0
    txt := []
    bytes := []
    freq := []
    ct := []
    ctOor := false
    node := [Node.blank s.cfg]
    result := 0
    result2 := 0 }

/-- The reset event (R1200): every piece of the block's state at its value of R170, a command in progress abandoned,
the reset input asserted. The instance's parameters and the environment's fields (the host's accesses and the
latencies to come, the last read value, the draw counter) are not the block's to reset (log 6). -/
def State.resetEvent (s : State) : State :=
  { State.resetWith s.cfg with
    inReset := true
    host := s.host
    latency := s.latency
    rdata := s.rdata
    draws := s.draws }

/-- The canonical form of the two memories indexed by letter: keys strictly rising, and no entry equal to what an
unlisted letter reads as (FREQ: count 0; CT: invalid, which no entry is) (log 9). -/
def Memory.wf (s : State) : Bool :=
  keysRising s.freq && s.freq.all (fun e => decide (0 < e.2)) && keysRising s.ct

end Sys2Proof.Machine
end

