-- ==== Sys2Proof/Machine/Operands.lean ====
section
/-! DEFINITION. The operand kinds of R302 and their checks, in the order a command's rule lists them. The kinds `bits`
and `count` have no check. -/

namespace Sys2Proof.Machine

/-- Kind `letter`: `0 .. MAX_LETTER`, else LetterOutOfRange (R302). -/
def letterInRange (s : State) (l : Nat) : Bool := decide (l ≤ s.cfg.maxLetter)

/-- Kind `nbits`: `0 .. 32`, else BadOperand (R302). -/
def nbitsOk (n : Nat) : Bool := decide (n ≤ 32)

/-- Kind `pos`: `0 .. |IBUF|`, else BadOperand (R302). -/
def posOk (s : State) (p : Nat) : Bool := decide (p ≤ s.ibuf.length)

/-- Kind `byte`: `0 .. 255`, else BadOperand (R302). -/
def byteOk (b : Nat) : Bool := decide (b ≤ 255)

/-- Kind `letter`: the rest of the command runs on a letter in range (R302, R202). -/
def withLetter (s : State) (l : Nat) (k : Nat → Result) : Result :=
  if letterInRange s l then k l else raise .letterOutOfRange s

/-- Kind `nbits`: the rest of the command runs on a legal bit count (R302). -/
def withNbits (s : State) (n : Nat) (k : Nat → Result) : Result :=
  if nbitsOk n then k n else raise .badOperand s

/-- Kind `index`: the rest of the command runs on the addressed item; outside the buffer's current length, BadOperand
(R302, R202). -/
def withItem {α : Type} (s : State) (buf : List α) (i : Nat) (k : α → Result) : Result :=
  match buf[i]? with
  | some x => k x
  | none => raise .badOperand s

/-- The operands of CT_SET and TRIE_INSERT: letter in OPA, `cwlen` in OPB, `bits` in OPC. The checks stand in this
order: EmptyCodeword, LetterOutOfRange, CapacityExceeded (R302, R801, R913). -/
def withCodeword (s : State) (k : Nat → Bits → Result) : Result :=
  let l := s.argA.toNat
  let len := s.argB.toNat
  if len = 0 then raise .emptyCodeword s
  else if letterInRange s l then
    if s.cfg.maxCwLen < len then raise .capacityExceeded s
    else k l (bitsOf s.argC len)
  else raise .letterOutOfRange s

end Sys2Proof.Machine
end

