-- ==== Sys2Proof/Machine/Alphabet.lean ====
section
/-! DEFINITION. The alphabet mapping, the text buffer and the frequency counter (R600 to R613). -/

namespace Sys2Proof.Machine

/-- `letter_of(b) = b` (R600). -/
def letterOf (b : Byte) : Nat := b.toNat

/-- `byte_of(l) = l`, for `l` in `0 .. 255` (R600). -/
def byteOf (l : Nat) : Byte := BitVec.ofNat 8 l

/-- `is_byte(l)` (R601). -/
def isByte (p : Params) (l : Nat) : Bool := decide (l ≤ p.maxByte)

/-- TXT_CLR (R602). -/
def execTxtClr (s : State) : Result := ret { s with txt := [] }

/-- TXT_PUT: OPA letter (R603). -/
def execTxtPut (s : State) : Result :=
  withLetter s s.argA.toNat fun l =>
    if s.cfg.textCap ≤ s.txt.length then raise .capacityExceeded s
    else ret { s with txt := s.txt ++ [l] }

/-- TXT_GET: OPA index (R604). -/
def execTxtGet (s : State) : Result :=
  withItem s s.txt s.argA.toNat fun l => ret { s with result := toWord l }

/-- BYTES_TO_TEXT (R605). -/
def execBytesToText (s : State) : Result :=
  if s.cfg.textCap < s.bytes.length then raise .capacityExceeded s
  else ret { s with txt := s.bytes.map letterOf, result := toWord s.bytes.length }

/-- The bytes of a text, every letter above 255 dropped (R606). -/
def bytesOfText (p : Params) (txt : List Nat) : List Byte := (txt.filter (isByte p)).map byteOf

/-- TEXT_TO_BYTES (R606). -/
def execTextToBytes (s : State) : Result :=
  let out := bytesOfText s.cfg s.txt
  if s.cfg.byteCap < out.length then raise .capacityExceeded s
  else ret { s with
    bytes := out
    result := toWord out.length
    result2 := toWord (s.txt.length - out.length) }

/-- FREQ_CLR (R610). -/
def execFreqClr (s : State) : Result := ret { s with freq := [] }

/-- The counts after counting the letters of a text onto `f`, in exact arithmetic (R611). -/
def countText (f : Table Nat) (txt : List Nat) : Table Nat := txt.foldl (fun g l => countSet g l (countGet g l + 1)) f

/-- FREQ_COUNT (R611). -/
def execFreqCount (s : State) : Result :=
  let f := countText s.freq s.txt
  if f.any (fun e => decide (s.cfg.maxCount < e.2)) then raise .capacityExceeded s
  else ret { s with freq := f, result := toWord (f.countP (fun e => decide (0 < e.2))) }

/-- FREQ_SET: OPA letter, OPB count (R612). -/
def execFreqSet (s : State) : Result :=
  withLetter s s.argA.toNat fun l => ret { s with freq := countSet s.freq l s.argB.toNat }

/-- FREQ_GET: OPA letter (R613). -/
def execFreqGet (s : State) : Result :=
  withLetter s s.argA.toNat fun l => ret { s with result := toWord (countGet s.freq l) }

end Sys2Proof.Machine
end

