-- ==== Sys2Proof/Machine/CodeTable.lean ====
section
/-! DEFINITION. The code table commands, the header format and the payload encoder (R800 to R841). -/

namespace Sys2Proof.Machine

/-- CT_CLR (R800). -/
def execCtClr (s : State) : Result := ret { s with ct := [], ctOor := false }

/-- CT_SET: OPA letter, OPB cwlen, OPC bits (R801). -/
def execCtSet (s : State) : Result :=
  withCodeword s fun l c => ret { s with ct := tableSet s.ct l c }

/-- CT_GET: OPA letter; an invalid entry reads as length 0 (R802). -/
def execCtGet (s : State) : Result :=
  withLetter s s.argA.toNat fun l =>
    match tableGet s.ct l with
    | none => ret { s with result := 0, result2 := 0 }
    | some c => ret { s with result := toWord (bitsVal c), result2 := toWord c.length }

/-- The entries of a header from letter `base` on, where `base` is the letter after the previous one (`prev + 1`;
0 at the start, so that the first delta is `letter + 1`) (R810). -/
def packEntries : Nat → List (Nat × Bits) → Bits
  | _, [] => []
  | base, (l, c) :: es => gamma (l + 1 - base) ++ gamma c.length ++ c ++ packEntries (l + 1) es

/-- `PackTable(T)` (R810). -/
def packTable (t : Table Bits) : Bits := gamma (t.length + 1) ++ packEntries 0 t

/-- PACK_TABLE (R811). -/
def execPackTable (s : State) : Result :=
  if s.ctOor then raise .letterOutOfRange s
  else oAppend (packTable s.ct) s fun s' => ret { s' with result := toWord (packTable s.ct).length }

/-- The entry loop of `UnpackTable` (R820): entries left, `base = prev + 1`, and the position. Letters are exact
naturals. -/
def unpackEntries (ibuf : Bits) : Nat → Nat → Nat → Except ErrKind (List (Nat × Bits) × Nat)
  | 0, _, q => .ok ([], q)
  | n + 1, base, q =>
    match gammaRead ibuf q with
    | none => .error .truncatedHeader
    | some (d, _, q1) =>
      match gammaRead ibuf q1 with
      | none => .error .truncatedHeader
      | some (len, _, q2) =>
        if ibuf.length - q2 < len then .error .truncatedHeader
        else
          let letter := base + d - 1
          match unpackEntries ibuf n (letter + 1) (q2 + len) with
          | .error e => .error e
          | .ok (es, q3) => .ok ((letter, slice ibuf q2 (q2 + len)) :: es, q3)

/-- `UnpackTable(p)` (R820): the entries and the position after the header, or an error kind. -/
def unpackTable (ibuf : Bits) (p : Nat) : Except ErrKind (List (Nat × Bits) × Nat) :=
  match gammaRead ibuf p with
  | none => .error .truncatedCode
  | some (c, _, q) => unpackEntries ibuf (c - 1) 0 q

/-- The entries of a header that CT can store: letters up to MAX_LETTER (R830, R831). -/
def storable (p : Params) (es : List (Nat × Bits)) : List (Nat × Bits) := es.filter (fun e => decide (e.1 ≤ p.maxLetter))

/-- UNPACK_TABLE (R830). -/
def execUnpackTable (s : State) : Result :=
  match unpackTable s.ibuf s.icur with
  | .error e => raise e s
  | .ok (es, next) =>
    let kept := storable s.cfg es
    if kept.any (fun e => decide (s.cfg.maxCwLen < e.2.length)) then raise .capacityExceeded s
    else ret { s with
      ct := tableOf kept
      ctOor := es.any (fun e => decide (s.cfg.maxLetter < e.1))
      result := toWord (next - s.icur)
      result2 := toWord es.length
      icur := next }

/-- ENC_LETTER: OPA letter (R840). -/
def execEncLetter (s : State) : Result :=
  withLetter s s.argA.toNat fun l =>
    match tableGet s.ct l with
    | none => raise .unmappedLetter s
    | some c => oAppend c s fun s' => ret { s' with result := toWord c.length }

/-- The payload of a text: its letters' codewords in order, or `none` when a letter has no entry (R841). -/
def encodeText (ct : Table Bits) : List Nat → Option Bits
  | [] => some []
  | l :: ls =>
    match tableGet ct l, encodeText ct ls with
    | some c, some w => some (c ++ w)
    | _, _ => none

/-- ENC_TEXT (R841). -/
def execEncText (s : State) : Result :=
  match encodeText s.ct s.txt with
  | none => raise .unmappedLetter s
  | some w => oAppend w s fun s' => ret { s' with result := toWord w.length }

end Sys2Proof.Machine
end

