-- ==== Sys2Proof/Machine/HostBuffers.lean ====
section
/-! DEFINITION. The control and host-buffer commands (R410 to R422). -/

namespace Sys2Proof.Machine

/-- NOP (R410). -/
def execNop (s : State) : Result := ret s

/-- CLEAR (R411, R171). -/
def execClear (s : State) : Result := ret s.clearDatapath

/-- OBUF_CLR (R412). -/
def execObufClr (s : State) : Result := ret { s with obuf := [] }

/-- OBUF_PUT: OPA bits, OPB nbits (R413). -/
def execObufPut (s : State) : Result :=
  withNbits s s.argB.toNat fun n => oAppend (bitsOf s.argA n) s ret

/-- OBUF_GET: OPA bit offset, OPB nbits; the end of the range is computed exactly (R414). -/
def execObufGet (s : State) : Result :=
  withNbits s s.argB.toNat fun n =>
    let off := s.argA.toNat
    if s.obuf.length < off + n then raise .badOperand s
    else ret { s with result := toWord (bitsVal (slice s.obuf off (off + n))) }

/-- IBUF_CLR (R415). -/
def execIbufClr (s : State) : Result := ret { s with ibuf := [], icur := 0 }

/-- IBUF_PUT: OPA bits, OPB nbits (R416). -/
def execIbufPut (s : State) : Result :=
  withNbits s s.argB.toNat fun n =>
    if s.cfg.bitCap < s.ibuf.length + n then raise .capacityExceeded s
    else ret { s with ibuf := s.ibuf ++ bitsOf s.argA n }

/-- IBUF_GET: OPA nbits (R417). -/
def execIbufGet (s : State) : Result :=
  withNbits s s.argA.toNat fun n =>
    if s.remaining < n then raise .truncatedCode s
    else ret { s with
      result := toWord (bitsVal (slice s.ibuf s.icur (s.icur + n)))
      icur := s.icur + n }

/-- SEEK: OPA pos (R418). -/
def execSeek (s : State) : Result :=
  let p := s.argA.toNat
  if posOk s p then ret { s with icur := p } else raise .badOperand s

/-- XFER (R419). -/
def execXfer (s : State) : Result := ret { s with ibuf := s.obuf, icur := 0 }

/-- BYTE_CLR (R420). -/
def execByteClr (s : State) : Result := ret { s with bytes := [] }

/-- BYTE_PUT: OPA byte (R421). -/
def execBytePut (s : State) : Result :=
  let b := s.argA.toNat
  if byteOk b then
    if s.cfg.byteCap ≤ s.bytes.length then raise .capacityExceeded s
    else ret { s with bytes := s.bytes ++ [BitVec.ofNat 8 b] }
  else raise .badOperand s

/-- BYTE_GET: OPA index (R422). -/
def execByteGet (s : State) : Result :=
  withItem s s.bytes s.argA.toNat fun b => ret { s with result := toWord b.toNat }

end Sys2Proof.Machine
end

