-- ==== Sys2Proof/Machine/Packer.lean ====
section
/-! DEFINITION. The bit/byte packer (R1010 to R1013); its functions are in Machine/BitSeq.lean. -/

namespace Sys2Proof.Machine

/-- PAD (R1010). -/
def execPad (s : State) : Result :=
  let r := padAmount s.obuf.length
  if s.cfg.bitCap < s.obuf.length + r then raise .capacityExceeded s
  else ret { s with obuf := padBits s.obuf, result := toWord r }

/-- UNPAD (R1011). On truncation the cursor goes to the end of IBUF (R1111). -/
def execUnpad (s : State) : Result :=
  match unaryRead s.ibuf s.icur with
  | none => failAt .truncatedCode s.ibuf.length s
  | some (n, next) => ret { s with icur := next, result := toWord n }

/-- PACK_BYTES (R1012). -/
def execPackBytes (s : State) : Result :=
  if s.cfg.bitCap < s.obuf.length + padAmount s.obuf.length then raise .capacityExceeded s
  else
    let out := groupBytes (padBits s.obuf)
    ret { s with bytes := out, result := toWord out.length }

/-- UNPACK_BYTES (R1013). On truncation the expanded IBUF is kept and the cursor goes to its end (R1111). -/
def execUnpackBytes (s : State) : Result :=
  let s' := { s with ibuf := expandBytes s.bytes, icur := 0 }
  match unaryRead s'.ibuf 0 with
  | none => failAt .truncatedCode s'.ibuf.length s'
  | some (n, next) => ret { s' with icur := next, result := toWord n }

end Sys2Proof.Machine
end

