-- ==== Sys2Proof/Machine/TreeBuilder.lean ====
section
/-! DEFINITION. The Huffman tree builder (R700 to R710) and BUILD (R720). -/

namespace Sys2Proof.Machine

/-- A merge node: weight, sequence number and partial code table (R701, R159). It exists only inside BUILD. -/
structure MergeNode where
  weight : Nat
  seq : Nat
  table : List (Nat × Bits)
  deriving DecidableEq, Repr

/-- The selection order of R702: lexicographic on (weight, sequence number). -/
def selectedBefore (x y : MergeNode) : Bool :=
  decide (x.weight < y.weight) || (decide (x.weight = y.weight) && decide (x.seq < y.seq))

/-- The element of `Q` minimal in (weight, seq), and `Q` without it (R710). -/
def takeMin : List MergeNode → Option (MergeNode × List MergeNode)
  | [] => none
  | x :: q =>
    match takeMin q with
    | none => some (x, [])
    | some (m, q') => if selectedBefore m x then some (m, x :: q') else some (x, q)

/-- Put a bit in front of every codeword of a table (R703). -/
def prefixBit (b : Bool) (t : List (Nat × Bits)) : List (Nat × Bits) := t.map (fun e => (e.1, b :: e.2))

/-- The merge of `x`, removed first, and `y` (R703). -/
def mergeNodes (x y : MergeNode) (seq : Nat) : MergeNode where
  weight := x.weight + y.weight
  seq := seq
  table := prefixBit false x.table ++ prefixBit true y.table

/-- The participating letters with their counts, ascending (R700). -/
def participants (f : Table Nat) : List (Nat × Nat) := f.filter (fun e => decide (0 < e.2))

/-- The seeds, sequence numbers from `i` (R701). -/
def seedNodes : Nat → List (Nat × Nat) → List MergeNode
  | _, [] => []
  | i, (l, c) :: ps => { weight := c, seq := i, table := [(l, [])] } :: seedNodes (i + 1) ps

/-- The merge loop of R710: `k` bounds the merges left, `next` is the next sequence number. The answer is the table
of the single element left. -/
def mergeLoop : Nat → Nat → List MergeNode → List (Nat × Bits)
  | 0, _, q => q.flatMap (fun x => x.table)
  | k + 1, next, q =>
    match takeMin q with
    | none => []
    | some (x, q1) =>
      match takeMin q1 with
      | none => x.table
      | some (y, q2) => mergeLoop k (next + 1) (mergeNodes x y next :: q2)

/-- `Huffman(F)` (R710): the entries of the code table, each letter once. With `n >= 2` letters there are `n - 1`
merges (R704). -/
def huffman (f : Table Nat) : List (Nat × Bits) :=
  match participants f with
  | [] => []
  | [(l, _)] => [(l, [false])]
  | p :: ps => mergeLoop ps.length (ps.length + 1) (seedNodes 0 (p :: ps))

/-- The length of a table's longest codeword, 0 for an empty table (R720). -/
def longest (t : List (Nat × Bits)) : Nat := t.foldl (fun m e => max m e.2.length) 0

/-- BUILD (R720). -/
def execBuild (s : State) : Result :=
  let t := huffman s.freq
  if s.cfg.maxCwLen < longest t then raise .capacityExceeded s
  else ret { s with
    ct := tableOf t
    ctOor := false
    result := toWord t.length
    result2 := toWord (longest t) }

end Sys2Proof.Machine
end

