-- ==== Sys2Proof/Machine/TrieDecoder.lean ====
section
/-! DEFINITION. The trie decoder: building the trie (R910 to R915), decoding (R920 to R931) and NODE_GET (R940), with
the state machines of R912 and R920 as the spec tabulates them. -/

namespace Sys2Proof.Machine

/-- A trie in its decoded view (R901), nodes in index order. It has no node bound: R911 is "the algorithm with the
node bound removed", and a child index may pass MID before the bound is checked (log 7). -/
abbrev Trie := List (Slot × Slot)

/-- The decoded view of the node memory (R901). -/
def trieOf (p : Params) (ns : List Node) : Trie := ns.map (fun n => (slotOf p n.br0, slotOf p n.br1))

/-- The node memory that holds a trie (R901). -/
def packTrie (p : Params) (t : Trie) : List Node := t.map (fun n => { br0 := encSlot p n.1, br1 := encSlot p n.2 })

/-- A fresh empty root (R910, R915). -/
def emptyTrie : Trie := [(.empty, .empty)]

/-- The slot a node has on bit `b`. -/
def pickSlot (n : Slot × Slot) : Bool → Slot
  | false => n.1
  | true => n.2

/-- A node with its slot on bit `b` replaced. -/
def putSlot (n : Slot × Slot) (b : Bool) (x : Slot) : Slot × Slot :=
  match b with
  | false => (x, n.2)
  | true => (n.1, x)

/-- `Slot(NODE[n].br_b)`. A node that is not allocated reads as Reserved, which no walk can meet (R158, R901). -/
def trieSlot (t : Trie) (n : Nat) (b : Bool) : Slot :=
  match t[n]? with
  | some nd => pickSlot nd b
  | none => .reserved 0

/-- `NODE[n].br_b <- x`. -/
def setTrieSlot (t : Trie) (n : Nat) (b : Bool) (x : Slot) : Trie := t.modify n (fun nd => putSlot nd b x)

/-- Allocate node `m = NODES` and link slot `b` of node `n` to it (R911). -/
def growTrie (t : Trie) (n : Nat) (b : Bool) : Trie := setTrieSlot t n b (.child t.length) ++ [(.empty, .empty)]

/-- The extension of R911: one new node for each remaining bit but the last, whose slot becomes the leaf. -/
def extendTrie (l : Nat) : Trie → Nat → Bits → Trie
  | t, _, [] => t
  | t, n, [b] => setTrieSlot t n b (.leaf l)
  | t, n, b :: b' :: bs => extendTrie l (growTrie t n b) t.length (b' :: bs)

/-- The walk of R911 from node `n` with the codeword bits left. A Reserved slot, which cannot be met, is a conflict
(R912). -/
def insertWalk (t : Trie) (l : Nat) : Nat → Bits → Except ErrKind Trie
  | _, [] => .error .emptyCodeword
  | n, [b] =>
    match trieSlot t n b with
    | .empty => .ok (setTrieSlot t n b (.leaf l))
    | .child _ => .error .prefixConflict
    | .leaf _ => .error .prefixConflict
    | .reserved _ => .error .prefixConflict
  | n, b :: b' :: bs =>
    match trieSlot t n b with
    | .child m => insertWalk t l m (b' :: bs)
    | .leaf _ => .error .prefixConflict
    | .reserved _ => .error .prefixConflict
    | .empty => .ok (extendTrie l t n (b :: b' :: bs))

/-- `TrieInsert(N, c, l)` (R911). -/
def trieInsert (p : Params) (t : Trie) (c : Bits) (l : Nat) : Except ErrKind Trie :=
  if c = [] then .error .emptyCodeword
  else if p.maxLetter < l then .error .letterOutOfRange
  else insertWalk t l 0 c

/-- The states of the insert state machine of R912; the codeword `c` and the letter `l` are the machine's inputs. -/
inductive InsertState where
  | icheck
  | iwalk (n i : Nat)
  | iext (n i : Nat)
  | ileaf (n : Nat)
  | idone
  | ifail (e : ErrKind)
  deriving DecidableEq, Repr

/-- Bit `i` of a codeword; the machine asks for none past the last. -/
def codeBit (c : Bits) (i : Nat) : Bool := c.getD i false

/-- One row of R912's table: the next state and the trie. -/
def insertStep (p : Params) (c : Bits) (l : Nat) : InsertState × Trie → InsertState × Trie
  | (.icheck, t) =>
    if c.length = 0 then (.ifail .emptyCodeword, t)
    else if p.maxLetter < l then (.ifail .letterOutOfRange, t)
    else (.iwalk 0 0, t)
  | (.iwalk n i, t) =>
    if i + 1 < c.length then
      match trieSlot t n (codeBit c i) with
      | .child m => (.iwalk m (i + 1), t)
      | .leaf _ => (.ifail .prefixConflict, t)
      | .reserved _ => (.ifail .prefixConflict, t)
      | .empty => (.iext n i, t)
    else
      match trieSlot t n (codeBit c i) with
      | .empty => (.ileaf n, t)
      | .child _ => (.ifail .prefixConflict, t)
      | .leaf _ => (.ifail .prefixConflict, t)
      | .reserved _ => (.ifail .prefixConflict, t)
  | (.iext n i, t) =>
    if i + 1 < c.length then (.iext t.length (i + 1), growTrie t n (codeBit c i)) else (.ileaf n, t)
  | (.ileaf n, t) => (.idone, setTrieSlot t n (codeBit c (c.length - 1)) (.leaf l))
  | (.idone, t) => (.idone, t)
  | (.ifail e, t) => (.ifail e, t)

/-- `k` steps of the insert state machine. -/
def insertRun (p : Params) (c : Bits) (l : Nat) : Nat → InsertState × Trie → InsertState × Trie
  | 0, x => x
  | k + 1, x => insertRun p c l k (insertStep p c l x)

/-- Store a trie in the node memory if it fits NODE_CAP, else CapacityExceeded (R913, R915). -/
def storeTrie (t : Trie) (s : State) (k : State → Result) : Result :=
  if s.cfg.nodeCap < t.length then raise .capacityExceeded s else k { s with node := packTrie s.cfg t }

/-- TRIE_CLR (R910). -/
def execTrieClr (s : State) : Result := ret { s with node := [Node.blank s.cfg] }

/-- TRIE_INSERT: OPA letter, OPB cwlen, OPC bits (R913). -/
def execTrieInsert (s : State) : Result :=
  withCodeword s fun l c =>
    match trieInsert s.cfg (trieOf s.cfg s.node) c l with
    | .error e => raise e s
    | .ok t => storeTrie t s ret

/-- Insert a list of entries one after another (R915). -/
def insertAll (p : Params) : Trie → List (Nat × Bits) → Except ErrKind Trie
  | t, [] => .ok t
  | t, (l, c) :: es =>
    match trieInsert p t c l with
    | .error e => .error e
    | .ok t' => insertAll p t' es

/-- TRIE_BUILD (R915). CT lists its entries in ascending letter order. -/
def execTrieBuild (s : State) : Result :=
  match insertAll s.cfg emptyTrie s.ct with
  | .error e => raise e s
  | .ok t =>
    if s.ctOor then raise .letterOutOfRange s
    else storeTrie t s fun s' => ret { s' with result := toWord t.length }

/-- The states of the decode walk of R920. -/
inductive DecodeState where
  | dwalk (n j : Nat)
  | ddone (l j : Nat)
  | dfail
  deriving DecidableEq, Repr

/-- One row of R920's table. -/
def decodeStep (t : Trie) (ibuf : Bits) : DecodeState → DecodeState
  | .dwalk n j =>
    match ibuf[j]? with
    | none => .dfail
    | some b =>
      match trieSlot t n b with
      | .child m => .dwalk m (j + 1)
      | .leaf l => .ddone l (j + 1)
      | .empty => .dfail
      | .reserved _ => .dfail
  | .ddone l j => .ddone l j
  | .dfail => .dfail

/-- `k` steps of the decode walk. -/
def decodeRun (t : Trie) (ibuf : Bits) : Nat → DecodeState → DecodeState
  | 0, x => x
  | k + 1, x => decodeRun t ibuf k (decodeStep t ibuf x)

/-- The decode walk as a function of the bits left: from node `n` at position `j` (R920). -/
def walkBits (t : Trie) : Nat → Nat → Bits → Option (Nat × Nat)
  | _, _, [] => none
  | n, j, b :: bs =>
    match trieSlot t n b with
    | .child m => walkBits t m (j + 1) bs
    | .leaf l => some (l, j + 1)
    | .empty => none
    | .reserved _ => none

/-- `DecodeWalk(p)` (R920): `none` is DecodeFailure, `some (letter, next)` is Ok. -/
def decodeWalk (t : Trie) (ibuf : Bits) (p : Nat) : Option (Nat × Nat) := walkBits t 0 p (ibuf.drop p)

/-- DECODE_ONE (R921). -/
def execDecodeOne (s : State) : Result :=
  match decodeWalk (trieOf s.cfg s.node) s.ibuf s.icur with
  | none => raise .decodeFailure s
  | some (l, next) => ret { s with result := toWord l, result2 := toWord (next - s.icur), icur := next }

/-- The loop of `DecodeAll` (R930). The first argument bounds the letters left: each walk consumes a bit. -/
def decodeLoop (t : Trie) (ibuf : Bits) : Nat → Nat → Option (List Nat × Nat)
  | 0, j => if j < ibuf.length then none else some ([], j)
  | k + 1, j =>
    if j < ibuf.length then
      match decodeWalk t ibuf j with
      | none => none
      | some (l, j') =>
        match decodeLoop t ibuf k j' with
        | none => none
        | some (out, e) => some (l :: out, e)
    else some ([], j)

/-- `DecodeAll(p)` (R930): `none` is DecodeFailure, `some (out, j)` is Ok. -/
def decodeAll (t : Trie) (ibuf : Bits) (p : Nat) : Option (List Nat × Nat) := decodeLoop t ibuf (ibuf.length - p) p

/-- DECODE_ALL (R931). -/
def execDecodeAll (s : State) : Result :=
  match decodeAll (trieOf s.cfg s.node) s.ibuf s.icur with
  | none => raise .decodeFailure s
  | some (out, j) =>
    if s.cfg.textCap < out.length then raise .capacityExceeded s
    else ret { s with txt := out, icur := j, result := toWord out.length }

/-- NODE_GET: OPA index (R940). -/
def execNodeGet (s : State) : Result :=
  withItem s s.node s.argA.toNat fun n => ret { s with result := toWord n.br0, result2 := toWord n.br1 }

end Sys2Proof.Machine
end

