-- ==== Sys2Proof/Machine/UniversalCodec.lean ====
section
/-! DEFINITION. The universal integer codec commands (R510 to R513); the codes are in Machine/BitSeq.lean. -/

namespace Sys2Proof.Machine

/-- UNARY_ENC: OPA n (R510). `n >= BIT_CAP` always exceeds the capacity, as R510 says; the check stands first so that
no code of that length is built. -/
def execUnaryEnc (s : State) : Result :=
  let n := s.argA.toNat
  if s.cfg.bitCap ≤ n then raise .capacityExceeded s else oAppend (unary n) s ret

/-- UNARY_DEC (R511). On truncation the cursor goes to the end of IBUF (R1111). -/
def execUnaryDec (s : State) : Result :=
  match unaryRead s.ibuf s.icur with
  | none => failAt .truncatedCode s.ibuf.length s
  | some (n, next) => ret { s with result := toWord n, icur := next }

/-- GAMMA_ENC: OPA n (R512). -/
def execGammaEnc (s : State) : Result :=
  let n := s.argA.toNat
  if n = 0 then raise .badOperand s else oAppend (gamma n) s ret

/-- GAMMA_DEC (R513). On either error the cursor is unchanged. -/
def execGammaDec (s : State) : Result :=
  match gammaRead s.ibuf s.icur with
  | none => raise .truncatedCode s
  | some (v, k, next) =>
    if 32 < k then raise .capacityExceeded s
    else ret { s with result := toWord v, icur := next }

end Sys2Proof.Machine
end

