-- ==== Sys2Proof/Machine/Dispatch.lean ====
section
/-! DEFINITION. The dispatch of a command to its meaning: one arm per constructor of Instr. -/

namespace Sys2Proof.Machine

/-- The effect of a command (R310). -/
def exec (i : Instr) (s : State) : Host.Outcome State Fault Refusal :=
  match i with
  | .nop => Sys2Proof.Machine.execNop s
  | .clear => Sys2Proof.Machine.execClear s
  | .obufClr => Sys2Proof.Machine.execObufClr s
  | .obufPut => Sys2Proof.Machine.execObufPut s
  | .obufGet => Sys2Proof.Machine.execObufGet s
  | .ibufClr => Sys2Proof.Machine.execIbufClr s
  | .ibufPut => Sys2Proof.Machine.execIbufPut s
  | .ibufGet => Sys2Proof.Machine.execIbufGet s
  | .seek => Sys2Proof.Machine.execSeek s
  | .xfer => Sys2Proof.Machine.execXfer s
  | .byteClr => Sys2Proof.Machine.execByteClr s
  | .bytePut => Sys2Proof.Machine.execBytePut s
  | .byteGet => Sys2Proof.Machine.execByteGet s
  | .unaryEnc => Sys2Proof.Machine.execUnaryEnc s
  | .unaryDec => Sys2Proof.Machine.execUnaryDec s
  | .gammaEnc => Sys2Proof.Machine.execGammaEnc s
  | .gammaDec => Sys2Proof.Machine.execGammaDec s
  | .txtClr => Sys2Proof.Machine.execTxtClr s
  | .txtPut => Sys2Proof.Machine.execTxtPut s
  | .txtGet => Sys2Proof.Machine.execTxtGet s
  | .bytesToText => Sys2Proof.Machine.execBytesToText s
  | .textToBytes => Sys2Proof.Machine.execTextToBytes s
  | .freqClr => Sys2Proof.Machine.execFreqClr s
  | .freqCount => Sys2Proof.Machine.execFreqCount s
  | .freqSet => Sys2Proof.Machine.execFreqSet s
  | .freqGet => Sys2Proof.Machine.execFreqGet s
  | .build => Sys2Proof.Machine.execBuild s
  | .ctClr => Sys2Proof.Machine.execCtClr s
  | .ctSet => Sys2Proof.Machine.execCtSet s
  | .ctGet => Sys2Proof.Machine.execCtGet s
  | .packTable => Sys2Proof.Machine.execPackTable s
  | .unpackTable => Sys2Proof.Machine.execUnpackTable s
  | .encLetter => Sys2Proof.Machine.execEncLetter s
  | .encText => Sys2Proof.Machine.execEncText s
  | .trieClr => Sys2Proof.Machine.execTrieClr s
  | .trieInsert => Sys2Proof.Machine.execTrieInsert s
  | .trieBuild => Sys2Proof.Machine.execTrieBuild s
  | .decodeOne => Sys2Proof.Machine.execDecodeOne s
  | .decodeAll => Sys2Proof.Machine.execDecodeAll s
  | .nodeGet => Sys2Proof.Machine.execNodeGet s
  | .pad => Sys2Proof.Machine.execPad s
  | .unpad => Sys2Proof.Machine.execUnpad s
  | .packBytes => Sys2Proof.Machine.execPackBytes s
  | .unpackBytes => Sys2Proof.Machine.execUnpackBytes s

end Sys2Proof.Machine
end

