-- ==== Sys2Proof/Machine/Flags.lean ====
section
/-! DEFINITION. The flags: the bits of STATUS (R123, R130), computed from the state. -/

namespace Sys2Proof.Machine

/-- STATUS.BUSY: 1 exactly in phase BUSY (R101, R123). -/
def State.busyFlag (s : State) : Bool :=
  match s.phase with
  | .busy _ _ _ _ => true
  | .idle => false

/-- STATUS.ERR: 1 exactly when ERR_CODE is not 0 (R123). -/
def State.errFlag (s : State) : Bool := decide (s.errCode ≠ 0)

/-- STATUS.STICKY: 1 exactly when ERR_FIRST is not 0 (R123). -/
def State.stickyFlag (s : State) : Bool := decide (s.errFirst ≠ 0)

/-- The STATUS word of R123; bits [31:5] are 0. -/
def State.statusWord (s : State) : Word :=
  toWord (s.busyFlag.toNat + 2 * s.errFlag.toNat + 4 * s.stickyFlag.toNat + 8 * s.overrun.toNat + 16 * s.ctOor.toNat)

/-- The STATUS bits that read exactly in phase BUSY: 0 (BUSY) and 3 (OVERRUN) (R1221). -/
def statusExactMask : Word := 0x00000009

/-- STATUS read in phase BUSY: bits 0 and 3 exact, every other bit that of the free value (R1221; log 4). -/
def State.statusInBusy (s : State) (free : Word) : Word :=
  (s.statusWord &&& statusExactMask) ||| (free &&& ~~~statusExactMask)

end Sys2Proof.Machine
end

