-- ==== Sys2Proof/Machine/Port.lean ====
section
/-! DEFINITION. The host port: the register window (R110, R111, R120 to R129), reads and writes in both phases (R210
to R213, R1220, R1221), the reset input (R1200) and the host's turn (R100, R220). -/

namespace Sys2Proof.Machine

/-- The CFG word (R121). -/
def cfgWord (p : Params) : Word := toWord (p.branchW % 256 + 256 * (p.maxCwLen % 256) + 65536 * (p.countW % 256))

/-- The value a register reads in phase IDLE, by its offset (R111); a reserved offset reads 0 (R110). -/
def readReg (s : State) : Nat → Word
  | 0x00 => 0x48554631
  | 0x04 => cfgWord s.cfg
  | 0x08 => s.lastCmd
  | 0x0C => s.statusWord
  | 0x10 => s.errCode.zeroExtend 32
  | 0x14 => s.errFirst.zeroExtend 32
  | 0x18 => s.opa
  | 0x1C => s.opb
  | 0x20 => s.opc
  | 0x24 => s.result
  | 0x28 => s.result2
  | 0x2C => toWord s.obuf.length
  | 0x30 => toWord s.ibuf.length
  | 0x34 => toWord s.icur
  | 0x38 => toWord s.txt.length
  | 0x3C => toWord s.bytes.length
  | 0x40 => toWord s.nodes
  | 0x44 => toWord s.ctCount
  | 0x48 => toWord s.cfg.bitCap
  | 0x4C => toWord s.cfg.byteCap
  | 0x50 => toWord s.cfg.textCap
  | 0x54 => toWord s.cfg.nodeCap
  | 0x58 => toWord s.cfg.maxLetter
  | _ => 0

/-- The offsets whose reads are unspecified in phase BUSY (R1221): ERR_CODE (0x10) to CT_COUNT (0x44), which leaves
ID, CFG, CMD, the capacity registers and the reserved offsets exact, and STATUS to its own rule (log 5). -/
def unspecifiedInBusy (off : Nat) : Bool := decide (0x10 ≤ off) && decide (off ≤ 0x44)

/-- A register read: the value, and the state after it. No register changes (R212). In phase BUSY an unspecified
value is a free value, and the model's draw counter advances (R1221; log 4). -/
def portRead (s : State) (off : Nat) : Word × State :=
  if s.busyFlag then
    if off = 0x0C then (s.statusInBusy (Config.freeRead s.draws), { s with draws := s.draws + 1 })
    else if unspecifiedInBusy off then (Config.freeRead s.draws, { s with draws := s.draws + 1 })
    else (readReg s off, s)
  else (readReg s off, s)

/-- An accepted CMD write (R213): LAST_CMD is set, the operands are sampled and the sequencer enters BUSY. How long
it stays there is the next latency in store, none left meaning none (R1230; log 3). -/
def issueCmd (w : Word) (s : State) : State :=
  { s with
    lastCmd := w
    phase := .busy w s.opa s.opb s.opc
    busyLeft := s.latency.headD 0
    latency := s.latency.tail }

/-- The offsets the host can write: CMD, ERR_FIRST, OPA, OPB, OPC (R111, R1220). -/
def hostWritable (off : Nat) : Bool :=
  decide (off = 0x08) || decide (off = 0x14) || decide (off = 0x18) || decide (off = 0x1C) || decide (off = 0x20)

/-- A register write in phase IDLE (R213); a write to an RO or reserved offset is ignored. -/
def writeIdle (s : State) (off : Nat) (v : Word) : State :=
  match off with
  | 0x08 => issueCmd v s
  | 0x14 => { s with errFirst := 0, overrun := false }
  | 0x18 => { s with opa := v }
  | 0x1C => { s with opb := v }
  | 0x20 => { s with opc := v }
  | _ => s

/-- A register write in phase BUSY is dropped; to a writable register it sets OVERRUN (R1220). -/
def writeBusy (s : State) (off : Nat) : State := if hostWritable off then { s with overrun := true } else s

/-- A register write: not accepted during reset (R1200, 93 S10), else by the phase. -/
def portWrite (s : State) (off : Nat) (v : Word) : State :=
  if s.inReset then s else if s.busyFlag then writeBusy s off else writeIdle s off v

/-- The check of a host access (R210, R201): 32 bits at a multiple of 4 within the window, else a refusal. -/
def checkAccess (p : Params) (addr width : Nat) : Except Refusal Nat :=
  if width ≠ 4 ∨ addr % 4 ≠ 0 then .error .badAccess
  else if addr < p.hufBase ∨ p.hufBase + 256 ≤ addr then .error .outsideWindow
  else .ok (addr - p.hufBase)

/-- One access of the host, or reset event; `s` has it taken off the list. -/
def serve (op : HostOp) (s : State) : Result :=
  match op with
  | .write addr width v =>
    match checkAccess s.cfg addr width with
    | .error r => .refused r
    | .ok off => .next (portWrite s off v)
  | .read addr width =>
    match checkAccess s.cfg addr width with
    | .error r => .refused r
    | .ok off => .next { (portRead s off).2 with rdata := (portRead s off).1 }
  | .wait =>
    .next { (portRead s 0x0C).2 with
      rdata := (portRead s 0x0C).1
      host := if s.busyFlag then .wait :: s.host else s.host }
  | .check =>
    .next { (portRead s 0x10).2 with
      rdata := (portRead s 0x10).1
      host := if (portRead s 0x10).1 = 0 then s.host else [] }
  | .resetAssert => .next s.resetEvent
  | .resetRelease => .next { s with inReset := false }

/-- The host's turn: its next access, or nothing when it has none (R1154). -/
def hostTurn (s : State) : Result :=
  match s.host with
  | [] => .next s
  | op :: rest => serve op { s with host := rest }

end Sys2Proof.Machine
end

