-- ==== Sys2Proof/Machine/Sequencer.lean ====
section
/-! DEFINITION. The sequencer: running the accepted command (R101, R320, R321), whose turn it is (R100, R1230), and
the placing of a command word for the very next step. -/

namespace Sys2Proof.Machine

/-- The step that leaves BUSY (R101): the command's whole effect, or IllegalCommand when the word decodes to none, in
which nothing is evaluated (R320, R1101). -/
def runCommand (w : Word) (s : State) : Result :=
  match decode w with
  | .ok i => exec i s
  | .error _ => raise .illegalCommand s

/-- One step of the machine. During reset and in phase IDLE the host has its turn. In phase BUSY the command completes
when `busyLeft` is 0; before that the host has its turn and one of the steps left is used up. -/
def advance (s : State) : Result :=
  if s.inReset then hostTurn s
  else match s.phase with
    | .idle => hostTurn s
    | .busy w _ _ _ =>
      match s.busyLeft with
      | 0 => runCommand w s
      | k + 1 => hostTurn { s with busyLeft := k }

/-- The state after an accepted CMD write of `w` whose command completes in the very next step (log 14). -/
def loadCommand (s : State) (w : Word) : State :=
  { s with
    inReset := false
    lastCmd := w
    phase := .busy w s.opa s.opb s.opc
    busyLeft := 0 }

end Sys2Proof.Machine
end

