-- ==== Sys2Proof/Machine/Step.lean ====
section
/-! DEFINITION. The step function and the placing of an instruction; both only call Machine/Sequencer.lean. -/

namespace Sys2Proof.Machine

/-- One step of the machine (R100, R101, R1230). -/
def step (s : State) : Host.Outcome State Fault Refusal := advance s

/-- `s` with the command word `w` accepted, so that the very next step runs it (log 14). -/
def State.withFetchWord (s : State) (nbits w : Nat) : State := loadCommand s (BitVec.ofNat 32 (w % 2 ^ nbits))

end Sys2Proof.Machine
end

