-- ==== Sys2Proof/Machine/HostProgram.lean ====
section
/-! DEFINITION. The host's assembly statements and pseudo-instructions as lists of host accesses (R330, R331, R340,
R341), and the same sequences run command by command. None of them is a command of the block. -/

namespace Sys2Proof.Machine

/-- `MemWrite(HUF_BASE + off, 4, v)` (R33, R201). -/
def memWrite (p : Params) (off : Nat) (v : Word) : HostOp := .write (p.hufBase + off) 4 v

/-- `READ`: `MemRead(HUF_BASE + off, 4)` (R331). -/
def memRead (p : Params) (off : Nat) : HostOp := .read (p.hufBase + off) 4

/-- A command statement `MNEMONIC [a [, b [, c]]]` (R330): an operand not given is not written. -/
structure Stmt where
  instr : Instr
  a : Option Word := none
  b : Option Word := none
  c : Option Word := none
  deriving DecidableEq, Repr

/-- The write of an operand that is given (R330). -/
def operandWrite (p : Params) (off : Nat) (v : Option Word) : List HostOp :=
  match v with
  | some x => [memWrite p off x]
  | none => []

/-- The host sequence a statement stands for (R330). -/
def Stmt.accesses (p : Params) (st : Stmt) : List HostOp :=
  operandWrite p 0x18 st.a ++ operandWrite p 0x1C st.b ++ operandWrite p 0x20 st.c
    ++ [memWrite p 0x08 (encode st.instr), .wait]

/-- A list of statements with a `CHECK` after every command (R340, R341). -/
def checkedAccesses (p : Params) (sts : List Stmt) : List HostOp := sts.flatMap (fun st => st.accesses p ++ [.check])

/-- `CLRERR` (R331). -/
def clrErr (p : Params) : HostOp := memWrite p 0x14 0

/-- `LOADBYTES b0, b1, ...` (R331). -/
def loadBytes (bs : List Byte) : List Stmt :=
  { instr := .byteClr } :: bs.map (fun b => { instr := .bytePut, a := some (b.zeroExtend 32) })

/-- The `IBUF_PUT` statements of successive chunks of at most 32 bits (R331); the first argument bounds the chunks. R331
leaves the size of the chunks open: 32 bits each and a shorter last one, the value's other bits 0 (DESIGN CHOICE, log 21). -/
def putChunks : Nat → Bits → List Stmt
  | 0, _ => []
  | _ + 1, [] => []
  | k + 1, b :: bs =>
    { instr := .ibufPut, a := some (toWord (bitsVal ((b :: bs).take 32))), b := some (toWord ((b :: bs).take 32).length) }
      :: putChunks k ((b :: bs).drop 32)

/-- `LOADBITS "s"` (R331). -/
def loadBits (s : Bits) : List Stmt := { instr := .ibufClr } :: putChunks s.length s

/-- The commands of `COMPRESS s` (R340); `flag` is the sentinel policy flag `s`. -/
def compressStmts (p : Params) (flag : Bool) : List Stmt :=
  [{ instr := .bytesToText }]
    ++ (if flag then [{ instr := .txtPut, a := some (toWord p.sentinel) }] else [])
    ++ [{ instr := .freqClr }, { instr := .freqCount }, { instr := .build }, { instr := .obufClr },
        { instr := .packTable }, { instr := .encText }, { instr := .packBytes }]

/-- The commands of `DECOMPRESS` (R341). -/
def decompressStmts : List Stmt :=
  [{ instr := .unpackBytes }, { instr := .unpackTable }, { instr := .trieBuild }, { instr := .decodeAll },
   { instr := .textToBytes }]

/-- `COMPRESS s` as host accesses (R340). -/
def compressAccesses (p : Params) (flag : Bool) : List HostOp := clrErr p :: checkedAccesses p (compressStmts p flag)

/-- `DECOMPRESS` as host accesses (R341). -/
def decompressAccesses (p : Params) : List HostOp := clrErr p :: checkedAccesses p decompressStmts

/-- The state in which a statement's command is issued: the operands given are written (R330, R213). -/
def Stmt.operandsIn (st : Stmt) (s : State) : State :=
  { s with opa := st.a.getD s.opa, opb := st.b.getD s.opb, opc := st.c.getD s.opc }

/-- The effect of one statement, from phase IDLE (R330). -/
def Stmt.run (st : Stmt) (s : State) : Result :=
  exec st.instr { st.operandsIn s with lastCmd := encode st.instr }

/-- The effect of a list of statements, each followed by a `CHECK`: it stops after the first command that ends with
an error (R331, R342). -/
def runChecked : List Stmt → State → Result
  | [], s => .next s
  | st :: sts, s =>
    match st.run s with
    | .next t => if t.errCode = 0 then runChecked sts t else .next t
    | .fault r => .fault r
    | .refused r => .refused r

/-- `COMPRESS s`, run command by command (R340). -/
def compress (flag : Bool) (s : State) : Result :=
  runChecked (compressStmts s.cfg flag) { s with errFirst := 0, overrun := false }

/-- `DECOMPRESS`, run command by command (R341). -/
def decompress (s : State) : Result := runChecked decompressStmts { s with errFirst := 0, overrun := false }

end Sys2Proof.Machine
end

