-- ==== Sys2Proof/Safety.lean ====
section
/-! DEFINITION. The terms claims are stated in: which pieces of state agree, the tables of R310, R1102 and R1111, how a
command succeeds or fails, the invariant of every reachable state (R150 to R158), the builder's merge runs (R702 to R704)
and the header of a code table (R810). -/

namespace Sys2Proof.Machine

/-- The pieces of state, one name per field of State. -/
inductive Field where
  | cfg | inReset | phase | lastCmd | errCode | errFirst | overrun | ctOor
  | opa | opb | opc | result | result2
  | obuf | ibuf | icur | txt | bytes | freq | ct | node
  | host | latency | busyLeft | rdata | draws
  deriving DecidableEq, Repr

/-- Two states hold the same value in a piece of state. -/
def Field.same (s t : State) : Field → Prop
  | .cfg => t.cfg = s.cfg
  | .inReset => t.inReset = s.inReset
  | .phase => t.phase = s.phase
  | .lastCmd => t.lastCmd = s.lastCmd
  | .errCode => t.errCode = s.errCode
  | .errFirst => t.errFirst = s.errFirst
  | .overrun => t.overrun = s.overrun
  | .ctOor => t.ctOor = s.ctOor
  | .opa => t.opa = s.opa
  | .opb => t.opb = s.opb
  | .opc => t.opc = s.opc
  | .result => t.result = s.result
  | .result2 => t.result2 = s.result2
  | .obuf => t.obuf = s.obuf
  | .ibuf => t.ibuf = s.ibuf
  | .icur => t.icur = s.icur
  | .txt => t.txt = s.txt
  | .bytes => t.bytes = s.bytes
  | .freq => t.freq = s.freq
  | .ct => t.ct = s.ct
  | .node => t.node = s.node
  | .host => t.host = s.host
  | .latency => t.latency = s.latency
  | .busyLeft => t.busyLeft = s.busyLeft
  | .rdata => t.rdata = s.rdata
  | .draws => t.draws = s.draws

/-- Every piece of state that is not listed holds the same value in both states: the frame of a claim. -/
def AgreeOutside (fs : List Field) (s t : State) : Prop := ∀ f : Field, f ∉ fs → Field.same s t f

/-- The command answers a next state in which it has succeeded (R400): ERR_CODE is 0, the sequencer is IDLE, nothing
changed but the listed pieces of state, ERR_CODE and the phase, and `P` holds of it. -/
def Succeeds (i : Instr) (s : State) (fs : List Field) (P : State → Prop) : Prop :=
  ∃ t, exec i s = .next t ∧ t.errCode = 0 ∧ t.phase = .idle ∧ AgreeOutside (fs ++ [.errCode, .phase]) s t ∧ P t

/-- The command answers a next state in which error `e` is recorded (R1110): ERR_CODE holds its code, ERR_FIRST too if
it was 0, the sequencer is IDLE, nothing else changed but the listed pieces of state, and `P` holds of it. -/
def FailsKeeping (i : Instr) (s : State) (e : ErrKind) (fs : List Field) (P : State → Prop) : Prop :=
  ∃ t, exec i s = .next t ∧ t.errCode = e.code ∧ t.errFirst = (if s.errFirst = 0 then e.code else s.errFirst)
    ∧ t.phase = .idle ∧ AgreeOutside (fs ++ [.errCode, .errFirst, .phase]) s t ∧ P t

/-- The command fails with `e` and, all or nothing, changes nothing but what R1110 names. -/
def FailsWith (i : Instr) (s : State) (e : ErrKind) : Prop := FailsKeeping i s e [] fun _ => True

/-- The `writes` column of R310: the pieces of state a successful command may change, ERR_CODE and the phase apart. -/
def writesOf : Instr → List Field
  | .nop => []
  | .clear => [.obuf, .ibuf, .icur, .txt, .bytes, .freq, .ct, .ctOor, .node, .result, .result2]
  | .obufClr => [.obuf]
  | .obufPut => [.obuf]
  | .obufGet => [.result]
  | .ibufClr => [.ibuf, .icur]
  | .ibufPut => [.ibuf]
  | .ibufGet => [.icur, .result]
  | .seek => [.icur]
  | .xfer => [.ibuf, .icur]
  | .byteClr => [.bytes]
  | .bytePut => [.bytes]
  | .byteGet => [.result]
  | .unaryEnc => [.obuf]
  | .unaryDec => [.icur, .result]
  | .gammaEnc => [.obuf]
  | .gammaDec => [.icur, .result]
  | .txtClr => [.txt]
  | .txtPut => [.txt]
  | .txtGet => [.result]
  | .bytesToText => [.txt, .result]
  | .textToBytes => [.bytes, .result, .result2]
  | .freqClr => [.freq]
  | .freqCount => [.freq, .result]
  | .freqSet => [.freq]
  | .freqGet => [.result]
  | .build => [.ct, .ctOor, .result, .result2]
  | .ctClr => [.ct, .ctOor]
  | .ctSet => [.ct]
  | .ctGet => [.result, .result2]
  | .packTable => [.obuf, .result]
  | .unpackTable => [.ct, .ctOor, .icur, .result, .result2]
  | .encLetter => [.obuf, .result]
  | .encText => [.obuf, .result]
  | .trieClr => [.node]
  | .trieInsert => [.node]
  | .trieBuild => [.node, .result]
  | .decodeOne => [.icur, .result, .result2]
  | .decodeAll => [.txt, .icur, .result]
  | .nodeGet => [.result, .result2]
  | .pad => [.obuf, .result]
  | .unpad => [.icur, .result]
  | .packBytes => [.bytes, .result]
  | .unpackBytes => [.ibuf, .icur, .result]

/-- The exceptions to all-or-nothing (R1111): what a failing command keeps. -/
def keptOnError : Instr → List Field
  | .unaryDec => [.icur]
  | .unpad => [.icur]
  | .unpackBytes => [.ibuf, .icur]
  | _ => []

/-- The error kinds a command can raise (R1102, read by command). -/
def raisesOf : Instr → List ErrKind
  | .nop => []
  | .clear => []
  | .obufClr => []
  | .obufPut => [.badOperand, .capacityExceeded]
  | .obufGet => [.badOperand]
  | .ibufClr => []
  | .ibufPut => [.badOperand, .capacityExceeded]
  | .ibufGet => [.badOperand, .truncatedCode]
  | .seek => [.badOperand]
  | .xfer => []
  | .byteClr => []
  | .bytePut => [.badOperand, .capacityExceeded]
  | .byteGet => [.badOperand]
  | .unaryEnc => [.capacityExceeded]
  | .unaryDec => [.truncatedCode]
  | .gammaEnc => [.badOperand, .capacityExceeded]
  | .gammaDec => [.truncatedCode, .capacityExceeded]
  | .txtClr => []
  | .txtPut => [.letterOutOfRange, .capacityExceeded]
  | .txtGet => [.badOperand]
  | .bytesToText => [.capacityExceeded]
  | .textToBytes => [.capacityExceeded]
  | .freqClr => []
  | .freqCount => [.capacityExceeded]
  | .freqSet => [.letterOutOfRange]
  | .freqGet => [.letterOutOfRange]
  | .build => [.capacityExceeded]
  | .ctClr => []
  | .ctSet => [.emptyCodeword, .letterOutOfRange, .capacityExceeded]
  | .ctGet => [.letterOutOfRange]
  | .packTable => [.letterOutOfRange, .capacityExceeded]
  | .unpackTable => [.truncatedCode, .truncatedHeader, .capacityExceeded]
  | .encLetter => [.letterOutOfRange, .unmappedLetter, .capacityExceeded]
  | .encText => [.unmappedLetter, .capacityExceeded]
  | .trieClr => []
  | .trieInsert => [.emptyCodeword, .letterOutOfRange, .prefixConflict, .capacityExceeded]
  | .trieBuild => [.prefixConflict, .letterOutOfRange, .capacityExceeded]
  | .decodeOne => [.decodeFailure]
  | .decodeAll => [.decodeFailure, .capacityExceeded]
  | .nodeGet => [.badOperand]
  | .pad => [.capacityExceeded]
  | .unpad => [.truncatedCode]
  | .packBytes => [.capacityExceeded]
  | .unpackBytes => [.truncatedCode]

/-- All slots of a node memory, node by node, `br0` before `br1`. -/
def allSlots (ns : List Node) : List Nat := ns.flatMap (fun n => [n.br0, n.br1])

/-- The trie invariants of R158 for a node memory, with R157's bound on NODES. -/
structure TrieInv (p : Params) (ns : List Node) : Prop where
  /-- `1 <= NODES <= NODE_CAP` (R157). -/
  rootExists : 1 ≤ ns.length
  fits : ns.length ≤ p.nodeCap
  /-- (a) and (c): every slot is EMPTY, a leaf value, or a child value below NODES. -/
  slots : ∀ v ∈ allSlots ns, v = p.emptySlot ∨ (p.mid < v ∧ v ≤ p.top) ∨ (1 ≤ v ∧ v < ns.length)
  /-- (b): every node but the root is the child of exactly one slot, in a node with a smaller index. -/
  parents : ∀ c, 1 ≤ c → c < ns.length → (allSlots ns).count c = 1 ∧ (allSlots (ns.take c)).count c = 1

/-- What holds of every reachable state. -/
structure State.Inv (s : State) : Prop where
  /-- The parameters are legal (R20). -/
  cfgLegal : s.cfg.legal = true
  /-- R150. -/
  obufFits : s.obuf.length ≤ s.cfg.bitCap
  /-- R151. -/
  ibufFits : s.ibuf.length ≤ s.cfg.bitCap
  /-- R152. -/
  cursor : s.icur ≤ s.ibuf.length
  /-- R153. -/
  txtFits : s.txt.length ≤ s.cfg.textCap
  txtLetters : ∀ l ∈ s.txt, l ≤ s.cfg.maxLetter
  /-- R154. -/
  bytesFit : s.bytes.length ≤ s.cfg.byteCap
  /-- FREQ and CT keep their canonical form (log 9). -/
  tables : Memory.wf s = true
  /-- R155. -/
  freqRange : ∀ e ∈ s.freq, e.1 ≤ s.cfg.maxLetter ∧ e.2 ≤ s.cfg.maxCount
  /-- R156. -/
  ctRange : ∀ e ∈ s.ct, e.1 ≤ s.cfg.maxLetter ∧ 1 ≤ e.2.length ∧ e.2.length ≤ s.cfg.maxCwLen
  /-- R157, R158. -/
  trie : TrieInv s.cfg s.node
  /-- In BUSY, LAST_CMD is the running word and the operand registers still hold what was sampled (R122, R1220). -/
  busyRecord : ∀ w a b c, s.phase = .busy w a b c → s.lastCmd = w ∧ s.opa = a ∧ s.opb = b ∧ s.opc = c
  /-- R1100: codes 11 to 255 are never produced. -/
  errCodes : s.errCode.toNat ≤ 10 ∧ s.errFirst.toNat ≤ 10
  /-- A reset abandons the command in progress (R1200). -/
  resetIdle : s.inReset = true → s.phase = .idle

/-- A run of the builder's merges, with `next` the next unused sequence number, from a queue of merge nodes to the table of
the node that is left. Each merge takes `x`, then `y`, the two least in the lexicographic order on (weight, sequence number);
`x`'s codewords get bit 0 in front, `y`'s get bit 1, the weights add and the new node gets the next number (R702 to R704,
R710). -/
inductive MergeRun : Nat → List MergeNode → List (Nat × Bits) → Prop where
  | last (next : Nat) (x : MergeNode) : MergeRun next [x] x.table
  | merge (next : Nat) (q rest : List MergeNode) (x y : MergeNode) (t : List (Nat × Bits)) :
      q.Perm (x :: y :: rest) →
      (x.weight < y.weight ∨ (x.weight = y.weight ∧ x.seq < y.seq)) →
      (∀ z ∈ rest, y.weight < z.weight ∨ (y.weight = z.weight ∧ y.seq < z.seq)) →
      MergeRun (next + 1)
        ({ weight := x.weight + y.weight
           seq := next
           table := x.table.map (fun e => (e.1, false :: e.2)) ++ y.table.map (fun e => (e.1, true :: e.2)) } :: rest) t →
      MergeRun next q t

/-- The loop of R810 over a list of entries: for each, the gamma code of the letter minus the one before (-1 before the
first), the gamma code of the codeword's length, and the codeword. -/
def headerBody (es : List (Nat × Bits)) : Bits :=
  (es.zip ((-1 : Int) :: es.map (fun e => (e.1 : Int)))).flatMap
    (fun x => gamma ((x.1.1 : Int) - x.2).toNat ++ gamma x.1.2.length ++ x.1.2)

/-- Entries a header can carry: letters strictly ascending, no empty codeword (R810, R820). -/
def HeaderEntries (es : List (Nat × Bits)) : Prop := keysRising es = true ∧ ∀ e ∈ es, e.2 ≠ []

/-- No whole gamma code stands at the front of the bits: the code there is cut off (R503). -/
def GammaCut (x : Bits) : Prop := ¬ ∃ n y, 1 ≤ n ∧ x = gamma n ++ y

/-- No codeword of the list is a prefix of another, duplicates included (R40, "prefix-free"). -/
def PrefixFree (cs : List Bits) : Prop := cs.Pairwise (fun c d => ¬ c <+: d ∧ ¬ d <+: c)

end Sys2Proof.Machine
end

