-- ==== Sys2Proof/Certificates/Slice0/Obligations.lean ====
section
/-! DEFINITION. The statements for the provers. Each docstring names the rule of spec/ it formalises. A statement about a
command opens with the CMD word its rule gives for it (`decode 0x... = .ok ...`). A conclusion
`Succeeds i s fs P` or `FailsKeeping i s e fs P` says that `exec i s` ANSWERS A NEXT STATE, and what holds of it. -/

open Sys2Proof Sys2Proof.Machine

/-! ### Control and host buffers -/

/-- NOP succeeds and changes nothing but ERR_CODE and the phase; OBUF_CLR, IBUF_CLR, BYTE_CLR, TXT_CLR, FREQ_CLR, CT_CLR
and TRIE_CLR empty their memory and nothing else (R410, R412, R415, R420, R602, R610, R800, R910). -/
def Obligations.NopAndTheClearCommands : Prop :=
  decode 0x00000000 = .ok .nop ∧ decode 0x00000002 = .ok .obufClr ∧ decode 0x00000005 = .ok .ibufClr ∧
  decode 0x0000000A = .ok .byteClr ∧ decode 0x00000020 = .ok .txtClr ∧ decode 0x00000028 = .ok .freqClr ∧
  decode 0x00000040 = .ok .ctClr ∧ decode 0x00000050 = .ok .trieClr ∧
  ∀ s : State,
    Succeeds .nop s [] (fun _ => True)
    ∧ Succeeds .obufClr s [.obuf] (fun t => t.obuf = [])
    ∧ Succeeds .ibufClr s [.ibuf, .icur] (fun t => t.ibuf = [] ∧ t.icur = 0)
    ∧ Succeeds .byteClr s [.bytes] (fun t => t.bytes = [])
    ∧ Succeeds .txtClr s [.txt] (fun t => t.txt = [])
    ∧ Succeeds .freqClr s [.freq] (fun t => ∀ l, countGet t.freq l = 0)
    ∧ Succeeds .ctClr s [.ct, .ctOor] (fun t => (∀ l, tableGet t.ct l = none) ∧ t.ctOor = false)
    ∧ Succeeds .trieClr s [.node] (fun t =>
        t.node = [{ br0 := 2 ^ (s.cfg.branchW - 1), br1 := 2 ^ (s.cfg.branchW - 1) }])

/-- CLEAR sets the datapath state to its reset values and keeps OPA, OPB, OPC, ERR_FIRST, OVERRUN and LAST_CMD
(R411, R171). -/
def Obligations.ClearResetsTheDatapath : Prop :=
  decode 0x00000001 = .ok .clear ∧
  ∀ s : State,
    Succeeds .clear s [.obuf, .ibuf, .icur, .txt, .bytes, .freq, .ct, .ctOor, .node, .result, .result2] (fun t =>
      t.obuf = [] ∧ t.ibuf = [] ∧ t.icur = 0 ∧ t.txt = [] ∧ t.bytes = []
      ∧ (∀ l, countGet t.freq l = 0) ∧ (∀ l, tableGet t.ct l = none) ∧ t.ctCount = 0 ∧ t.ctOor = false
      ∧ t.node = [{ br0 := 2 ^ (s.cfg.branchW - 1), br1 := 2 ^ (s.cfg.branchW - 1) }]
      ∧ t.result = 0 ∧ t.result2 = 0)

/-- OBUF_PUT and IBUF_PUT append the `n` low-order bits of OPA, bit `n-1` first; `n > 32` is BadOperand; a buffer that
would exceed BIT_CAP is CapacityExceeded (R413, R416). -/
def Obligations.BitPutsAppendLowBitsHighestFirst : Prop :=
  decode 0x00000003 = .ok .obufPut ∧ decode 0x00000006 = .ok .ibufPut ∧
  ∀ s : State,
    (32 < s.argB.toNat → FailsWith .obufPut s .badOperand ∧ FailsWith .ibufPut s .badOperand)
    ∧ (s.argB.toNat ≤ 32 → s.cfg.bitCap < s.obuf.length + s.argB.toNat → FailsWith .obufPut s .capacityExceeded)
    ∧ (s.argB.toNat ≤ 32 → s.obuf.length + s.argB.toNat ≤ s.cfg.bitCap →
        Succeeds .obufPut s [.obuf] (fun t => ∃ x : Bits, t.obuf = s.obuf ++ x ∧ x.length = s.argB.toNat
          ∧ ∀ i < s.argB.toNat, x[i]? = some (s.argA.getLsbD (s.argB.toNat - 1 - i))))
    ∧ (s.argB.toNat ≤ 32 → s.cfg.bitCap < s.ibuf.length + s.argB.toNat → FailsWith .ibufPut s .capacityExceeded)
    ∧ (s.argB.toNat ≤ 32 → s.ibuf.length + s.argB.toNat ≤ s.cfg.bitCap →
        Succeeds .ibufPut s [.ibuf] (fun t => ∃ x : Bits, t.ibuf = s.ibuf ++ x ∧ x.length = s.argB.toNat
          ∧ ∀ i < s.argB.toNat, x[i]? = some (s.argA.getLsbD (s.argB.toNat - 1 - i))))

/-- OBUF_GET: the first bit read is the highest of the `n` result bits, the rest of RESULT is 0; the range is computed
exactly (R414). -/
def Obligations.ObufGetReadsMsbFirst : Prop :=
  decode 0x00000004 = .ok .obufGet ∧
  ∀ s : State,
    (32 < s.argB.toNat → FailsWith .obufGet s .badOperand)
    ∧ (s.argB.toNat ≤ 32 → s.obuf.length < s.argA.toNat + s.argB.toNat → FailsWith .obufGet s .badOperand)
    ∧ (s.argB.toNat ≤ 32 → s.argA.toNat + s.argB.toNat ≤ s.obuf.length →
        Succeeds .obufGet s [.result] (fun t => ∀ i, t.result.getLsbD i =
          (decide (i < s.argB.toNat) && s.obuf.getD (s.argA.toNat + (s.argB.toNat - 1 - i)) false)))

/-- IBUF_GET reads `n` bits at the cursor and advances it; SEEK sets the cursor to a legal position; XFER copies OBUF
into IBUF and sets the cursor to 0 (R417, R418, R419). -/
def Obligations.CursorCommands : Prop :=
  decode 0x00000007 = .ok .ibufGet ∧ decode 0x00000008 = .ok .seek ∧ decode 0x00000009 = .ok .xfer ∧
  ∀ s : State,
    (32 < s.argA.toNat → FailsWith .ibufGet s .badOperand)
    ∧ (s.argA.toNat ≤ 32 → s.ibuf.length - s.icur < s.argA.toNat → FailsWith .ibufGet s .truncatedCode)
    ∧ (s.argA.toNat ≤ 32 → s.argA.toNat ≤ s.ibuf.length - s.icur →
        Succeeds .ibufGet s [.icur, .result] (fun t => t.icur = s.icur + s.argA.toNat
          ∧ ∀ i, t.result.getLsbD i =
            (decide (i < s.argA.toNat) && s.ibuf.getD (s.icur + (s.argA.toNat - 1 - i)) false)))
    ∧ (s.ibuf.length < s.argA.toNat → FailsWith .seek s .badOperand)
    ∧ (s.argA.toNat ≤ s.ibuf.length → Succeeds .seek s [.icur] (fun t => t.icur = s.argA.toNat))
    ∧ Succeeds .xfer s [.ibuf, .icur] (fun t => t.ibuf = s.obuf ∧ t.icur = 0)

/-- BYTE_PUT appends one byte, TXT_PUT one letter; the operand is checked before the capacity (R421, R603). -/
def Obligations.BytePutAndTxtPutAppendOneItem : Prop :=
  decode 0x0000000B = .ok .bytePut ∧ decode 0x00000021 = .ok .txtPut ∧
  ∀ s : State,
    (255 < s.argA.toNat → FailsWith .bytePut s .badOperand)
    ∧ (s.argA.toNat ≤ 255 → s.bytes.length = s.cfg.bitCap / 8 → FailsWith .bytePut s .capacityExceeded)
    ∧ (s.argA.toNat ≤ 255 → s.bytes.length < s.cfg.bitCap / 8 →
        Succeeds .bytePut s [.bytes] (fun t => ∃ b : Byte, b.toNat = s.argA.toNat ∧ t.bytes = s.bytes ++ [b]))
    ∧ (2 ^ (s.cfg.branchW - 1) - 2 < s.argA.toNat → FailsWith .txtPut s .letterOutOfRange)
    ∧ (s.argA.toNat ≤ 2 ^ (s.cfg.branchW - 1) - 2 → s.txt.length = s.cfg.textCap →
        FailsWith .txtPut s .capacityExceeded)
    ∧ (s.argA.toNat ≤ 2 ^ (s.cfg.branchW - 1) - 2 → s.txt.length < s.cfg.textCap →
        Succeeds .txtPut s [.txt] (fun t => t.txt = s.txt ++ [s.argA.toNat]))

/-- BYTE_GET, TXT_GET and NODE_GET read the addressed item into RESULT (NODE_GET: both slots, raw), and raise BadOperand
at or past the current length (R422, R604, R940). -/
def Obligations.IndexedReads : Prop :=
  decode 0x0000000C = .ok .byteGet ∧ decode 0x00000022 = .ok .txtGet ∧ decode 0x00000055 = .ok .nodeGet ∧
  ∀ s : State,
    (s.bytes.length ≤ s.argA.toNat → FailsWith .byteGet s .badOperand)
    ∧ (∀ b, s.bytes[s.argA.toNat]? = some b → Succeeds .byteGet s [.result] (fun t => t.result.toNat = b.toNat))
    ∧ (s.txt.length ≤ s.argA.toNat → FailsWith .txtGet s .badOperand)
    ∧ (∀ l, s.txt[s.argA.toNat]? = some l → Succeeds .txtGet s [.result] (fun t => t.result = BitVec.ofNat 32 l))
    ∧ (s.node.length ≤ s.argA.toNat → FailsWith .nodeGet s .badOperand)
    ∧ (∀ n, s.node[s.argA.toNat]? = some n → Succeeds .nodeGet s [.result, .result2] (fun t =>
        t.result = BitVec.ofNat 32 n.br0 ∧ t.result2 = BitVec.ofNat 32 n.br1))

/-! ### Universal integer codec and packer -/

/-- UNARY_ENC appends `n` ones and a zero; GAMMA_ENC of `n >= 1`, whose bit length is `k`, appends `k-1` zeros and the
`k` bits of `n`, highest first; 0 is BadOperand; no room is CapacityExceeded (R510, R512). -/
def Obligations.UnaryEncAndGammaEncAppendTheCode : Prop :=
  decode 0x00000010 = .ok .unaryEnc ∧ decode 0x00000012 = .ok .gammaEnc ∧
  ∀ s : State,
    (s.cfg.bitCap < s.obuf.length + s.argA.toNat + 1 → FailsWith .unaryEnc s .capacityExceeded)
    ∧ (s.obuf.length + s.argA.toNat + 1 ≤ s.cfg.bitCap →
        Succeeds .unaryEnc s [.obuf] (fun t => t.obuf = s.obuf ++ (List.replicate s.argA.toNat true ++ [false])))
    ∧ (s.argA.toNat = 0 → FailsWith .gammaEnc s .badOperand)
    ∧ ∀ k, 1 ≤ k → 2 ^ (k - 1) ≤ s.argA.toNat → s.argA.toNat < 2 ^ k →
        (s.cfg.bitCap < s.obuf.length + (2 * k - 1) → FailsWith .gammaEnc s .capacityExceeded)
        ∧ (s.obuf.length + (2 * k - 1) ≤ s.cfg.bitCap →
            Succeeds .gammaEnc s [.obuf] (fun t => ∃ x : Bits, t.obuf = s.obuf ++ (List.replicate (k - 1) false ++ x)
              ∧ x.length = k ∧ ∀ i < k, x[i]? = some (s.argA.getLsbD (k - 1 - i))))

/-- UNARY_DEC and UNPAD: `n` ones and a zero at the cursor give RESULT = n and a cursor past the zero (and `n` always
fits RESULT); ones to the end of IBUF give TruncatedCode with the cursor at the end (R511, R1011). -/
def Obligations.UnaryDecAndUnpadReadAtTheCursor : Prop :=
  decode 0x00000011 = .ok .unaryDec ∧ decode 0x00000061 = .ok .unpad ∧
  ∀ s : State,
    (∀ n rest, s.ibuf.drop s.icur = List.replicate n true ++ false :: rest →
      Succeeds .unaryDec s [.icur, .result] (fun t =>
        t.result = BitVec.ofNat 32 n ∧ (s.Inv → t.result.toNat = n) ∧ t.icur = s.icur + n + 1)
      ∧ Succeeds .unpad s [.icur, .result] (fun t => t.result = BitVec.ofNat 32 n ∧ t.icur = s.icur + n + 1))
    ∧ (∀ n, s.ibuf.drop s.icur = List.replicate n true →
      FailsKeeping .unaryDec s .truncatedCode [.icur] (fun t => t.icur = s.ibuf.length)
      ∧ FailsKeeping .unpad s .truncatedCode [.icur] (fun t => t.icur = s.ibuf.length))

/-- GAMMA_DEC: `z` zeros, a one and `z` more bits at the cursor are a value of `k = z + 1` bits; up to 32 bits it goes to
RESULT and the cursor past it, more is CapacityExceeded; too few bits after the zero run is TruncatedCode; a failure
leaves the cursor (R513). -/
def Obligations.GammaDecReadsAtTheCursor : Prop :=
  decode 0x00000013 = .ok .gammaDec ∧
  ∀ s : State,
    (∀ z x rest, s.ibuf.drop s.icur = List.replicate z false ++ (true :: x ++ rest) → x.length = z →
      (z + 1 ≤ 32 → Succeeds .gammaDec s [.icur, .result] (fun t => t.icur = s.icur + (2 * z + 1)
        ∧ ∀ i, t.result.getLsbD i = (decide (i ≤ z) && (true :: x).getD (z - i) false)))
      ∧ (32 < z + 1 → FailsWith .gammaDec s .capacityExceeded))
    ∧ (∀ z, s.ibuf.drop s.icur = List.replicate z false → FailsWith .gammaDec s .truncatedCode)
    ∧ (∀ z x, s.ibuf.drop s.icur = List.replicate z false ++ true :: x → x.length < z →
        FailsWith .gammaDec s .truncatedCode)

/-- Both codes are self-delimiting: a reader that meets the code of `n`, whatever comes before and after, reads `n` and
stops right after the code (R504). -/
def Obligations.UniversalCodesAreSelfDelimiting : Prop :=
  (∀ (q t : Bits) (n : Nat), unaryRead (q ++ unary n ++ t) q.length = some (n, q.length + n + 1))
  ∧ (∀ (q t : Bits) (n : Nat), 1 ≤ n →
      gammaRead (q ++ gamma n ++ t) q.length = some (n, bitLen n, q.length + 2 * bitLen n - 1))

/-- PAD puts `r = 8 - |OBUF| mod 8` bits, `r - 1` ones and a zero, in front of OBUF; PACK_BYTES groups the padded bits
into BYTES, most significant bit first, and leaves OBUF. In a state that meets the invariant both fail exactly when
`|OBUF| = BIT_CAP`, with CapacityExceeded (R1010, R1012). -/
def Obligations.PadAndPackBytes : Prop :=
  decode 0x00000060 = .ok .pad ∧ decode 0x00000062 = .ok .packBytes ∧
  ∀ s : State, s.Inv →
    (s.obuf.length = s.cfg.bitCap → FailsWith .pad s .capacityExceeded ∧ FailsWith .packBytes s .capacityExceeded)
    ∧ (s.obuf.length ≠ s.cfg.bitCap →
        Succeeds .pad s [.obuf, .result] (fun t =>
          t.obuf = List.replicate (8 - s.obuf.length % 8 - 1) true ++ [false] ++ s.obuf
          ∧ t.result.toNat = 8 - s.obuf.length % 8)
        ∧ Succeeds .packBytes s [.bytes, .result] (fun t =>
          8 * t.bytes.length = s.obuf.length + (8 - s.obuf.length % 8)
          ∧ (∀ i < t.bytes.length, ∀ j < 8, (t.bytes.getD i 0).getLsbD (7 - j) =
              (List.replicate (8 - s.obuf.length % 8 - 1) true ++ [false] ++ s.obuf).getD (8 * i + j) false)
          ∧ t.result.toNat = t.bytes.length))

/-- UNPACK_BYTES: IBUF becomes the bits of BYTES, most significant first; the marker at its front is skipped; if there is
no zero bit the expanded bits are kept and the cursor is at the end (R1013). -/
def Obligations.UnpackBytesExpandsAndSkipsTheMarker : Prop :=
  decode 0x00000063 = .ok .unpackBytes ∧
  ∀ s : State,
    (∀ n rest, expandBytes s.bytes = List.replicate n true ++ false :: rest →
      Succeeds .unpackBytes s [.ibuf, .icur, .result] (fun t => t.ibuf.length = 8 * s.bytes.length
        ∧ (∀ i < s.bytes.length, ∀ j < 8, t.ibuf.getD (8 * i + j) false = (s.bytes.getD i 0).getLsbD (7 - j))
        ∧ t.icur = n + 1 ∧ t.result = BitVec.ofNat 32 n))
    ∧ (∀ n, expandBytes s.bytes = List.replicate n true →
      FailsKeeping .unpackBytes s .truncatedCode [.ibuf, .icur] (fun t => t.ibuf = expandBytes s.bytes
        ∧ t.ibuf.length = 8 * s.bytes.length ∧ t.icur = 8 * s.bytes.length))

/-- Padding: the padded length is a multiple of 8 and `r` longer, and reading the marker gives back `r - 1` and leaves
exactly the sequence (R1001, R1003). -/
def Obligations.UnpadOfPadGivesTheSequenceBack : Prop :=
  ∀ x : Bits,
    (padBits x).length = x.length + (8 - x.length % 8) ∧ (padBits x).length % 8 = 0
    ∧ unaryRead (padBits x) 0 = some (8 - x.length % 8 - 1, 8 - x.length % 8)
    ∧ (padBits x).drop (8 - x.length % 8) = x

/-- The byte conversions: `Group` makes one byte of each 8 bits, bit `8*i + j` being bit `7 - j` of byte `i`; `Expand`
undoes it; and `Group` undoes `Expand` (R205, R1002). -/
def Obligations.ByteConversionsAreMsbFirstInverses : Prop :=
  (∀ x : Bits, x.length % 8 = 0 → 8 * (groupBytes x).length = x.length ∧ expandBytes (groupBytes x) = x
    ∧ ∀ i < (groupBytes x).length, ((groupBytes x).getD i 0).toNat = bitsVal (slice x (8 * i) (8 * i + 8))
      ∧ ∀ j < 8, x.getD (8 * i + j) false = ((groupBytes x).getD i 0).getLsbD (7 - j))
  ∧ (∀ bs : List Byte, groupBytes (expandBytes bs) = bs)

/-! ### Alphabet, text and frequency -/

/-- BYTES_TO_TEXT maps each byte to its letter; TEXT_TO_BYTES maps each letter up to 255 to its byte and drops the
others, counting both (R605, R606). -/
def Obligations.BytesAndTextConversions : Prop :=
  decode 0x00000023 = .ok .bytesToText ∧ decode 0x00000024 = .ok .textToBytes ∧
  ∀ s : State,
    (s.cfg.textCap < s.bytes.length → FailsWith .bytesToText s .capacityExceeded)
    ∧ (s.bytes.length ≤ s.cfg.textCap → Succeeds .bytesToText s [.txt, .result] (fun t =>
        t.txt = s.bytes.map BitVec.toNat ∧ t.result = BitVec.ofNat 32 s.bytes.length))
    ∧ (s.cfg.bitCap / 8 < (s.txt.filter (· ≤ 255)).length → FailsWith .textToBytes s .capacityExceeded)
    ∧ ((s.txt.filter (· ≤ 255)).length ≤ s.cfg.bitCap / 8 →
        Succeeds .textToBytes s [.bytes, .result, .result2] (fun t =>
          t.bytes.map BitVec.toNat = s.txt.filter (· ≤ 255)
          ∧ t.result = BitVec.ofNat 32 (s.txt.filter (· ≤ 255)).length
          ∧ t.result2 = BitVec.ofNat 32 (s.txt.filter (255 < ·)).length))

/-- FREQ_SET sets one count and no other; FREQ_GET reads one; a letter above MAX_LETTER is LetterOutOfRange (R612,
R613). -/
def Obligations.FreqSetAndGetOneCount : Prop :=
  decode 0x0000002A = .ok .freqSet ∧ decode 0x0000002B = .ok .freqGet ∧
  ∀ s : State, Memory.wf s = true →
    (2 ^ (s.cfg.branchW - 1) - 2 < s.argA.toNat →
      FailsWith .freqSet s .letterOutOfRange ∧ FailsWith .freqGet s .letterOutOfRange)
    ∧ (s.argA.toNat ≤ 2 ^ (s.cfg.branchW - 1) - 2 →
        Succeeds .freqSet s [.freq] (fun t => countGet t.freq s.argA.toNat = s.argB.toNat
          ∧ ∀ l, l ≠ s.argA.toNat → countGet t.freq l = countGet s.freq l)
        ∧ Succeeds .freqGet s [.result] (fun t => t.result = BitVec.ofNat 32 (countGet s.freq s.argA.toNat)))

/-- FREQ_COUNT adds to each count the number of times its letter stands in TXT, in exact arithmetic; a count over
`2^COUNT_W - 1` is CapacityExceeded; RESULT is the number of letters with a non-zero count (R611). -/
def Obligations.FreqCountAddsTheOccurrences : Prop :=
  decode 0x00000029 = .ok .freqCount ∧
  ∀ s : State, Memory.wf s = true →
    ((∃ l, 2 ^ s.cfg.countW - 1 < countGet s.freq l + s.txt.count l) → FailsWith .freqCount s .capacityExceeded)
    ∧ ((∀ l, countGet s.freq l + s.txt.count l ≤ 2 ^ s.cfg.countW - 1) →
        Succeeds .freqCount s [.freq, .result] (fun t =>
          (∀ l, countGet t.freq l = countGet s.freq l + s.txt.count l)
          ∧ ∃ letters : List Nat, letters.Nodup ∧ (∀ l, l ∈ letters ↔ 0 < countGet t.freq l)
            ∧ t.result = BitVec.ofNat 32 letters.length))

/-! ### Tree builder -/

/-- BUILD stores the Huffman table of FREQ: every entry and no other; RESULT is the number of entries and RESULT2 the
longest length; a codeword over MAX_CW_LEN is CapacityExceeded and leaves CT and CT_OOR (R720). -/
def Obligations.BuildStoresTheHuffmanTable : Prop :=
  decode 0x00000030 = .ok .build ∧
  ∀ s : State, Memory.wf s = true →
    ((∃ e ∈ huffman s.freq, s.cfg.maxCwLen < e.2.length) → FailsWith .build s .capacityExceeded)
    ∧ ((∀ e ∈ huffman s.freq, e.2.length ≤ s.cfg.maxCwLen) →
        Succeeds .build s [.ct, .ctOor, .result, .result2] (fun t => t.ctOor = false
          ∧ (∀ l c, tableGet t.ct l = some c ↔ (l, c) ∈ huffman s.freq)
          ∧ t.result = BitVec.ofNat 32 (huffman s.freq).length
          ∧ ∃ m, t.result2 = BitVec.ofNat 32 m ∧ (∀ e ∈ huffman s.freq, e.2.length ≤ m)
            ∧ (m = 0 ∨ ∃ e ∈ huffman s.freq, e.2.length = m)))

/-- The builder is the merge run of the spec: with the participating letters `ps` in ascending order, no letter gives the
empty table, one letter its one-bit codeword, and for `n >= 2` letters the seeds, numbered 0, 1, ... in that order, lead by
a merge run with the numbers from `n` on to the table of `Huffman(F)`. In a merge run (`MergeRun`) each merge takes the two
nodes least by (weight, sequence number), the first removed gets bit 0 and the second bit 1, the weights add and the new
node gets the next number. The selection `takeMin` takes a least element of the queue and leaves the others
(R700 to R704, R710). -/
def Obligations.SelectionTakesTheLeastWeightThenSequence : Prop :=
  (∀ (f : Table Nat) (ps : List (Nat × Nat)), keysRising f = true → keysRising ps = true →
    (∀ l c, (l, c) ∈ ps ↔ 0 < c ∧ countGet f l = c) →
    (ps = [] → huffman f = [])
    ∧ (∀ l c, ps = [(l, c)] → huffman f = [(l, [false])])
    ∧ (2 ≤ ps.length → MergeRun ps.length
        (ps.zipIdx.map (fun x => { weight := x.1.2, seq := x.2, table := [(x.1.1, [])] })) (huffman f)))
  ∧ ∀ q : List MergeNode,
    (takeMin q = none ↔ q = [])
    ∧ ∀ m q', takeMin q = some (m, q') → q.Perm (m :: q')
        ∧ ∀ y ∈ q', m.weight < y.weight ∨ (m.weight = y.weight ∧ m.seq ≤ y.seq)

/-- The builder's output guarantee: one entry for each letter with a non-zero count and no other, every codeword
non-empty, the table prefix-free; for `n >= 2` letters the codewords are the leaves of a full binary tree (the branch
beside each branch of a codeword leads to a codeword too), their lengths meet the Kraft equality and are at most `n - 1`;
for one letter the table is its one-bit codeword (R705, R706, R707, R709). -/
def Obligations.HuffmanTableIsCompleteAndPrefixFree : Prop :=
  ∀ f : Table Nat, keysRising f = true →
    ((huffman f).map Prod.fst).Perm ((f.filter (fun e => 0 < e.2)).map Prod.fst)
    ∧ (∀ e ∈ huffman f, e.2 ≠ [])
    ∧ PrefixFree ((huffman f).map Prod.snd)
    ∧ (2 ≤ (huffman f).length →
        (∀ e ∈ huffman f, ∀ (x : Bits) (b : Bool), x ++ [b] <+: e.2 → ∃ d ∈ huffman f, x ++ [!b] <+: d.2)
        ∧ (∀ e ∈ huffman f, e.2.length ≤ (huffman f).length - 1)
        ∧ ((huffman f).map (fun e => 2 ^ ((huffman f).length - e.2.length))).sum = 2 ^ (huffman f).length)
    ∧ ((huffman f).length = 1 → ∃ l, huffman f = [(l, [false])])

/-! ### Code table -/

/-- CT_SET gives a letter the `L` low-order bits of OPC as its codeword, highest first, and changes no other entry; the
checks stand in the order EmptyCodeword, LetterOutOfRange, CapacityExceeded. CT_GET reads an entry; an invalid one reads
0 and 0 (R801, R802). -/
def Obligations.CtSetAndCtGetOneEntry : Prop :=
  decode 0x00000041 = .ok .ctSet ∧ decode 0x00000042 = .ok .ctGet ∧
  ∀ s : State,
    (s.argB.toNat = 0 → FailsWith .ctSet s .emptyCodeword)
    ∧ (s.argB.toNat ≠ 0 → 2 ^ (s.cfg.branchW - 1) - 2 < s.argA.toNat → FailsWith .ctSet s .letterOutOfRange)
    ∧ (s.argB.toNat ≠ 0 → s.argA.toNat ≤ 2 ^ (s.cfg.branchW - 1) - 2 → s.cfg.maxCwLen < s.argB.toNat →
        FailsWith .ctSet s .capacityExceeded)
    ∧ (s.argB.toNat ≠ 0 → s.argA.toNat ≤ 2 ^ (s.cfg.branchW - 1) - 2 → s.argB.toNat ≤ s.cfg.maxCwLen →
        Succeeds .ctSet s [.ct] (fun t =>
          (∃ x : Bits, tableGet t.ct s.argA.toNat = some x ∧ x.length = s.argB.toNat
            ∧ ∀ i < s.argB.toNat, x[i]? = some (s.argC.getLsbD (s.argB.toNat - 1 - i)))
          ∧ ∀ l, l ≠ s.argA.toNat → tableGet t.ct l = tableGet s.ct l))
    ∧ (2 ^ (s.cfg.branchW - 1) - 2 < s.argA.toNat → FailsWith .ctGet s .letterOutOfRange)
    ∧ (s.argA.toNat ≤ 2 ^ (s.cfg.branchW - 1) - 2 → tableGet s.ct s.argA.toNat = none →
        Succeeds .ctGet s [.result, .result2] (fun t => t.result = 0 ∧ t.result2 = 0))
    ∧ (∀ c, s.argA.toNat ≤ 2 ^ (s.cfg.branchW - 1) - 2 → tableGet s.ct s.argA.toNat = some c →
        Succeeds .ctGet s [.result, .result2] (fun t => t.result2 = BitVec.ofNat 32 c.length
          ∧ ∀ i < 32, t.result.getLsbD i = (decide (i < c.length) && c.getD (c.length - 1 - i) false)))

/-- PACK_TABLE appends the header of CT to OBUF and counts its bits; CT_OOR set is LetterOutOfRange, before capacity. The
header is the gamma code of the number of entries and 1, then for each entry in ascending letter order the gamma code of the
difference to the letter before (to -1 for the first), the gamma code of the codeword's length and the codeword
(`headerBody`); CT's list is its valid letters in ascending order with their codewords (R810, R811). -/
def Obligations.PackTableAppendsTheHeader : Prop :=
  decode 0x00000043 = .ok .packTable ∧
  ∀ s : State,
    (s.ctOor = true → FailsWith .packTable s .letterOutOfRange)
    ∧ (s.ctOor = false → s.cfg.bitCap < s.obuf.length + (packTable s.ct).length →
        FailsWith .packTable s .capacityExceeded)
    ∧ (s.ctOor = false → s.obuf.length + (packTable s.ct).length ≤ s.cfg.bitCap →
        Succeeds .packTable s [.obuf, .result] (fun t => t.obuf = s.obuf ++ packTable s.ct
          ∧ t.result = BitVec.ofNat 32 (packTable s.ct).length))
    ∧ packTable s.ct = gamma (s.ct.length + 1) ++ headerBody s.ct
    ∧ (Memory.wf s = true → (s.ct.map Prod.fst).Pairwise (· < ·) ∧ ∀ l c, (l, c) ∈ s.ct ↔ tableGet s.ct l = some c)

/-- UNPACK_TABLE: a header that does not parse raises the parser's kind; a storable codeword over MAX_CW_LEN is
CapacityExceeded; else CT holds exactly the storable entries, CT_OOR says whether some entry was not storable, RESULT is
the number of bits, RESULT2 the number of entries and the cursor stands after the header. The parser succeeds exactly where
a header of R810 stands; it answers TruncatedCode exactly when the gamma code of the count is cut off, and TruncatedHeader
exactly when, after the count and fewer entries than it declares, the gamma code of a delta or of a length is cut off or
fewer bits are left than the length says; there is no other answer (R820, R830). -/
def Obligations.UnpackTableReplacesTheCodeTable : Prop :=
  decode 0x00000044 = .ok .unpackTable ∧
  ∀ s : State,
    (∀ e, unpackTable s.ibuf s.icur = .error e → FailsWith .unpackTable s e)
    ∧ (∀ es next, unpackTable s.ibuf s.icur = .ok (es, next) →
        ((∃ e ∈ es, e.1 ≤ 2 ^ (s.cfg.branchW - 1) - 2 ∧ s.cfg.maxCwLen < e.2.length) →
          FailsWith .unpackTable s .capacityExceeded)
        ∧ ((∀ e ∈ es, e.1 ≤ 2 ^ (s.cfg.branchW - 1) - 2 → e.2.length ≤ s.cfg.maxCwLen) →
          Succeeds .unpackTable s [.ct, .ctOor, .icur, .result, .result2] (fun t =>
            (∀ l c, tableGet t.ct l = some c ↔ (l, c) ∈ es ∧ l ≤ 2 ^ (s.cfg.branchW - 1) - 2)
            ∧ (t.ctOor = true ↔ ∃ e ∈ es, 2 ^ (s.cfg.branchW - 1) - 2 < e.1)
            ∧ t.icur = next ∧ t.result = BitVec.ofNat 32 (next - s.icur)
            ∧ t.result2 = BitVec.ofNat 32 es.length)))
    ∧ (∀ es next, unpackTable s.ibuf s.icur = .ok (es, next) ↔
        HeaderEntries es ∧ ∃ x, s.ibuf.drop s.icur = gamma (es.length + 1) ++ headerBody es ++ x
          ∧ next = s.icur + (gamma (es.length + 1) ++ headerBody es).length)
    ∧ (unpackTable s.ibuf s.icur = .error .truncatedCode ↔ GammaCut (s.ibuf.drop s.icur))
    ∧ (unpackTable s.ibuf s.icur = .error .truncatedHeader ↔
        ∃ n es x, es.length < n ∧ HeaderEntries es
          ∧ s.ibuf.drop s.icur = gamma (n + 1) ++ headerBody es ++ x
          ∧ (GammaCut x
            ∨ (∃ d y, 1 ≤ d ∧ x = gamma d ++ y ∧ GammaCut y)
            ∨ ∃ d len y, 1 ≤ d ∧ 1 ≤ len ∧ x = gamma d ++ gamma len ++ y ∧ y.length < len))
    ∧ (∀ e, unpackTable s.ibuf s.icur = .error e → e = .truncatedCode ∨ e = .truncatedHeader)

/-- The header round trip: whatever stands before and after a packed table of non-empty codewords, `UnpackTable` at its
start gives its entries back in ascending order and stops right after it (R821). -/
def Obligations.UnpackOfPackGivesTheTableBack : Prop :=
  ∀ (t : Table Bits) (q x : Bits), keysRising t = true → (∀ e ∈ t, e.2 ≠ []) →
    unpackTable (q ++ packTable t ++ x) q.length = .ok (t, q.length + (packTable t).length)

/-- ENC_LETTER appends a letter's codeword; ENC_TEXT appends the codewords of TXT's letters in order; a letter with no
entry is UnmappedLetter, checked before capacity (R840, R841). -/
def Obligations.EncLetterAndEncTextAppendCodewords : Prop :=
  decode 0x00000045 = .ok .encLetter ∧ decode 0x00000046 = .ok .encText ∧
  ∀ s : State,
    (2 ^ (s.cfg.branchW - 1) - 2 < s.argA.toNat → FailsWith .encLetter s .letterOutOfRange)
    ∧ (s.argA.toNat ≤ 2 ^ (s.cfg.branchW - 1) - 2 → tableGet s.ct s.argA.toNat = none →
        FailsWith .encLetter s .unmappedLetter)
    ∧ (∀ c, s.argA.toNat ≤ 2 ^ (s.cfg.branchW - 1) - 2 → tableGet s.ct s.argA.toNat = some c →
        (s.cfg.bitCap < s.obuf.length + c.length → FailsWith .encLetter s .capacityExceeded)
        ∧ (s.obuf.length + c.length ≤ s.cfg.bitCap → Succeeds .encLetter s [.obuf, .result] (fun t =>
            t.obuf = s.obuf ++ c ∧ t.result = BitVec.ofNat 32 c.length)))
    ∧ ((∃ l ∈ s.txt, tableGet s.ct l = none) → FailsWith .encText s .unmappedLetter)
    ∧ (∀ cs : List Bits, s.txt.map (tableGet s.ct) = cs.map some →
        (s.cfg.bitCap < s.obuf.length + cs.flatten.length → FailsWith .encText s .capacityExceeded)
        ∧ (s.obuf.length + cs.flatten.length ≤ s.cfg.bitCap → Succeeds .encText s [.obuf, .result] (fun t =>
            t.obuf = s.obuf ++ cs.flatten ∧ t.result = BitVec.ofNat 32 cs.flatten.length)))

/-! ### Trie decoder -/

/-- The slot format: 0 is reserved; `Slot(Enc(x)) = x` for a child index 1 .. MID-1, for empty and for a leaf letter
0 .. MAX_LETTER, with the values of R900; `Slot(v)` by the table of R900; and every value is what its decoded view
encodes to. For 0 and for values above TOP, which R901 gives no `Enc`, the last clause is the model's choice (R900, R901;
log 20). -/
def Obligations.SlotDecodingInvertsEncoding : Prop :=
  ∀ p : Params, p.legal = true →
    (∀ m, 1 ≤ m → m < 2 ^ (p.branchW - 1) → encSlot p (.child m) = m ∧ slotOf p (encSlot p (.child m)) = .child m)
    ∧ (encSlot p .empty = 2 ^ (p.branchW - 1) ∧ slotOf p (encSlot p .empty) = .empty)
    ∧ (∀ l, l ≤ 2 ^ (p.branchW - 1) - 2 → encSlot p (.leaf l) = 2 ^ p.branchW - 1 - l
        ∧ slotOf p (encSlot p (.leaf l)) = .leaf l)
    ∧ slotOf p 0 = .reserved 0
    ∧ (∀ v, 2 ^ (p.branchW - 1) < v → v ≤ 2 ^ p.branchW - 1 → slotOf p v = .leaf (2 ^ p.branchW - 1 - v))
    ∧ (∀ v, encSlot p (slotOf p v) = v)

/-- TRIE_INSERT: the operand checks stand first, in order; then the walk's error; then NODE_CAP; on success the node
memory holds the trie with the codeword inserted (R913). -/
def Obligations.TrieInsertStoresTheNewTrie : Prop :=
  decode 0x00000051 = .ok .trieInsert ∧
  ∀ s : State, s.Inv →
    (s.argB.toNat = 0 → FailsWith .trieInsert s .emptyCodeword)
    ∧ (s.argB.toNat ≠ 0 → s.cfg.maxLetter < s.argA.toNat → FailsWith .trieInsert s .letterOutOfRange)
    ∧ (s.argB.toNat ≠ 0 → s.argA.toNat ≤ s.cfg.maxLetter → s.cfg.maxCwLen < s.argB.toNat →
        FailsWith .trieInsert s .capacityExceeded)
    ∧ (s.argB.toNat ≠ 0 → s.argA.toNat ≤ s.cfg.maxLetter → s.argB.toNat ≤ s.cfg.maxCwLen →
        (∀ e, trieInsert s.cfg (trieOf s.cfg s.node) (bitsOf s.argC s.argB.toNat) s.argA.toNat = .error e →
          e = .prefixConflict ∧ FailsWith .trieInsert s .prefixConflict)
        ∧ ∀ n, trieInsert s.cfg (trieOf s.cfg s.node) (bitsOf s.argC s.argB.toNat) s.argA.toNat = .ok n →
          (s.cfg.nodeCap < n.length → FailsWith .trieInsert s .capacityExceeded)
          ∧ (n.length ≤ s.cfg.nodeCap → Succeeds .trieInsert s [.node] (fun t =>
              trieOf t.cfg t.node = n ∧ t.nodes = n.length)))

/-- TRIE_BUILD inserts the entries of CT in ascending letter order into a fresh root; the errors stand in the order
PrefixConflict, LetterOutOfRange (CT_OOR), CapacityExceeded, and each keeps the old trie (R915). -/
def Obligations.TrieBuildStoresTheTrieOfTheTable : Prop :=
  decode 0x00000052 = .ok .trieBuild ∧
  ∀ s : State, s.Inv →
    (∀ e, insertAll s.cfg emptyTrie s.ct = .error e → e = .prefixConflict ∧ FailsWith .trieBuild s .prefixConflict)
    ∧ ∀ n, insertAll s.cfg emptyTrie s.ct = .ok n →
        (s.ctOor = true → FailsWith .trieBuild s .letterOutOfRange)
        ∧ (s.ctOor = false → s.cfg.nodeCap < n.length → FailsWith .trieBuild s .capacityExceeded)
        ∧ (s.ctOor = false → n.length ≤ s.cfg.nodeCap → Succeeds .trieBuild s [.node, .result] (fun t =>
            trieOf t.cfg t.node = n ∧ t.nodes = n.length ∧ t.result.toNat = n.length))

/-- The insert state machine, stepped row by row from ICHECK, ends in IDONE with the trie `TrieInsert` gives, or in
IFAIL with its error and the trie unchanged, within `|c| + 3` steps. (The table of R912 needs one step more than the
bound R912 states; log 15.) -/
def Obligations.InsertMachineComputesTrieInsert : Prop :=
  ∀ (p : Params) (t : Trie) (c : Bits) (l : Nat),
    (∀ t', trieInsert p t c l = .ok t' → insertRun p c l (c.length + 3) (.icheck, t) = (.idone, t'))
    ∧ (∀ e, trieInsert p t c l = .error e → insertRun p c l (c.length + 3) (.icheck, t) = (.ifail e, t))

/-- The decode walk state machine, stepped row by row from DWALK(0, p), ends in DDONE with the letter and position that
`DecodeWalk` gives, or in DFAIL when it fails, within one step for each bit left and one more (R920). -/
def Obligations.DecodeMachineComputesDecodeWalk : Prop :=
  ∀ (t : Trie) (ibuf : Bits) (p : Nat), p ≤ ibuf.length →
    (∀ l j, decodeWalk t ibuf p = some (l, j) →
      decodeRun t ibuf (ibuf.length - p + 1) (.dwalk 0 p) = .ddone l j ∧ p < j ∧ j ≤ ibuf.length)
    ∧ (decodeWalk t ibuf p = none → decodeRun t ibuf (ibuf.length - p + 1) (.dwalk 0 p) = .dfail)

/-- In a state that meets the invariant every walk, from any position, is in a final state after NODES steps, because every
child's index exceeds its parent's; and a successful decode walk reads at most NODES bits and gives a letter in range
(R158, R920). -/
def Obligations.DecodeWalksEndWithinNodesSteps : Prop :=
  ∀ (s : State) (ibuf : Bits) (p : Nat), s.Inv →
    (∀ n j, decodeRun (trieOf s.cfg s.node) ibuf s.nodes (.dwalk 0 p) ≠ .dwalk n j)
    ∧ ∀ l j, decodeWalk (trieOf s.cfg s.node) ibuf p = some (l, j) → j - p ≤ s.nodes ∧ l ≤ s.cfg.maxLetter

/-- Insertion from the empty root: a set all inserted successfully is prefix-free, NODES is the number of distinct proper
prefixes of its codewords (the empty one included), every inserted codeword, whatever bits follow it, is decoded to its
letter, and the trie meets the invariants of R158 where it fits NODE_CAP; conversely a prefix-free list of non-empty
codewords for letters in range is inserted without error, in any order (R914). -/
def Obligations.InsertedCodewordsArePrefixFreeAndDecode : Prop :=
  ∀ (p : Params) (es : List (Nat × Bits)), p.legal = true →
    (∀ t, insertAll p emptyTrie es = .ok t →
      PrefixFree (es.map Prod.snd)
      ∧ (∃ ps : List Bits, ps.Nodup ∧ (∀ q, q ∈ ps ↔ q = [] ∨ ∃ e ∈ es, q <+: e.2 ∧ q ≠ e.2) ∧ t.length = ps.length)
      ∧ (∀ l c, (l, c) ∈ es → ∀ q x : Bits, decodeWalk t (q ++ c ++ x) q.length = some (l, q.length + c.length))
      ∧ (t.length ≤ p.nodeCap → TrieInv p (packTrie p t)))
    ∧ ((∀ e ∈ es, e.2 ≠ [] ∧ e.1 ≤ p.maxLetter) → PrefixFree (es.map Prod.snd) →
      ∃ t, insertAll p emptyTrie es = .ok t)

/-- DECODE_ONE reads one letter at the cursor; DECODE_ALL reads letters to the end of IBUF into TXT; a walk that fails is
DecodeFailure, before CapacityExceeded, and leaves the cursor and TXT. `DecodeAll(p)` is empty at the end of IBUF, fails when
the walk at `p` fails, and otherwise is the walk's letter followed by `DecodeAll` from where the walk ended (R921, R930,
R931). -/
def Obligations.DecodeOneAndDecodeAll : Prop :=
  decode 0x00000053 = .ok .decodeOne ∧ decode 0x00000054 = .ok .decodeAll ∧
  ∀ s : State,
    (decodeWalk (trieOf s.cfg s.node) s.ibuf s.icur = none → FailsWith .decodeOne s .decodeFailure)
    ∧ (∀ l j, decodeWalk (trieOf s.cfg s.node) s.ibuf s.icur = some (l, j) →
        Succeeds .decodeOne s [.icur, .result, .result2] (fun t => t.result = BitVec.ofNat 32 l
          ∧ t.result2 = BitVec.ofNat 32 (j - s.icur) ∧ t.icur = j ∧ s.icur < j))
    ∧ (decodeAll (trieOf s.cfg s.node) s.ibuf s.icur = none → FailsWith .decodeAll s .decodeFailure)
    ∧ (∀ out j, decodeAll (trieOf s.cfg s.node) s.ibuf s.icur = some (out, j) →
        (s.cfg.textCap < out.length → FailsWith .decodeAll s .capacityExceeded)
        ∧ (out.length ≤ s.cfg.textCap → Succeeds .decodeAll s [.txt, .icur, .result] (fun t =>
            t.txt = out ∧ t.result = BitVec.ofNat 32 out.length ∧ t.icur = j
            ∧ (s.icur ≤ s.ibuf.length → j = s.ibuf.length))))
    ∧ ∀ (n : Trie) (ibuf : Bits) (p : Nat),
        (ibuf.length ≤ p → decodeAll n ibuf p = some ([], p))
        ∧ (p < ibuf.length → decodeWalk n ibuf p = none → decodeAll n ibuf p = none)
        ∧ (∀ l j, p < ibuf.length → decodeWalk n ibuf p = some (l, j) →
            decodeAll n ibuf p = (decodeAll n ibuf j).map (fun r => (l :: r.1, r.2)))

/-! ### Whole-machine rules over all commands -/

/-- A successful command returns to IDLE and changes only what the `writes` column of R310 lists, beside ERR_CODE: OPA,
OPB, OPC, LAST_CMD, ERR_FIRST and OVERRUN never (R310, R400). -/
def Obligations.CommandsWriteOnlyTheirColumn : Prop :=
  ∀ (i : Instr) (s t : State), exec i s = .next t → t.errCode = 0 →
    AgreeOutside (writesOf i ++ [.errCode, .phase]) s t ∧ t.phase = .idle

/-- A failing command writes the error registers, returns to IDLE and changes nothing else, but that UNARY_DEC and UNPAD
set the cursor to the end of IBUF, and UNPACK_BYTES keeps the expanded bytes in IBUF, with the cursor at their end
(R1110, R1111). -/
def Obligations.FailingCommandsAreAllOrNothing : Prop :=
  ∀ (i : Instr) (s t : State), exec i s = .next t → t.errCode ≠ 0 →
    AgreeOutside (keptOnError i ++ [.errCode, .errFirst, .phase]) s t
    ∧ t.errFirst = (if s.errFirst = 0 then t.errCode else s.errFirst) ∧ t.phase = .idle
    ∧ (i = .unaryDec ∨ i = .unpad → t.icur = s.ibuf.length)
    ∧ (i = .unpackBytes → t.ibuf = expandBytes s.bytes ∧ t.icur = t.ibuf.length)

/-- In a state that meets the invariant each command ends with success or with one of the kinds R1102 lists for it; so NOP,
CLEAR, the clear commands and XFER never fail (R1102). -/
def Obligations.CommandsRaiseOnlyTheirKinds : Prop :=
  ∀ (i : Instr) (s t : State), s.Inv → exec i s = .next t →
    t.errCode = 0 ∨ ∃ e ∈ raisesOf i, t.errCode = e.code

/-- The ten kinds have the codes 1 to 10 in the order of R1100 (R1100). -/
def Obligations.ErrorCodesAreOneToTen : Prop :=
  [ErrKind.truncatedCode, .truncatedHeader, .emptyCodeword, .prefixConflict, .letterOutOfRange, .unmappedLetter,
    .decodeFailure, .illegalCommand, .badOperand, .capacityExceeded].map (fun e => e.code.toNat)
    = [1, 2, 3, 4, 5, 6, 7, 8, 9, 10]

/-- No command leaves the sequencer in BUSY: left without host accesses, a machine in phase BUSY is in IDLE after the
steps its latency leaves and one more (R1114). -/
def Obligations.EveryCommandEndsInIdle : Prop :=
  ∀ s : State, s.host = [] → s.inReset = false → s.phase ≠ .idle →
    ∃ t, Host.Core.run core (s.busyLeft + 1) s = .next t ∧ t.phase = .idle

/-! ### Decoding and the step -/

/-- Words written out from R310 decode to their commands, one of each family, and a set RSVD bit or an unassigned
opcode is rejected by name. -/
def Obligations.DecodeReadsTheSpecWords : Prop :=
  decode 0x00000000 = .ok .nop ∧ decode 0x00000007 = .ok .ibufGet ∧ decode 0x00000013 = .ok .gammaDec
  ∧ decode 0x00000024 = .ok .textToBytes ∧ decode 0x0000002A = .ok .freqSet ∧ decode 0x00000030 = .ok .build
  ∧ decode 0x00000044 = .ok .unpackTable ∧ decode 0x00000053 = .ok .decodeOne ∧ decode 0x00000063 = .ok .unpackBytes
  ∧ decode 0x0000000D = .error .unassignedOpcode ∧ decode 0x00000130 = .error .reservedBits

/-- Decode and encode agree on every word: a word decodes to a command exactly when it is that command's word (R300,
R310). -/
def Obligations.DecodeInvertsEncode : Prop :=
  ∀ (w : Word) (i : Instr), decode w = .ok i ↔ w = encode i

/-- A word is illegal exactly when RSVD is not 0 or OPCODE is one of the values R320 lists; when its turn comes it
completes at once with IllegalCommand, and only the error registers (and the phase) change. That an illegal word takes its
latency like any other is the model's reading of "completes at once" (R320, R321; log 3). -/
def Obligations.IllegalWordsRecordIllegalCommand : Prop :=
  ∀ w : Word,
    ((∃ e, decode w = .error e) ↔
      (w.toNat / 256 ≠ 0
        ∨ (0x0D ≤ w.toNat % 256 ∧ w.toNat % 256 ≤ 0x0F) ∨ (0x14 ≤ w.toNat % 256 ∧ w.toNat % 256 ≤ 0x1F)
        ∨ (0x25 ≤ w.toNat % 256 ∧ w.toNat % 256 ≤ 0x27) ∨ (0x2C ≤ w.toNat % 256 ∧ w.toNat % 256 ≤ 0x2F)
        ∨ (0x31 ≤ w.toNat % 256 ∧ w.toNat % 256 ≤ 0x3F) ∨ (0x47 ≤ w.toNat % 256 ∧ w.toNat % 256 ≤ 0x4F)
        ∨ (0x56 ≤ w.toNat % 256 ∧ w.toNat % 256 ≤ 0x5F) ∨ 0x64 ≤ w.toNat % 256))
    ∧ ∀ (s : State) (a b c : Word) (e : DecodeError), decode w = .error e → s.inReset = false →
        s.phase = .busy w a b c → s.busyLeft = 0 →
        ∃ t, step s = .next t ∧ t.errCode = 8 ∧ t.errFirst = (if s.errFirst = 0 then 8 else s.errFirst)
          ∧ t.phase = .idle ∧ AgreeOutside [.errCode, .errFirst, .phase] s t

/-- A step runs the decoded command: in phase BUSY, out of reset and with no latency left, a step is `exec` of the
command its word decodes to, in that state; nothing is added around it (R101). -/
def Obligations.StepRunsTheDecodedCommand : Prop :=
  ∀ (s : State) (w a b c : Word) (i : Instr), s.inReset = false → s.phase = .busy w a b c → s.busyLeft = 0 →
    decode w = .ok i → step s = exec i s

/-! ### The host port -/

/-- Writes in phase IDLE: a CMD write sets LAST_CMD, samples the operands and enters BUSY; any write to ERR_FIRST clears it
and OVERRUN; OPA, OPB, OPC take the value; a write to any other offset is ignored (R213). -/
def Obligations.IdleWritesTakeEffect : Prop :=
  ∀ (s : State) (off : Nat) (v : Word) (rest : List HostOp), s.cfg.legal = true → s.inReset = false →
    s.phase = .idle → off % 4 = 0 → off < 256 → s.host = .write (s.cfg.hufBase + off) 4 v :: rest →
    ∃ t, step s = .next t ∧ t.host = rest
      ∧ (off = 0x08 → t.lastCmd = v ∧ t.phase = .busy v s.opa s.opb s.opc
          ∧ AgreeOutside [.host, .lastCmd, .phase, .busyLeft, .latency] s t)
      ∧ (off = 0x14 → t.errFirst = 0 ∧ t.overrun = false ∧ AgreeOutside [.host, .errFirst, .overrun] s t)
      ∧ (off = 0x18 → t.opa = v ∧ AgreeOutside [.host, .opa] s t)
      ∧ (off = 0x1C → t.opb = v ∧ AgreeOutside [.host, .opb] s t)
      ∧ (off = 0x20 → t.opc = v ∧ AgreeOutside [.host, .opc] s t)
      ∧ (off ≠ 0x08 → off ≠ 0x14 → off ≠ 0x18 → off ≠ 0x1C → off ≠ 0x20 → AgreeOutside [.host] s t)

/-- Writes in phase BUSY are dropped; one to CMD, ERR_FIRST, OPA, OPB or OPC sets OVERRUN, one to another offset does not
(R1220). -/
def Obligations.BusyWritesAreDropped : Prop :=
  ∀ (s : State) (w a b c v : Word) (off : Nat) (rest : List HostOp), s.cfg.legal = true → s.inReset = false →
    s.phase = .busy w a b c → s.busyLeft ≠ 0 → off % 4 = 0 → off < 256 →
    s.host = .write (s.cfg.hufBase + off) 4 v :: rest →
    ∃ t, step s = .next t ∧ t.host = rest
      ∧ (off = 0x08 ∨ off = 0x14 ∨ off = 0x18 ∨ off = 0x1C ∨ off = 0x20 →
          t.overrun = true ∧ AgreeOutside [.host, .busyLeft, .overrun] s t)
      ∧ (¬ (off = 0x08 ∨ off = 0x14 ∨ off = 0x18 ∨ off = 0x1C ∨ off = 0x20) →
          AgreeOutside [.host, .busyLeft] s t)

/-- Reads in phase IDLE are exact: the register map, with ID, CFG, STATUS bit by bit, the live views and the capacities;
a reserved offset reads 0. In a state that meets the invariant every length fits its register, and CT_COUNT is the number
of valid letters (R111, R120 to R124, R128, R129). -/
def Obligations.IdleReadsFollowTheRegisterMap : Prop :=
  ∀ (s : State) (off : Nat) (rest : List HostOp), s.cfg.legal = true → s.inReset = false → s.phase = .idle →
    off % 4 = 0 → off < 256 → s.host = .read (s.cfg.hufBase + off) 4 :: rest →
    ∃ t, step s = .next t ∧ t.host = rest ∧ AgreeOutside [.host, .rdata] s t
      ∧ (off = 0x00 → t.rdata = 0x48554631)
      ∧ (off = 0x04 → t.rdata.toNat = s.cfg.branchW + 256 * s.cfg.maxCwLen + 65536 * s.cfg.countW)
      ∧ (off = 0x08 → t.rdata = s.lastCmd)
      ∧ (off = 0x0C → ∀ k, t.rdata.getLsbD k =
          (decide (k = 1 ∧ s.errCode ≠ 0) || decide (k = 2 ∧ s.errFirst ≠ 0)
            || (decide (k = 3) && s.overrun) || (decide (k = 4) && s.ctOor)))
      ∧ (off = 0x10 → t.rdata.toNat = s.errCode.toNat)
      ∧ (off = 0x14 → t.rdata.toNat = s.errFirst.toNat)
      ∧ (off = 0x18 → t.rdata = s.opa) ∧ (off = 0x1C → t.rdata = s.opb) ∧ (off = 0x20 → t.rdata = s.opc)
      ∧ (off = 0x24 → t.rdata = s.result) ∧ (off = 0x28 → t.rdata = s.result2)
      ∧ (off = 0x2C → t.rdata = BitVec.ofNat 32 s.obuf.length)
      ∧ (off = 0x30 → t.rdata = BitVec.ofNat 32 s.ibuf.length)
      ∧ (off = 0x34 → t.rdata = BitVec.ofNat 32 s.icur)
      ∧ (off = 0x38 → t.rdata = BitVec.ofNat 32 s.txt.length)
      ∧ (off = 0x3C → t.rdata = BitVec.ofNat 32 s.bytes.length)
      ∧ (off = 0x40 → t.rdata = BitVec.ofNat 32 s.node.length)
      ∧ (off = 0x44 → t.rdata = BitVec.ofNat 32 s.ct.length)
      ∧ (off = 0x48 → t.rdata.toNat = s.cfg.bitCap) ∧ (off = 0x4C → t.rdata.toNat = s.cfg.bitCap / 8)
      ∧ (off = 0x50 → t.rdata.toNat = s.cfg.textCap) ∧ (off = 0x54 → t.rdata.toNat = s.cfg.nodeCap)
      ∧ (off = 0x58 → t.rdata.toNat = 2 ^ (s.cfg.branchW - 1) - 2)
      ∧ (0x5C ≤ off → t.rdata = 0)
      ∧ (s.Inv → (off = 0x2C → t.rdata.toNat = s.obuf.length) ∧ (off = 0x30 → t.rdata.toNat = s.ibuf.length)
        ∧ (off = 0x34 → t.rdata.toNat = s.icur) ∧ (off = 0x38 → t.rdata.toNat = s.txt.length)
        ∧ (off = 0x3C → t.rdata.toNat = s.bytes.length) ∧ (off = 0x40 → t.rdata.toNat = s.node.length)
        ∧ (off = 0x44 → ∃ letters : List Nat, letters.Nodup
            ∧ (∀ l, l ∈ letters ↔ (tableGet s.ct l).isSome = true) ∧ t.rdata.toNat = letters.length))

/-- Reads in phase BUSY: ID, CFG, CMD, the capacity registers and MAX_LETTER are exact, and so are STATUS bits 0 (1) and 3;
a read changes no register. Nothing is said of any other register or bit: it is a free value (R1221). -/
def Obligations.BusyReadsOfTheListedRegistersAreExact : Prop :=
  ∀ (s : State) (w a b c : Word) (off : Nat) (rest : List HostOp), s.cfg.legal = true → s.inReset = false →
    s.phase = .busy w a b c → s.busyLeft ≠ 0 → off % 4 = 0 → off < 256 →
    s.host = .read (s.cfg.hufBase + off) 4 :: rest →
    ∃ t, step s = .next t ∧ t.host = rest ∧ AgreeOutside [.host, .busyLeft, .rdata, .draws] s t
      ∧ (off = 0x00 → t.rdata = 0x48554631)
      ∧ (off = 0x04 → t.rdata.toNat = s.cfg.branchW + 256 * s.cfg.maxCwLen + 65536 * s.cfg.countW)
      ∧ (off = 0x08 → t.rdata = s.lastCmd)
      ∧ (off = 0x0C → t.rdata.getLsbD 0 = true ∧ t.rdata.getLsbD 3 = s.overrun)
      ∧ (off = 0x48 → t.rdata.toNat = s.cfg.bitCap) ∧ (off = 0x4C → t.rdata.toNat = s.cfg.bitCap / 8)
      ∧ (off = 0x50 → t.rdata.toNat = s.cfg.textCap) ∧ (off = 0x54 → t.rdata.toNat = s.cfg.nodeCap)
      ∧ (off = 0x58 → t.rdata.toNat = 2 ^ (s.cfg.branchW - 1) - 2)

/-- Reads have no side effects: a step that serves a read, a WAIT poll or a CHECK, in either phase, leaves every register
and memory of the block as it was; only the model's record of the port and of the host changes (R212). -/
def Obligations.ReadsChangeNoRegister : Prop :=
  ∀ (s t : State) (op : HostOp) (rest : List HostOp), s.host = op :: rest →
    ((∃ addr width, op = .read addr width) ∨ op = .wait ∨ op = .check) →
    (s.inReset = true ∨ s.phase = .idle ∨ s.busyLeft ≠ 0) → step s = .next t →
    AgreeOutside [.host, .busyLeft, .rdata, .draws] s t

/-- An access that is not 32 bits wide at a multiple of 4 is refused, and so is one outside the window; every other
access is served. That width and alignment are checked before the window is the model's choice (log 18), and so is that a
read during reset is served (log 6) (R201, R210). -/
def Obligations.IllFormedAccessesAreRefused : Prop :=
  ∀ (s : State) (addr width : Nat) (v : Word) (rest : List HostOp), s.cfg.legal = true →
    (s.inReset = true ∨ s.phase = .idle ∨ s.busyLeft ≠ 0) →
    (s.host = .write addr width v :: rest ∨ s.host = .read addr width :: rest) →
    (¬ (width = 4 ∧ addr % 4 = 0) → step s = .refused .badAccess)
    ∧ (width = 4 ∧ addr % 4 = 0 → ¬ (s.cfg.hufBase ≤ addr ∧ addr < s.cfg.hufBase + 256) →
        step s = .refused .outsideWindow)
    ∧ (accessLegal s.cfg addr width = true → ∃ t, step s = .next t)

/-- The reset event, in any phase, abandons the command in progress and puts every piece of the block's state at its reset
value; a write that arrives during reset is not accepted; the release of reset ends it and changes nothing else. That reset
is two events of the host's list is the model's form (R1200; log 6). -/
def Obligations.ResetEventRestoresTheResetState : Prop :=
  ∀ (s : State) (rest : List HostOp),
    ((s.inReset = true ∨ s.phase = .idle ∨ s.busyLeft ≠ 0) → s.host = .resetAssert :: rest →
      ∃ t, step s = .next t ∧ t.inReset = true ∧ t.host = rest
        ∧ AgreeOutside [.inReset, .host, .latency, .rdata, .draws] (State.resetWith s.cfg) t)
    ∧ (∀ off v, s.cfg.legal = true → s.inReset = true → off % 4 = 0 → off < 256 →
        s.host = .write (s.cfg.hufBase + off) 4 v :: rest →
        ∃ t, step s = .next t ∧ AgreeOutside [.host] s t)
    ∧ ((s.inReset = true ∨ s.phase = .idle ∨ s.busyLeft ≠ 0) → s.host = .resetRelease :: rest →
      ∃ t, step s = .next t ∧ t.inReset = false ∧ t.host = rest
        ∧ AgreeOutside [.inReset, .host, .busyLeft] s t
        ∧ (s.inReset = true ∨ s.phase = .idle → AgreeOutside [.inReset, .host] s t))

/-! ### Reset and invariants -/

/-- The reset values of R170, the constant registers among them at the default parameters of R20. -/
def Obligations.ResetHoldsTheSpecValues : Prop :=
  State.reset.phase = .idle ∧ State.reset.lastCmd = 0 ∧ State.reset.errCode = 0 ∧ State.reset.errFirst = 0
  ∧ State.reset.overrun = false ∧ State.reset.ctOor = false
  ∧ State.reset.opa = 0 ∧ State.reset.opb = 0 ∧ State.reset.opc = 0
  ∧ State.reset.result = 0 ∧ State.reset.result2 = 0
  ∧ State.reset.obuf = [] ∧ State.reset.ibuf = [] ∧ State.reset.icur = 0
  ∧ State.reset.txt = [] ∧ State.reset.bytes = []
  ∧ (∀ l, countGet State.reset.freq l = 0) ∧ (∀ l, tableGet State.reset.ct l = none)
  ∧ State.reset.node = [{ br0 := 0x8000, br1 := 0x8000 }]
  ∧ State.reset.statusWord = 0
  ∧ readReg State.reset 0x00 = 0x48554631 ∧ readReg State.reset 0x04 = 0x00202010
  ∧ readReg State.reset 0x48 = 0x00800000 ∧ readReg State.reset 0x4C = 0x00100000
  ∧ readReg State.reset 0x50 = 0x00100000 ∧ readReg State.reset 0x54 = 1024 ∧ readReg State.reset 0x58 = 32766

/-- The state after reset meets the invariant, for every legal instance. -/
def Obligations.ResetMeetsTheInvariant : Prop :=
  ∀ p : Params, p.legal = true → (State.resetWith p).Inv

/-- Every step keeps the invariant: the capacities, the cursor within IBUF, letters in range, the canonical form of FREQ
and CT, the trie invariants of R158, the record of the running command, the error codes (R150 to R158). -/
def Obligations.EveryStepKeepsTheInvariant : Prop :=
  ∀ s t : State, s.Inv → step s = .next t → t.Inv

/-- The parameters are fixed: no step changes them (R20). -/
def Obligations.NoStepChangesTheParameters : Prop :=
  ∀ s t : State, step s = .next t → t.cfg = s.cfg

/-- ERR_FIRST holds the first error: once it is not 0, a step changes it only by serving a write to ERR_FIRST or a reset
event (R125). -/
def Obligations.ErrFirstKeepsTheFirstError : Prop :=
  ∀ s t : State, step s = .next t → s.errFirst ≠ 0 →
    (∀ rest, s.host ≠ .resetAssert :: rest) →
    (∀ v rest, s.host ≠ .write (s.cfg.hufBase + 0x14) 4 v :: rest) →
    t.errFirst = s.errFirst

/-- STATUS.OVERRUN and STATUS.CT_OOR change only by their events: OVERRUN is set by a dropped write in BUSY and cleared by
a write to ERR_FIRST in IDLE or a reset; CT_OOR changes only by UNPACK_TABLE, CT_CLR, BUILD, CLEAR or a reset (R123, R130,
R156). -/
def Obligations.FlagsChangeOnlyByTheirEvents : Prop :=
  ∀ s t : State, step s = .next t →
    (s.overrun = false → t.overrun = true → s.phase ≠ .idle
      ∧ ∃ off v rest, s.host = .write (s.cfg.hufBase + off) 4 v :: rest
        ∧ (off = 0x08 ∨ off = 0x14 ∨ off = 0x18 ∨ off = 0x1C ∨ off = 0x20))
    ∧ (s.overrun = true → t.overrun = false →
        (∃ rest, s.host = .resetAssert :: rest)
        ∨ (s.phase = .idle ∧ ∃ v rest, s.host = .write (s.cfg.hufBase + 0x14) 4 v :: rest))
    ∧ (t.ctOor ≠ s.ctOor →
        (∃ rest, s.host = .resetAssert :: rest)
        ∨ ∃ w a b c, s.phase = .busy w a b c
            ∧ (decode w = .ok .unpackTable ∨ decode w = .ok .ctClr ∨ decode w = .ok .build ∨ decode w = .ok .clear))

/-! ### Host sequences -/

/-- The host's accesses run the commands, from phase IDLE and whatever the latencies are: those of one statement, of a list
of statements with a CHECK after every command, and of COMPRESS and DECOMPRESS with their CLRERR lead to a state that agrees
with the commands' effect, run one after another, on every register and memory of the block. The rest of the host's accesses
is still to come, but for a failed CHECK, after which the host's list is empty (R330, R331, R340, R341, R220; the host's list,
the latencies and what a stopped host does are the model's form: log 2, 3, 19). -/
def Obligations.StatementAccessesRunTheCommand : Prop :=
  ∀ (s u : State) (rest : List HostOp), s.cfg.legal = true → s.inReset = false → s.phase = .idle →
    (∀ st : Stmt, s.host = st.accesses s.cfg ++ rest → st.run s = .next u →
      ∃ k t, Host.Core.run core k s = .next t ∧ t.host = rest
        ∧ AgreeOutside [.host, .latency, .busyLeft, .rdata, .draws] u t)
    ∧ (∀ sts : List Stmt, sts ≠ [] → s.host = checkedAccesses s.cfg sts ++ rest → runChecked sts s = .next u →
      ∃ k t, Host.Core.run core k s = .next t ∧ t.host = (if u.errCode = 0 then rest else [])
        ∧ AgreeOutside [.host, .latency, .busyLeft, .rdata, .draws] u t)
    ∧ (∀ flag : Bool, s.host = compressAccesses s.cfg flag ++ rest → compress flag s = .next u →
      ∃ k t, Host.Core.run core k s = .next t ∧ t.host = (if u.errCode = 0 then rest else [])
        ∧ AgreeOutside [.host, .latency, .busyLeft, .rdata, .draws] u t)
    ∧ (s.host = decompressAccesses s.cfg ++ rest → decompress s = .next u →
      ∃ k t, Host.Core.run core k s = .next t ∧ t.host = (if u.errCode = 0 then rest else [])
        ∧ AgreeOutside [.host, .latency, .busyLeft, .rdata, .draws] u t)

/-- COMPRESS and DECOMPRESS are all-or-nothing: one that stops at an error leaves BYTES as it was, with the error in
ERR_CODE and ERR_FIRST; and no command of either but the last writes BYTES (R342). -/
def Obligations.FailedCallsLeaveTheBytes : Prop :=
  ∀ (flag : Bool) (s t : State),
    (compress flag s = .next t → t.errCode ≠ 0 → t.bytes = s.bytes ∧ t.errFirst = t.errCode)
    ∧ (decompress s = .next t → t.errCode ≠ 0 → t.bytes = s.bytes ∧ t.errFirst = t.errCode)
    ∧ (∀ st ∈ (compressStmts s.cfg flag).dropLast ++ decompressStmts.dropLast, ∀ u v : State,
        st.run u = .next v → v.bytes = u.bytes)

/-- The round trip: when COMPRESS succeeds, DECOMPRESS of its output, in any state that holds it, succeeds and gives the
input bytes back, with either sentinel policy; 256 nodes are enough for every such table (R340, R341, T-PROP-1). -/
def Obligations.DecompressOfCompressGivesTheBytesBack : Prop :=
  ∀ (flag : Bool) (s t u : State), s.Inv → s.phase = .idle → 256 ≤ s.cfg.nodeCap →
    compress flag s = .next t → t.errCode = 0 →
    u.Inv → u.phase = .idle → u.cfg = s.cfg → u.bytes = t.bytes →
    ∃ v, decompress u = .next v ∧ v.errCode = 0 ∧ v.bytes = s.bytes

/-- Truncation: DECOMPRESS of a compressed buffer that lost its last `k >= 1` bytes stops with TruncatedCode at
UNPACK_BYTES or UNPACK_TABLE, with TruncatedHeader at UNPACK_TABLE or with DecodeFailure at DECODE_ALL, or succeeds with a
prefix of the input: a proper one without the sentinel, and with it the whole input only when exactly the sentinel's
codeword was cut off (R343). The instance has at least 256 nodes: with fewer, TRIE_BUILD may answer CapacityExceeded. -/
def Obligations.TruncatedBuffersGiveAnErrorOrAPrefix : Prop :=
  ∀ (flag : Bool) (s t u : State) (k : Nat), s.Inv → s.phase = .idle → 256 ≤ s.cfg.nodeCap →
    compress flag s = .next t → t.errCode = 0 → 1 ≤ k → k ≤ t.bytes.length →
    u.Inv → u.phase = .idle → u.cfg = s.cfg → u.bytes = t.bytes.take (t.bytes.length - k) →
    ∃ v, decompress u = .next v
      ∧ ((v.errCode = 1 ∧ (v.lastCmd = 0x63 ∨ v.lastCmd = 0x44)) ∨ (v.errCode = 2 ∧ v.lastCmd = 0x44)
        ∨ (v.errCode = 7 ∧ v.lastCmd = 0x54)
        ∨ (v.errCode = 0 ∧ v.bytes <+: s.bytes ∧ (flag = false → v.bytes ≠ s.bytes)
          ∧ (flag = true → v.bytes = s.bytes →
              ∃ c, tableGet t.ct s.cfg.sentinel = some c ∧ c.length = 8 * k)))
end

