-- ==== Sys2Proof/Laws/BitSeq.lean ====
section
/-! SUPPORT. The small laws of the functions on bit sequences. -/

namespace Sys2Proof.Machine

@[simp] theorem length_binBits (k n : Nat) : (binBits k n).length = k := by
  induction k with
  | zero => rfl
  | succ k ih => simp [binBits, ih]

/-- Bit `i` of `bin_k(n)` is bit `k-1-i` of `n`. -/
theorem getElem?_binBits (k n i : Nat) (h : i < k) : (binBits k n)[i]? = some (n.testBit (k - 1 - i)) := by
  induction k generalizing i with
  | zero => omega
  | succ k ih =>
    cases i with
    | zero => simp [binBits]
    | succ i =>
      have := ih i (by omega)
      rw [binBits, List.getElem?_cons_succ, this]
      congr 2
      omega

@[simp] theorem length_bitsOf (v : Word) (n : Nat) : (bitsOf v n).length = n := length_binBits n _

/-- Bit `i` of `BitsOf(v, n)` is bit `n-1-i` of the register. -/
theorem getElem?_bitsOf (v : Word) (n i : Nat) (h : i < n) : (bitsOf v n)[i]? = some (v.getLsbD (n - 1 - i)) :=
  getElem?_binBits n _ i h

@[simp] theorem length_unary (n : Nat) : (unary n).length = n + 1 := by simp [unary]

@[simp] theorem length_gamma (n : Nat) : (gamma n).length = 2 * bitLen n - 1 := by
  simp [gamma, bitLen]
  omega

theorem length_slice (s : Bits) (i j : Nat) : (slice s i j).length = min (j - i) (s.length - i) := by
  simp [slice]

/-- The value of a sequence with one more bit at its end. -/
theorem bitsVal_append_singleton (s : Bits) (b : Bool) : bitsVal (s ++ [b]) = 2 * bitsVal s + b.toNat := by
  simp [bitsVal]

theorem bitsVal_nil : bitsVal [] = 0 := rfl

/-- A run of bits is no longer than the sequence. -/
theorem runLength_le (b : Bool) (s : Bits) : runLength b s ≤ s.length := by
  induction s with
  | nil => simp [runLength]
  | cons x s ih => rw [runLength, List.length_cons]; split <;> omega

/-- A sequence begins with its run; what follows, if anything, is the other bit. -/
theorem runLength_split (b : Bool) (s : Bits) :
    s = List.replicate (runLength b s) b ++ s.drop (runLength b s) ∧ (s.drop (runLength b s)).head? ≠ some b := by
  induction s with
  | nil => simp [runLength]
  | cons x s ih =>
    rw [runLength]
    split
    · next h =>
      subst h
      refine ⟨?_, by simpa using ih.2⟩
      rw [List.replicate_succ, List.drop_succ_cons, List.cons_append, ← ih.1]
    · next h => simp [h]

/-- The run at the front of `n` bits `b` and the other bit is `n` long. -/
theorem runLength_replicate (b c : Bool) (n : Nat) (t : Bits) (h : c ≠ b) :
    runLength b (List.replicate n b ++ c :: t) = n := by
  induction n with
  | zero => simp [runLength, h]
  | succ n ih => simp [List.replicate_succ, runLength, ih]

theorem runLength_replicate_all (b : Bool) (n : Nat) : runLength b (List.replicate n b) = n := by
  induction n with
  | zero => rfl
  | succ n ih => simp [List.replicate_succ, runLength, ih]

@[simp] theorem length_expandBytes (bs : List Byte) : (expandBytes bs).length = 8 * bs.length := by
  induction bs with
  | nil => rfl
  | cons b bs ih =>
    have h : expandBytes (b :: bs) = binBits 8 b.toNat ++ expandBytes bs := by simp [expandBytes]
    rw [h, List.length_append, ih, length_binBits, List.length_cons]
    omega

theorem length_padBits (s : Bits) : (padBits s).length = s.length + padAmount s.length := by
  have h : s.length % 8 < 8 := Nat.mod_lt _ (by omega)
  simp [padBits, padAmount]
  omega

end Sys2Proof.Machine
end

