-- ==== Sys2Proof/Laws/Headers.lean ====
section
/-! SUPPORT. The small laws of the terms for headers and merge runs (Safety.lean), for proofs that cite these and unfold
neither. -/

namespace Sys2Proof.Machine

@[simp] theorem headerBody_nil : headerBody [] = [] := rfl

@[simp] theorem headerBody_singleton (l : Nat) (c : Bits) :
    headerBody [(l, c)] = gamma (l + 1) ++ gamma c.length ++ c := by
  simp [headerBody]

theorem headerEntries_nil : HeaderEntries [] := ⟨by simp [keysRising], by simp⟩

theorem gamma_ne_nil (n : Nat) : gamma n ≠ [] := fun h => by
  have := length_gamma n
  simp [h, bitLen] at this
  omega

theorem gammaCut_nil : GammaCut [] := by
  rintro ⟨n, y, -, h⟩
  exact gamma_ne_nil n (List.append_eq_nil_iff.mp h.symm).1

/-- A merge run starts from a queue that holds a node. -/
theorem MergeRun.queue_ne_nil {next : Nat} {q : List MergeNode} {t : List (Nat × Bits)} (h : MergeRun next q t) :
    q ≠ [] := by
  cases h with
  | last => simp
  | merge rest x y hq => rintro rfl; simp at *

end Sys2Proof.Machine
end

