-- ==== Sys2Proof/Laws/Invariant.lean ====
section
/-! SUPPORT. A check of the invariant that evaluates, for showing that a concrete state meets it. -/

namespace Sys2Proof.Machine

/-- The invariant's trie part, evaluated. -/
def trieCheck (p : Params) (ns : List Node) : Bool :=
  decide (1 ≤ ns.length) && decide (ns.length ≤ p.nodeCap)
    && (allSlots ns).all (fun v => decide (v = p.emptySlot) || (decide (p.mid < v) && decide (v ≤ p.top))
        || (decide (1 ≤ v) && decide (v < ns.length)))
    && (List.range ns.length).all (fun c => decide (c < 1)
        || (decide ((allSlots ns).count c = 1) && decide ((allSlots (ns.take c)).count c = 1)))

/-- The invariant's record of the running command, evaluated. -/
def phaseCheck (s : State) : Bool :=
  match s.phase with
  | .idle => true
  | .busy w a b c => decide (s.lastCmd = w) && decide (s.opa = a) && decide (s.opb = b) && decide (s.opc = c)

/-- The invariant, evaluated. -/
def State.invCheck (s : State) : Bool :=
  s.cfg.legal && decide (s.obuf.length ≤ s.cfg.bitCap) && decide (s.ibuf.length ≤ s.cfg.bitCap)
    && decide (s.icur ≤ s.ibuf.length) && decide (s.txt.length ≤ s.cfg.textCap)
    && s.txt.all (fun l => decide (l ≤ s.cfg.maxLetter)) && decide (s.bytes.length ≤ s.cfg.byteCap) && Memory.wf s
    && s.freq.all (fun e => decide (e.1 ≤ s.cfg.maxLetter) && decide (e.2 ≤ s.cfg.maxCount))
    && s.ct.all (fun e => decide (e.1 ≤ s.cfg.maxLetter) && decide (1 ≤ e.2.length)
        && decide (e.2.length ≤ s.cfg.maxCwLen))
    && trieCheck s.cfg s.node && phaseCheck s && decide (s.errCode.toNat ≤ 10) && decide (s.errFirst.toNat ≤ 10)
    && (!s.inReset || decide (s.phase = .idle))

theorem trieInv_of_check {p : Params} {ns : List Node} (h : trieCheck p ns = true) : TrieInv p ns := by
  simp only [trieCheck, Bool.and_eq_true, Bool.or_eq_true, decide_eq_true_eq, List.all_eq_true, List.mem_range] at h
  obtain ⟨⟨⟨h1, h2⟩, h3⟩, h4⟩ := h
  refine ⟨h1, h2, fun v hv => ?_, fun c hc hlt => ?_⟩
  · rcases h3 v hv with (h | h) | h
    · exact .inl h
    · exact .inr (.inl h)
    · exact .inr (.inr h)
  · rcases h4 c hlt with h | h
    · omega
    · exact h

/-- A state whose check answers true meets the invariant. -/
theorem inv_of_check {s : State} (h : s.invCheck = true) : s.Inv := by
  simp only [State.invCheck, Bool.and_eq_true, Bool.or_eq_true, decide_eq_true_eq, List.all_eq_true,
    Bool.not_eq_true'] at h
  obtain ⟨⟨⟨⟨⟨⟨⟨⟨⟨⟨⟨⟨⟨⟨h1, h2⟩, h3⟩, h4⟩, h5⟩, h6⟩, h7⟩, h8⟩, h9⟩, h10⟩, h11⟩, h12⟩, h13⟩, h14⟩, h15⟩ := h
  refine ⟨h1, h2, h3, h4, h5, h6, h7, h8, h9, fun e he => ?_, trieInv_of_check h11, ?_, ⟨h13, h14⟩, ?_⟩
  · exact ⟨(h10 e he).1.1, (h10 e he).1.2, (h10 e he).2⟩
  · intro w a b c hp
    simp only [phaseCheck, hp, Bool.and_eq_true, decide_eq_true_eq] at h12
    exact ⟨h12.1.1.1, h12.1.1.2, h12.1.2, h12.2⟩
  · intro hr
    rcases h15 with h | h
    · rw [hr] at h; cases h
    · exact h

end Sys2Proof.Machine
end

