-- ==== Sys2Proof/Laws/Ops.lean ====
section
/-! SUPPORT. What each shared operation can do, once: the provers cite these and unfold no operation. -/

namespace Sys2Proof.Machine

/-! ### Frames -/

theorem AgreeOutside.refl (fs : List Field) (s : State) : AgreeOutside fs s s := by
  intro f _
  cases f <;> rfl

theorem AgreeOutside.mono {fs gs : List Field} {s t : State} (h : AgreeOutside fs s t) (hsub : ∀ f ∈ fs, f ∈ gs) :
    AgreeOutside gs s t := fun f hf => h f fun hf' => hf (hsub f hf')

theorem AgreeOutside.trans {fs : List Field} {s t u : State} (h : AgreeOutside fs s t) (h' : AgreeOutside fs t u) :
    AgreeOutside fs s u := by
  intro f hf
  have h1 := h f hf
  have h2 := h' f hf
  cases f <;> exact h2.trans h1

/-- Ending a command successfully writes ERR_CODE and the phase only. -/
theorem commit_frame (s : State) : AgreeOutside [.errCode, .phase] s s.commit := by
  intro f hf
  cases f <;> first | rfl | simp at hf

/-- Recording an error writes ERR_CODE, ERR_FIRST and the phase only. -/
theorem recordError_frame (s : State) (e : ErrKind) : AgreeOutside [.errCode, .errFirst, .phase] s (s.recordError e) := by
  intro f hf
  cases f <;> first | rfl | simp at hf

/-! ### How a command ends -/

theorem ret_next {s t : State} : ret s = .next t ↔ t = s.commit := by
  constructor
  · intro h; cases h; rfl
  · rintro rfl; rfl

theorem raise_next {e : ErrKind} {s t : State} : raise e s = .next t ↔ t = s.recordError e := by
  constructor
  · intro h; cases h; rfl
  · rintro rfl; rfl

theorem failAt_next {e : ErrKind} {p : Nat} {s t : State} :
    failAt e p s = .next t ↔ t = ({ s with icur := p } : State).recordError e := raise_next

/-- An error's code is never 0 and at most 10. -/
theorem code_range (e : ErrKind) : e.code ≠ 0 ∧ e.code.toNat ≤ 10 := by cases e <;> decide

/-- A command that raises `e` from its own state fails with `e`. -/
theorem failsWith_of_raise {i : Instr} {s : State} {e : ErrKind} (h : exec i s = raise e s) : FailsWith i s e :=
  ⟨s.recordError e, h, rfl, rfl, rfl, recordError_frame s e, trivial⟩

/-- A command that raises `e` from a state in which some pieces were kept. -/
theorem failsKeeping_of_raise {i : Instr} {s s' : State} {e : ErrKind} {fs : List Field} {P : State → Prop}
    (h : exec i s = raise e s') (hframe : AgreeOutside fs s s') (hfirst : s'.errFirst = s.errFirst)
    (hP : P (s'.recordError e)) : FailsKeeping i s e fs P := by
  refine ⟨s'.recordError e, h, rfl, ?_, rfl, ?_, hP⟩
  · show (if s'.errFirst = 0 then e.code else s'.errFirst) = _
    rw [hfirst]
  · exact (hframe.mono (by simp_all)).trans ((recordError_frame s' e).mono (by simp_all))

/-- A command that returns from `s'` succeeds, with the frame of its staged writes. -/
theorem succeeds_of_ret {i : Instr} {s s' : State} {fs : List Field} {P : State → Prop}
    (h : exec i s = ret s') (hframe : AgreeOutside fs s s') (hP : P s'.commit) : Succeeds i s fs P :=
  ⟨s'.commit, h, rfl, rfl, (hframe.mono (by simp_all)).trans ((commit_frame s').mono (by simp_all)), hP⟩

/-! ### The operations with a rest of the command after them -/

/-- `OAppend`: no room, or the bits are appended and the rest runs. -/
theorem oAppend_next {bits : Bits} {s t : State} {k : State → Result} (h : oAppend bits s k = .next t) :
    (s.cfg.bitCap < s.obuf.length + bits.length ∧ t = s.recordError .capacityExceeded)
    ∨ (s.obuf.length + bits.length ≤ s.cfg.bitCap ∧ k { s with obuf := s.obuf ++ bits } = .next t) := by
  unfold oAppend at h
  split at h
  · next hc => exact .inl ⟨hc, raise_next.mp h⟩
  · next hc => exact .inr ⟨by omega, h⟩

/-- A letter operand: out of range, or the rest runs on a letter in range. -/
theorem withLetter_next {s t : State} {l : Nat} {k : Nat → Result} (h : withLetter s l k = .next t) :
    (s.cfg.maxLetter < l ∧ t = s.recordError .letterOutOfRange) ∨ (l ≤ s.cfg.maxLetter ∧ k l = .next t) := by
  unfold withLetter letterInRange at h
  split at h
  · next hc => exact .inr ⟨by simpa using hc, h⟩
  · next hc => exact .inl ⟨by simpa using hc, raise_next.mp h⟩

/-- A bit count operand: above 32, or the rest runs on a legal one. -/
theorem withNbits_next {s t : State} {n : Nat} {k : Nat → Result} (h : withNbits s n k = .next t) :
    (32 < n ∧ t = s.recordError .badOperand) ∨ (n ≤ 32 ∧ k n = .next t) := by
  unfold withNbits nbitsOk at h
  split at h
  · next hc => exact .inr ⟨by simpa using hc, h⟩
  · next hc => exact .inl ⟨by simpa using hc, raise_next.mp h⟩

/-- An index operand: outside the buffer, or the rest runs on the addressed item. -/
theorem withItem_next {α : Type} {s t : State} {buf : List α} {i : Nat} {k : α → Result}
    (h : withItem s buf i k = .next t) :
    (buf.length ≤ i ∧ t = s.recordError .badOperand) ∨ ∃ x, buf[i]? = some x ∧ k x = .next t := by
  unfold withItem at h
  split at h
  · next x hx => exact .inr ⟨x, hx, h⟩
  · next hx => exact .inl ⟨by simpa using hx, raise_next.mp h⟩

/-- The codeword operands of CT_SET and TRIE_INSERT: the first check that fails, or the rest runs on the letter and the
codeword. -/
theorem withCodeword_next {s t : State} {k : Nat → Bits → Result} (h : withCodeword s k = .next t) :
    (s.argB.toNat = 0 ∧ t = s.recordError .emptyCodeword)
    ∨ (s.argB.toNat ≠ 0 ∧ s.cfg.maxLetter < s.argA.toNat ∧ t = s.recordError .letterOutOfRange)
    ∨ (s.argB.toNat ≠ 0 ∧ s.argA.toNat ≤ s.cfg.maxLetter ∧ s.cfg.maxCwLen < s.argB.toNat
        ∧ t = s.recordError .capacityExceeded)
    ∨ (s.argB.toNat ≠ 0 ∧ s.argA.toNat ≤ s.cfg.maxLetter ∧ s.argB.toNat ≤ s.cfg.maxCwLen
        ∧ k s.argA.toNat (bitsOf s.argC s.argB.toNat) = .next t) := by
  unfold withCodeword letterInRange at h
  simp only at h
  split at h
  · next h0 => exact .inl ⟨h0, raise_next.mp h⟩
  · next h0 =>
    split at h
    · next hl =>
      have hl' : s.argA.toNat ≤ s.cfg.maxLetter := by simpa using hl
      split at h
      · next hc => exact .inr (.inr (.inl ⟨h0, hl', hc, raise_next.mp h⟩))
      · next hc => exact .inr (.inr (.inr ⟨h0, hl', by omega, h⟩))
    · next hl => exact .inr (.inl ⟨h0, by simpa using hl, raise_next.mp h⟩)

/-- Storing a trie: no room, or it is stored and the rest runs. -/
theorem storeTrie_next {n : Trie} {s t : State} {k : State → Result} (h : storeTrie n s k = .next t) :
    (s.cfg.nodeCap < n.length ∧ t = s.recordError .capacityExceeded)
    ∨ (n.length ≤ s.cfg.nodeCap ∧ k { s with node := packTrie s.cfg n } = .next t) := by
  unfold storeTrie at h
  split at h
  · next hc => exact .inl ⟨hc, raise_next.mp h⟩
  · next hc => exact .inr ⟨by omega, h⟩

/-! ### The port -/

/-- A register read changes the draw counter only. -/
theorem portRead_frame (s : State) (off : Nat) : AgreeOutside [.draws] s (portRead s off).2 := by
  unfold portRead
  split
  · split
    · intro f hf; cases f <;> first | rfl | simp at hf
    · split
      · intro f hf; cases f <;> first | rfl | simp at hf
      · exact AgreeOutside.refl _ _
  · exact AgreeOutside.refl _ _

/-- A host access in the window is let through with its offset. -/
theorem checkAccess_ok {p : Params} {addr width off : Nat} :
    checkAccess p addr width = .ok off ↔ accessLegal p addr width = true ∧ addr = p.hufBase + off ∧ off < 256 := by
  unfold checkAccess accessLegal
  simp only [Bool.and_eq_true, decide_eq_true_eq]
  constructor
  · intro h
    split at h
    · cases h
    · split at h
      · cases h
      · cases h
        omega
  · rintro ⟨⟨⟨⟨h1, h2⟩, h3⟩, h4⟩, h5, h6⟩
    rw [if_neg (by omega), if_neg (by omega)]
    congr 1
    omega

/-- What a step can do: the host's turn, or the running command. -/
theorem step_cases (s : State) :
    ((s.inReset = true ∨ s.phase = .idle) ∧ step s = hostTurn s)
    ∨ (∃ w a b c k, s.inReset = false ∧ s.phase = .busy w a b c ∧ s.busyLeft = k + 1
        ∧ step s = hostTurn { s with busyLeft := k })
    ∨ (∃ w a b c, s.inReset = false ∧ s.phase = .busy w a b c ∧ s.busyLeft = 0 ∧ step s = runCommand w s) := by
  unfold step advance
  cases hr : s.inReset with
  | true => simp
  | false =>
    cases hp : s.phase with
    | idle => simp
    | busy w a b c =>
      cases hk : s.busyLeft with
      | zero => simp
      | succ k => simp

end Sys2Proof.Machine
end

