-- ==== Sys2Proof/Laws/PerInstr.lean ====
section
/-! SUPPORT. Statements made for every command, one lemma per constructor of Instr: the word of a command is a legal
command word and its opcode is the low byte of that word. -/

namespace Sys2Proof.Laws.Encoding

/-- The command's word has RSVD = 0 and an assigned OPCODE (R300, R320), and OPCODE stands in bits [7:0] (R300). -/
def Statement (i : Instr) : Prop := cmdWordLegal (encode i) = true ∧ opcodeField (encode i) = i.opcode.toNat

theorem nop : Statement .nop := by unfold Statement; decide
theorem clear : Statement .clear := by unfold Statement; decide
theorem obufClr : Statement .obufClr := by unfold Statement; decide
theorem obufPut : Statement .obufPut := by unfold Statement; decide
theorem obufGet : Statement .obufGet := by unfold Statement; decide
theorem ibufClr : Statement .ibufClr := by unfold Statement; decide
theorem ibufPut : Statement .ibufPut := by unfold Statement; decide
theorem ibufGet : Statement .ibufGet := by unfold Statement; decide
theorem seek : Statement .seek := by unfold Statement; decide
theorem xfer : Statement .xfer := by unfold Statement; decide
theorem byteClr : Statement .byteClr := by unfold Statement; decide
theorem bytePut : Statement .bytePut := by unfold Statement; decide
theorem byteGet : Statement .byteGet := by unfold Statement; decide
theorem unaryEnc : Statement .unaryEnc := by unfold Statement; decide
theorem unaryDec : Statement .unaryDec := by unfold Statement; decide
theorem gammaEnc : Statement .gammaEnc := by unfold Statement; decide
theorem gammaDec : Statement .gammaDec := by unfold Statement; decide
theorem txtClr : Statement .txtClr := by unfold Statement; decide
theorem txtPut : Statement .txtPut := by unfold Statement; decide
theorem txtGet : Statement .txtGet := by unfold Statement; decide
theorem bytesToText : Statement .bytesToText := by unfold Statement; decide
theorem textToBytes : Statement .textToBytes := by unfold Statement; decide
theorem freqClr : Statement .freqClr := by unfold Statement; decide
theorem freqCount : Statement .freqCount := by unfold Statement; decide
theorem freqSet : Statement .freqSet := by unfold Statement; decide
theorem freqGet : Statement .freqGet := by unfold Statement; decide
theorem build : Statement .build := by unfold Statement; decide
theorem ctClr : Statement .ctClr := by unfold Statement; decide
theorem ctSet : Statement .ctSet := by unfold Statement; decide
theorem ctGet : Statement .ctGet := by unfold Statement; decide
theorem packTable : Statement .packTable := by unfold Statement; decide
theorem unpackTable : Statement .unpackTable := by unfold Statement; decide
theorem encLetter : Statement .encLetter := by unfold Statement; decide
theorem encText : Statement .encText := by unfold Statement; decide
theorem trieClr : Statement .trieClr := by unfold Statement; decide
theorem trieInsert : Statement .trieInsert := by unfold Statement; decide
theorem trieBuild : Statement .trieBuild := by unfold Statement; decide
theorem decodeOne : Statement .decodeOne := by unfold Statement; decide
theorem decodeAll : Statement .decodeAll := by unfold Statement; decide
theorem nodeGet : Statement .nodeGet := by unfold Statement; decide
theorem pad : Statement .pad := by unfold Statement; decide
theorem unpad : Statement .unpad := by unfold Statement; decide
theorem packBytes : Statement .packBytes := by unfold Statement; decide
theorem unpackBytes : Statement .unpackBytes := by unfold Statement; decide

end Sys2Proof.Laws.Encoding
end

