-- ==== Sys2Proof/Laws/State.lean ====
section
/-! SUPPORT. What each named update of State does to each field, by rfl: later proofs rewrite with these and unfold no
record update. -/

namespace Sys2Proof.Machine

section commit

@[simp] theorem State.commit_cfg (s : State) : (s.commit).cfg = s.cfg := rfl

@[simp] theorem State.commit_inReset (s : State) : (s.commit).inReset = s.inReset := rfl

@[simp] theorem State.commit_phase (s : State) : (s.commit).phase = .idle := rfl

@[simp] theorem State.commit_lastCmd (s : State) : (s.commit).lastCmd = s.lastCmd := rfl

@[simp] theorem State.commit_errCode (s : State) : (s.commit).errCode = 0 := rfl

@[simp] theorem State.commit_errFirst (s : State) : (s.commit).errFirst = s.errFirst := rfl

@[simp] theorem State.commit_overrun (s : State) : (s.commit).overrun = s.overrun := rfl

@[simp] theorem State.commit_ctOor (s : State) : (s.commit).ctOor = s.ctOor := rfl

@[simp] theorem State.commit_opa (s : State) : (s.commit).opa = s.opa := rfl

@[simp] theorem State.commit_opb (s : State) : (s.commit).opb = s.opb := rfl

@[simp] theorem State.commit_opc (s : State) : (s.commit).opc = s.opc := rfl

@[simp] theorem State.commit_result (s : State) : (s.commit).result = s.result := rfl

@[simp] theorem State.commit_result2 (s : State) : (s.commit).result2 = s.result2 := rfl

@[simp] theorem State.commit_obuf (s : State) : (s.commit).obuf = s.obuf := rfl

@[simp] theorem State.commit_ibuf (s : State) : (s.commit).ibuf = s.ibuf := rfl

@[simp] theorem State.commit_icur (s : State) : (s.commit).icur = s.icur := rfl

@[simp] theorem State.commit_txt (s : State) : (s.commit).txt = s.txt := rfl

@[simp] theorem State.commit_bytes (s : State) : (s.commit).bytes = s.bytes := rfl

@[simp] theorem State.commit_freq (s : State) : (s.commit).freq = s.freq := rfl

@[simp] theorem State.commit_ct (s : State) : (s.commit).ct = s.ct := rfl

@[simp] theorem State.commit_node (s : State) : (s.commit).node = s.node := rfl

@[simp] theorem State.commit_host (s : State) : (s.commit).host = s.host := rfl

@[simp] theorem State.commit_latency (s : State) : (s.commit).latency = s.latency := rfl

@[simp] theorem State.commit_busyLeft (s : State) : (s.commit).busyLeft = s.busyLeft := rfl

@[simp] theorem State.commit_rdata (s : State) : (s.commit).rdata = s.rdata := rfl

@[simp] theorem State.commit_draws (s : State) : (s.commit).draws = s.draws := rfl

end commit

section recordError

@[simp] theorem State.recordError_cfg (s : State) (e : ErrKind) : (s.recordError e).cfg = s.cfg := rfl

@[simp] theorem State.recordError_inReset (s : State) (e : ErrKind) : (s.recordError e).inReset = s.inReset := rfl

@[simp] theorem State.recordError_phase (s : State) (e : ErrKind) : (s.recordError e).phase = .idle := rfl

@[simp] theorem State.recordError_lastCmd (s : State) (e : ErrKind) : (s.recordError e).lastCmd = s.lastCmd := rfl

@[simp] theorem State.recordError_errCode (s : State) (e : ErrKind) : (s.recordError e).errCode = e.code := rfl

@[simp] theorem State.recordError_errFirst (s : State) (e : ErrKind) : (s.recordError e).errFirst = if s.errFirst = 0 then e.code else s.errFirst := rfl

@[simp] theorem State.recordError_overrun (s : State) (e : ErrKind) : (s.recordError e).overrun = s.overrun := rfl

@[simp] theorem State.recordError_ctOor (s : State) (e : ErrKind) : (s.recordError e).ctOor = s.ctOor := rfl

@[simp] theorem State.recordError_opa (s : State) (e : ErrKind) : (s.recordError e).opa = s.opa := rfl

@[simp] theorem State.recordError_opb (s : State) (e : ErrKind) : (s.recordError e).opb = s.opb := rfl

@[simp] theorem State.recordError_opc (s : State) (e : ErrKind) : (s.recordError e).opc = s.opc := rfl

@[simp] theorem State.recordError_result (s : State) (e : ErrKind) : (s.recordError e).result = s.result := rfl

@[simp] theorem State.recordError_result2 (s : State) (e : ErrKind) : (s.recordError e).result2 = s.result2 := rfl

@[simp] theorem State.recordError_obuf (s : State) (e : ErrKind) : (s.recordError e).obuf = s.obuf := rfl

@[simp] theorem State.recordError_ibuf (s : State) (e : ErrKind) : (s.recordError e).ibuf = s.ibuf := rfl

@[simp] theorem State.recordError_icur (s : State) (e : ErrKind) : (s.recordError e).icur = s.icur := rfl

@[simp] theorem State.recordError_txt (s : State) (e : ErrKind) : (s.recordError e).txt = s.txt := rfl

@[simp] theorem State.recordError_bytes (s : State) (e : ErrKind) : (s.recordError e).bytes = s.bytes := rfl

@[simp] theorem State.recordError_freq (s : State) (e : ErrKind) : (s.recordError e).freq = s.freq := rfl

@[simp] theorem State.recordError_ct (s : State) (e : ErrKind) : (s.recordError e).ct = s.ct := rfl

@[simp] theorem State.recordError_node (s : State) (e : ErrKind) : (s.recordError e).node = s.node := rfl

@[simp] theorem State.recordError_host (s : State) (e : ErrKind) : (s.recordError e).host = s.host := rfl

@[simp] theorem State.recordError_latency (s : State) (e : ErrKind) : (s.recordError e).latency = s.latency := rfl

@[simp] theorem State.recordError_busyLeft (s : State) (e : ErrKind) : (s.recordError e).busyLeft = s.busyLeft := rfl

@[simp] theorem State.recordError_rdata (s : State) (e : ErrKind) : (s.recordError e).rdata = s.rdata := rfl

@[simp] theorem State.recordError_draws (s : State) (e : ErrKind) : (s.recordError e).draws = s.draws := rfl

end recordError

section clearDatapath

@[simp] theorem State.clearDatapath_cfg (s : State) : (s.clearDatapath).cfg = s.cfg := rfl

@[simp] theorem State.clearDatapath_inReset (s : State) : (s.clearDatapath).inReset = s.inReset := rfl

@[simp] theorem State.clearDatapath_phase (s : State) : (s.clearDatapath).phase = s.phase := rfl

@[simp] theorem State.clearDatapath_lastCmd (s : State) : (s.clearDatapath).lastCmd = s.lastCmd := rfl

@[simp] theorem State.clearDatapath_errCode (s : State) : (s.clearDatapath).errCode = s.errCode := rfl

@[simp] theorem State.clearDatapath_errFirst (s : State) : (s.clearDatapath).errFirst = s.errFirst := rfl

@[simp] theorem State.clearDatapath_overrun (s : State) : (s.clearDatapath).overrun = s.overrun := rfl

@[simp] theorem State.clearDatapath_ctOor (s : State) : (s.clearDatapath).ctOor = false := rfl

@[simp] theorem State.clearDatapath_opa (s : State) : (s.clearDatapath).opa = s.opa := rfl

@[simp] theorem State.clearDatapath_opb (s : State) : (s.clearDatapath).opb = s.opb := rfl

@[simp] theorem State.clearDatapath_opc (s : State) : (s.clearDatapath).opc = s.opc := rfl

@[simp] theorem State.clearDatapath_result (s : State) : (s.clearDatapath).result = 0 := rfl

@[simp] theorem State.clearDatapath_result2 (s : State) : (s.clearDatapath).result2 = 0 := rfl

@[simp] theorem State.clearDatapath_obuf (s : State) : (s.clearDatapath).obuf = [] := rfl

@[simp] theorem State.clearDatapath_ibuf (s : State) : (s.clearDatapath).ibuf = [] := rfl

@[simp] theorem State.clearDatapath_icur (s : State) : (s.clearDatapath).icur = 0 := rfl

@[simp] theorem State.clearDatapath_txt (s : State) : (s.clearDatapath).txt = [] := rfl

@[simp] theorem State.clearDatapath_bytes (s : State) : (s.clearDatapath).bytes = [] := rfl

@[simp] theorem State.clearDatapath_freq (s : State) : (s.clearDatapath).freq = [] := rfl

@[simp] theorem State.clearDatapath_ct (s : State) : (s.clearDatapath).ct = [] := rfl

@[simp] theorem State.clearDatapath_node (s : State) : (s.clearDatapath).node = [Node.blank s.cfg] := rfl

@[simp] theorem State.clearDatapath_host (s : State) : (s.clearDatapath).host = s.host := rfl

@[simp] theorem State.clearDatapath_latency (s : State) : (s.clearDatapath).latency = s.latency := rfl

@[simp] theorem State.clearDatapath_busyLeft (s : State) : (s.clearDatapath).busyLeft = s.busyLeft := rfl

@[simp] theorem State.clearDatapath_rdata (s : State) : (s.clearDatapath).rdata = s.rdata := rfl

@[simp] theorem State.clearDatapath_draws (s : State) : (s.clearDatapath).draws = s.draws := rfl

end clearDatapath

section resetEvent

@[simp] theorem State.resetEvent_cfg (s : State) : (s.resetEvent).cfg = s.cfg := rfl

@[simp] theorem State.resetEvent_inReset (s : State) : (s.resetEvent).inReset = true := rfl

@[simp] theorem State.resetEvent_phase (s : State) : (s.resetEvent).phase = .idle := rfl

@[simp] theorem State.resetEvent_lastCmd (s : State) : (s.resetEvent).lastCmd = 0 := rfl

@[simp] theorem State.resetEvent_errCode (s : State) : (s.resetEvent).errCode = 0 := rfl

@[simp] theorem State.resetEvent_errFirst (s : State) : (s.resetEvent).errFirst = 0 := rfl

@[simp] theorem State.resetEvent_overrun (s : State) : (s.resetEvent).overrun = false := rfl

@[simp] theorem State.resetEvent_ctOor (s : State) : (s.resetEvent).ctOor = false := rfl

@[simp] theorem State.resetEvent_opa (s : State) : (s.resetEvent).opa = 0 := rfl

@[simp] theorem State.resetEvent_opb (s : State) : (s.resetEvent).opb = 0 := rfl

@[simp] theorem State.resetEvent_opc (s : State) : (s.resetEvent).opc = 0 := rfl

@[simp] theorem State.resetEvent_result (s : State) : (s.resetEvent).result = 0 := rfl

@[simp] theorem State.resetEvent_result2 (s : State) : (s.resetEvent).result2 = 0 := rfl

@[simp] theorem State.resetEvent_obuf (s : State) : (s.resetEvent).obuf = [] := rfl

@[simp] theorem State.resetEvent_ibuf (s : State) : (s.resetEvent).ibuf = [] := rfl

@[simp] theorem State.resetEvent_icur (s : State) : (s.resetEvent).icur = 0 := rfl

@[simp] theorem State.resetEvent_txt (s : State) : (s.resetEvent).txt = [] := rfl

@[simp] theorem State.resetEvent_bytes (s : State) : (s.resetEvent).bytes = [] := rfl

@[simp] theorem State.resetEvent_freq (s : State) : (s.resetEvent).freq = [] := rfl

@[simp] theorem State.resetEvent_ct (s : State) : (s.resetEvent).ct = [] := rfl

@[simp] theorem State.resetEvent_node (s : State) : (s.resetEvent).node = [Node.blank s.cfg] := rfl

@[simp] theorem State.resetEvent_host (s : State) : (s.resetEvent).host = s.host := rfl

@[simp] theorem State.resetEvent_latency (s : State) : (s.resetEvent).latency = s.latency := rfl

@[simp] theorem State.resetEvent_busyLeft (s : State) : (s.resetEvent).busyLeft = 0 := rfl

@[simp] theorem State.resetEvent_rdata (s : State) : (s.resetEvent).rdata = s.rdata := rfl

@[simp] theorem State.resetEvent_draws (s : State) : (s.resetEvent).draws = s.draws := rfl

end resetEvent

section issueCmd

@[simp] theorem State.issueCmd_cfg (s : State) (w : Word) : (issueCmd w s).cfg = s.cfg := rfl

@[simp] theorem State.issueCmd_inReset (s : State) (w : Word) : (issueCmd w s).inReset = s.inReset := rfl

@[simp] theorem State.issueCmd_phase (s : State) (w : Word) : (issueCmd w s).phase = .busy w s.opa s.opb s.opc := rfl

@[simp] theorem State.issueCmd_lastCmd (s : State) (w : Word) : (issueCmd w s).lastCmd = w := rfl

@[simp] theorem State.issueCmd_errCode (s : State) (w : Word) : (issueCmd w s).errCode = s.errCode := rfl

@[simp] theorem State.issueCmd_errFirst (s : State) (w : Word) : (issueCmd w s).errFirst = s.errFirst := rfl

@[simp] theorem State.issueCmd_overrun (s : State) (w : Word) : (issueCmd w s).overrun = s.overrun := rfl

@[simp] theorem State.issueCmd_ctOor (s : State) (w : Word) : (issueCmd w s).ctOor = s.ctOor := rfl

@[simp] theorem State.issueCmd_opa (s : State) (w : Word) : (issueCmd w s).opa = s.opa := rfl

@[simp] theorem State.issueCmd_opb (s : State) (w : Word) : (issueCmd w s).opb = s.opb := rfl

@[simp] theorem State.issueCmd_opc (s : State) (w : Word) : (issueCmd w s).opc = s.opc := rfl

@[simp] theorem State.issueCmd_result (s : State) (w : Word) : (issueCmd w s).result = s.result := rfl

@[simp] theorem State.issueCmd_result2 (s : State) (w : Word) : (issueCmd w s).result2 = s.result2 := rfl

@[simp] theorem State.issueCmd_obuf (s : State) (w : Word) : (issueCmd w s).obuf = s.obuf := rfl

@[simp] theorem State.issueCmd_ibuf (s : State) (w : Word) : (issueCmd w s).ibuf = s.ibuf := rfl

@[simp] theorem State.issueCmd_icur (s : State) (w : Word) : (issueCmd w s).icur = s.icur := rfl

@[simp] theorem State.issueCmd_txt (s : State) (w : Word) : (issueCmd w s).txt = s.txt := rfl

@[simp] theorem State.issueCmd_bytes (s : State) (w : Word) : (issueCmd w s).bytes = s.bytes := rfl

@[simp] theorem State.issueCmd_freq (s : State) (w : Word) : (issueCmd w s).freq = s.freq := rfl

@[simp] theorem State.issueCmd_ct (s : State) (w : Word) : (issueCmd w s).ct = s.ct := rfl

@[simp] theorem State.issueCmd_node (s : State) (w : Word) : (issueCmd w s).node = s.node := rfl

@[simp] theorem State.issueCmd_host (s : State) (w : Word) : (issueCmd w s).host = s.host := rfl

@[simp] theorem State.issueCmd_latency (s : State) (w : Word) : (issueCmd w s).latency = s.latency.tail := rfl

@[simp] theorem State.issueCmd_busyLeft (s : State) (w : Word) : (issueCmd w s).busyLeft = s.latency.headD 0 := rfl

@[simp] theorem State.issueCmd_rdata (s : State) (w : Word) : (issueCmd w s).rdata = s.rdata := rfl

@[simp] theorem State.issueCmd_draws (s : State) (w : Word) : (issueCmd w s).draws = s.draws := rfl

end issueCmd

end Sys2Proof.Machine
end

