-- ==== Sys2Proof/Laws/Tables.lean ====
section
/-! SUPPORT. The laws of the memories indexed by letter: read after write, writes elsewhere, and that every operation
keeps the canonical form. -/

namespace Sys2Proof.Machine

variable {α : Type}

theorem keysRising_nil : keysRising ([] : Table α) = true := by simp [keysRising]

theorem keysRising_cons (k : Nat) (v : α) (t : Table α) :
    keysRising ((k, v) :: t) = true ↔ (∀ e ∈ t, k < e.1) ∧ keysRising t = true := by
  simp [keysRising]

/-- A key below every listed one has no entry. -/
theorem tableGet_of_lt (t : Table α) (l : Nat) (h : ∀ e ∈ t, l < e.1) : tableGet t l = none := by
  induction t with
  | nil => rfl
  | cons e t ih =>
    obtain ⟨k, v⟩ := e
    have hk : l < k := h (k, v) (by simp)
    rw [tableGet, if_neg (by omega)]
    exact ih fun e he => h e (by simp [he])

/-- In canonical form, an entry is listed exactly when it is read. -/
theorem tableGet_eq_some_iff (t : Table α) (ht : keysRising t = true) (l : Nat) (v : α) :
    tableGet t l = some v ↔ (l, v) ∈ t := by
  induction t with
  | nil => simp [tableGet]
  | cons e t ih =>
    obtain ⟨k, w⟩ := e
    obtain ⟨hlt, hrest⟩ := (keysRising_cons k w t).mp ht
    by_cases hkl : k = l
    · subst hkl
      have : ∀ x, (k, x) ∉ t := fun x hx => absurd (hlt _ hx) (by simp)
      simp [tableGet, this, eq_comm]
    · have hne : ¬ l = k := fun h => hkl h.symm
      simp [tableGet, hkl, hne, ih hrest]

/-- Read after write. -/
theorem tableGet_tableSet_self (t : Table α) (l : Nat) (x : α) : tableGet (tableSet t l x) l = some x := by
  induction t with
  | nil => simp [tableSet, tableGet]
  | cons e t ih =>
    obtain ⟨k, v⟩ := e
    unfold tableSet
    split
    · simp [tableGet]
    · split
      · simp [tableGet]
      · rw [tableGet, if_neg (by omega)]; exact ih

/-- A write leaves every other letter alone. -/
theorem tableGet_tableSet_other (t : Table α) (l l' : Nat) (x : α) (h : l' ≠ l) :
    tableGet (tableSet t l x) l' = tableGet t l' := by
  induction t with
  | nil => simp [tableSet, tableGet, h.symm]
  | cons e t ih =>
    obtain ⟨k, v⟩ := e
    unfold tableSet
    split
    · rw [tableGet, if_neg (by omega)]
    · split
      · next hlk => subst hlk; simp [tableGet, h.symm]
      · simp only [tableGet, ih]

/-- Every entry after a write is the new one or an old one. -/
theorem mem_tableSet (t : Table α) (l : Nat) (x : α) (e : Nat × α) (h : e ∈ tableSet t l x) :
    e = (l, x) ∨ e ∈ t := by
  induction t with
  | nil => simpa [tableSet] using h
  | cons a t ih =>
    obtain ⟨k, v⟩ := a
    unfold tableSet at h
    split at h
    · simpa using h
    · split at h
      · rcases List.mem_cons.mp h with rfl | h
        · exact .inl rfl
        · exact .inr (by simp [h])
      · rcases List.mem_cons.mp h with rfl | h
        · exact .inr (by simp)
        · rcases ih h with rfl | h
          · exact .inl rfl
          · exact .inr (by simp [h])

/-- A write keeps the canonical order. -/
theorem tableSet_keepsRising (t : Table α) (l : Nat) (x : α) (ht : keysRising t = true) :
    keysRising (tableSet t l x) = true := by
  induction t with
  | nil => simp [tableSet, keysRising]
  | cons a t ih =>
    obtain ⟨k, v⟩ := a
    obtain ⟨hlt, hrest⟩ := (keysRising_cons k v t).mp ht
    unfold tableSet
    split
    · next hl =>
      refine (keysRising_cons _ _ _).mpr ⟨?_, ht⟩
      intro e he
      rcases List.mem_cons.mp he with rfl | he
      · exact hl
      · exact Nat.lt_trans hl (hlt e he)
    · split
      · next heq => subst heq; exact (keysRising_cons _ _ _).mpr ⟨hlt, hrest⟩
      · refine (keysRising_cons _ _ _).mpr ⟨?_, ih hrest⟩
        intro e he
        rcases mem_tableSet t l x e he with rfl | he
        · show k < l
          omega
        · exact hlt e he

/-- Every entry after an erasure is an old one. -/
theorem mem_tableErase (t : Table α) (l : Nat) (e : Nat × α) (h : e ∈ tableErase t l) : e ∈ t := by
  induction t with
  | nil => exact h
  | cons a t ih =>
    obtain ⟨k, v⟩ := a
    unfold tableErase at h
    split at h
    · simp [h]
    · rcases List.mem_cons.mp h with rfl | h
      · simp
      · simp [ih h]

/-- An erasure keeps the canonical order. -/
theorem tableErase_keepsRising (t : Table α) (l : Nat) (ht : keysRising t = true) :
    keysRising (tableErase t l) = true := by
  induction t with
  | nil => exact keysRising_nil
  | cons a t ih =>
    obtain ⟨k, v⟩ := a
    obtain ⟨hlt, hrest⟩ := (keysRising_cons k v t).mp ht
    unfold tableErase
    split
    · exact hrest
    · exact (keysRising_cons _ _ _).mpr ⟨fun e he => hlt e (mem_tableErase t l e he), ih hrest⟩

/-- Read after an erasure, in canonical form. -/
theorem tableGet_tableErase_self (t : Table α) (l : Nat) (ht : keysRising t = true) :
    tableGet (tableErase t l) l = none := by
  induction t with
  | nil => rfl
  | cons a t ih =>
    obtain ⟨k, v⟩ := a
    obtain ⟨hlt, hrest⟩ := (keysRising_cons k v t).mp ht
    unfold tableErase
    split
    · next h => subst h; exact tableGet_of_lt t k hlt
    · next h => rw [tableGet, if_neg h]; exact ih hrest

/-- An erasure leaves every other letter alone. -/
theorem tableGet_tableErase_other (t : Table α) (l l' : Nat) (h : l' ≠ l) :
    tableGet (tableErase t l) l' = tableGet t l' := by
  induction t with
  | nil => rfl
  | cons a t ih =>
    obtain ⟨k, v⟩ := a
    unfold tableErase
    split
    · next hk => subst hk; simp [tableGet, h.symm]
    · simp only [tableGet, ih]

/-- The canonical form of FREQ: keys strictly rising, no count of 0 listed. -/
def countsWf (f : Table Nat) : Bool := keysRising f && f.all (fun e => decide (0 < e.2))

theorem memory_wf_iff (s : State) : Memory.wf s = true ↔ countsWf s.freq = true ∧ keysRising s.ct = true := by
  simp [Memory.wf, countsWf]

/-- `FREQ[l] <- c` keeps the canonical form. -/
theorem countSet_keepsWf (f : Table Nat) (l c : Nat) (h : countsWf f = true) : countsWf (countSet f l c) = true := by
  simp only [countsWf, Bool.and_eq_true, List.all_eq_true, decide_eq_true_eq] at h ⊢
  unfold countSet
  split
  · exact ⟨tableErase_keepsRising f l h.1, fun e he => h.2 e (mem_tableErase f l e he)⟩
  · next hc =>
    refine ⟨tableSet_keepsRising f l c h.1, fun e he => ?_⟩
    rcases mem_tableSet f l c e he with rfl | he
    · exact Nat.pos_of_ne_zero hc
    · exact h.2 e he

/-- Counting a text keeps the canonical form. -/
theorem countText_keepsWf (f : Table Nat) (txt : List Nat) (h : countsWf f = true) :
    countsWf (countText f txt) = true := by
  unfold countText
  induction txt generalizing f with
  | nil => exact h
  | cons l ls ih => exact ih _ (countSet_keepsWf f l _ h)

/-- `FREQ[l]` after `FREQ[l] <- c`. -/
theorem countGet_countSet_self (f : Table Nat) (l c : Nat) (h : countsWf f = true) :
    countGet (countSet f l c) l = c := by
  simp only [countsWf, Bool.and_eq_true] at h
  unfold countGet countSet
  split
  · next hc => simp [tableGet_tableErase_self f l h.1, hc]
  · simp [tableGet_tableSet_self]

/-- `FREQ[l <- c]` leaves every other count alone. -/
theorem countGet_countSet_other (f : Table Nat) (l l' c : Nat) (h : l' ≠ l) :
    countGet (countSet f l c) l' = countGet f l' := by
  unfold countGet countSet
  split
  · rw [tableGet_tableErase_other f l l' h]
  · rw [tableGet_tableSet_other f l l' c h]

/-- The table of a list of entries is in canonical order. -/
theorem tableOf_rising (es : List (Nat × α)) : keysRising (tableOf es) = true := by
  have h : ∀ (es : List (Nat × α)) (t : Table α), keysRising t = true →
      keysRising (es.foldl (fun t e => tableSet t e.1 e.2) t) = true := by
    intro es
    induction es with
    | nil => exact fun t ht => ht
    | cons e es ih => exact fun t ht => ih _ (tableSet_keepsRising t e.1 e.2 ht)
  exact h es [] keysRising_nil

/-- The memory after reset is in canonical form. -/
theorem reset_memory_wf (p : Params) : Memory.wf (State.resetWith p) = true := by
  simp [Memory.wf, State.resetWith, keysRising]

end Sys2Proof.Machine
end

