-- ==== Sys2Proof/Tests/Slice0.lean ====
section
/-! SUPPORT. The model's own tests. Expected values are those of spec/95_test_vectors.md (named T-…) or worked by hand
from the rule cited. A theorem named witness_<statement> shows, clause by clause, that a concrete state meets the
hypotheses of that statement, most with the outcome the spec gives beside it. -/

namespace Sys2Proof.Machine.Tests

-- One theorem after another: checked side by side, the tests ask for more threads than the memory limit lets start.
set_option Elab.async false

/-- The next state of a step or a command, if it answers one. -/
def out (r : Result) : Option State :=
  match r with
  | .next s => some s
  | _ => none

/-- The refusal of a step, if it answers one. -/
def refusal (r : Result) : Option Refusal :=
  match r with
  | .refused x => some x
  | _ => none

/-- The value and the error of an `Except`. -/
def okOf {ε α : Type} : Except ε α → Option α
  | .ok a => some a
  | .error _ => none

def errOf {ε α : Type} : Except ε α → Option ε
  | .ok _ => none
  | .error e => some e

/-- A bit sequence from zeros and ones. -/
def bits (l : List Nat) : Bits := l.map (fun n => decide (n = 1))

/-- The reset state with operands. -/
def ops (a b c : Word) : State := { State.reset with opa := a, opb := b, opc := c }

/-- A small legal instance: 8 bits, 1 byte, 1 letter of text, 1 node, codewords of at most 2 bits. -/
def tiny : Params := { Params.default with bitCap := 8, textCap := 1, nodeCap := 1, maxCwLen := 2 }

/-- The small instance after reset, with operands. -/
def tinyOps (a b c : Word) : State := { State.resetWith tiny with opa := a, opb := b, opc := c }

/-- The table of "banana", CTB of the vectors, and its header HB. -/
def ctb : Table Bits := [(97, bits [0]), (98, bits [1, 0]), (110, bits [1, 1])]

def hb : Bits := bits [0,0,1,0,0, 0,0,0,0,0,0,1,1,0,0,0,1,0, 1, 0, 1, 0,1,0, 1,0, 0,0,0,1,1,0,0, 0,1,0, 1,1]

/-- The letters of "banana" and their payload. -/
def banana : List Nat := [98, 97, 110, 97, 110, 97]

def payload : Bits := bits [1,0,0,1,1,0,1,1,0]

/-- The trie of CTB (T-T12). -/
def trieB : List Node := [{ br0 := 0xFF9E, br1 := 0x0001 }, { br0 := 0xFF9D, br1 := 0xFF91 }]

/-! ### Well-formedness: an ill-formed term for each check -/

theorem test_params_legal : Params.default.legal = true ∧ tiny.legal = true := by decide
theorem test_params_branchW_low : ({ Params.default with branchW := 9 } : Params).legal = false := by decide
theorem test_params_branchW_high : ({ Params.default with branchW := 32 } : Params).legal = false := by decide
theorem test_params_sentinel_low : ({ Params.default with sentinel := 255 } : Params).legal = false := by decide
theorem test_params_sentinel_high : ({ Params.default with sentinel := 32767 } : Params).legal = false := by decide
theorem test_params_nodeCap_low : ({ Params.default with nodeCap := 0 } : Params).legal = false := by decide
theorem test_params_nodeCap_high : ({ Params.default with nodeCap := 32769 } : Params).legal = false := by decide
theorem test_params_maxCwLen_low : ({ Params.default with maxCwLen := 0 } : Params).legal = false := by decide
theorem test_params_maxCwLen_high : ({ Params.default with maxCwLen := 33 } : Params).legal = false := by decide
theorem test_params_bitCap_multiple : ({ Params.default with bitCap := 12 } : Params).legal = false := by decide
theorem test_params_bitCap_low : ({ Params.default with bitCap := 0 } : Params).legal = false := by decide
theorem test_params_bitCap_high : ({ Params.default with bitCap := 2 ^ 32 } : Params).legal = false := by decide
theorem test_params_textCap_low : ({ Params.default with textCap := 0 } : Params).legal = false := by decide
theorem test_params_textCap_high : ({ Params.default with textCap := 2 ^ 32 } : Params).legal = false := by decide
theorem test_params_countW : ({ Params.default with countW := 16, textCap := 8 } : Params).legal = false := by decide
theorem test_params_hufBase : ({ Params.default with hufBase := 4 } : Params).legal = false := by decide

/-- A set RSVD bit and an unassigned opcode are refused; the edges of every range of R320. -/
theorem test_cmd_words : cmdWordLegal 0x00000130 = false ∧ cmdWordLegal 0x80000000 = false
    ∧ ([0x0D, 0x0F, 0x14, 0x1F, 0x25, 0x27, 0x2C, 0x2F, 0x31, 0x3F, 0x47, 0x4F, 0x56, 0x5F, 0x64, 0xFF].all
        fun n => cmdWordLegal (BitVec.ofNat 32 n) == false) = true
    ∧ cmdWordLegal 0x00000063 = true := by decide

/-- A byte access, a misaligned one, one below and one above the window. -/
theorem test_access : accessLegal { tiny with hufBase := 256 } 260 1 = false
    ∧ accessLegal { tiny with hufBase := 256 } 262 4 = false ∧ accessLegal { tiny with hufBase := 256 } 252 4 = false
    ∧ accessLegal { tiny with hufBase := 256 } 512 4 = false ∧ accessLegal { tiny with hufBase := 256 } 508 4 = true := by
  decide

/-! ### Decoding: every command's word, written out from the table of R310 -/

theorem test_decode_control : [0x00, 0x01].map (decodeTableWord 32) = [some .nop, some .clear] := by decide

theorem test_decode_host_buffers :
    [0x02, 0x03, 0x04, 0x05, 0x06, 0x07, 0x08, 0x09, 0x0A, 0x0B, 0x0C].map (decodeTableWord 32)
      = [some .obufClr, some .obufPut, some .obufGet, some .ibufClr, some .ibufPut, some .ibufGet, some .seek,
         some .xfer, some .byteClr, some .bytePut, some .byteGet] := by decide

theorem test_decode_universal : [0x10, 0x11, 0x12, 0x13].map (decodeTableWord 32)
    = [some .unaryEnc, some .unaryDec, some .gammaEnc, some .gammaDec] := by decide

theorem test_decode_alphabet :
    [0x20, 0x21, 0x22, 0x23, 0x24, 0x28, 0x29, 0x2A, 0x2B].map (decodeTableWord 32)
      = [some .txtClr, some .txtPut, some .txtGet, some .bytesToText, some .textToBytes, some .freqClr,
         some .freqCount, some .freqSet, some .freqGet] := by decide

theorem test_decode_builder : decodeTableWord 32 0x30 = some .build := by decide

theorem test_decode_code_table : [0x40, 0x41, 0x42, 0x43, 0x44, 0x45, 0x46].map (decodeTableWord 32)
    = [some .ctClr, some .ctSet, some .ctGet, some .packTable, some .unpackTable, some .encLetter, some .encText] := by
  decide

theorem test_decode_trie : [0x50, 0x51, 0x52, 0x53, 0x54, 0x55].map (decodeTableWord 32)
    = [some .trieClr, some .trieInsert, some .trieBuild, some .decodeOne, some .decodeAll, some .nodeGet] := by decide

theorem test_decode_packer : [0x60, 0x61, 0x62, 0x63].map (decodeTableWord 32)
    = [some .pad, some .unpad, some .packBytes, some .unpackBytes] := by decide

/-- T-E1, T-E2: 0x0D is unassigned; 0x130 has BUILD's opcode but RSVD is not 0. -/
theorem test_decode_illegal : [0x0D, 0x130, 0x14, 0xFF].map (decodeTableWord 32) = [none, none, none, none] := by decide

/-! ### Control and host buffers -/

/-- T-H17. -/
theorem test_nop : (out (exec .nop { State.reset with errCode := 7, errFirst := 7 })).map
    (fun t => (t.errCode, t.errFirst)) = some (0, 7) := by decide

/-- T-H18. -/
theorem test_clear : (out (exec .clear { State.reset with obuf := bits [1], result := 5, errFirst := 4, opa := 9 })).map
    (fun t => (t.obuf, t.result, t.nodes, t.errFirst, t.opa)) = some ([], 0, 1, 4, 9) := by decide

/-- Clauses in order: 33 bits (T-H3); OBUF full; T-H1 and T-H2; IBUF full; R416's example. -/
theorem witness_BitPutsAppendLowBitsHighestFirst :
    32 < (ops 1 33 0).argB.toNat
    ∧ (tiny.bitCap < 6 + 3 ∧ (out (exec .obufPut { tinyOps 1 3 0 with obuf := bits [0,0,0,0,0,0] })).map
        (fun t => (t.errCode, t.obuf.length)) = some (10, 6))
    ∧ (out (exec .obufPut (ops 0x5 3 0))).map (·.obuf) = some (bits [1,0,1])
    ∧ (out (exec .obufPut { ops 0xFFFFFFF2 4 0 with obuf := bits [1] })).map (·.obuf) = some (bits [1,0,0,1,0])
    ∧ (out (exec .obufPut (ops 1 33 0))).map (fun t => (t.errCode, t.obuf)) = some (9, [])
    ∧ (out (exec .ibufPut { tinyOps 1 3 0 with ibuf := bits [0,0,0,0,0,0] })).map (·.errCode) = some 10
    ∧ (out (exec .ibufPut { ops 0x2 2 0 with ibuf := bits [1], icur := 1 })).map (fun t => (t.ibuf, t.icur))
        = some (bits [1,1,0], 1) := by decide

/-- Clauses in order: 33 bits; T-H6; T-H5, T-H7 (off = |OBUF|, n = 0), and a range whose end would wrap. -/
theorem witness_ObufGetReadsMsbFirst :
    32 < (ops 0 33 0).argB.toNat
    ∧ (out (exec .obufGet { ops 4 4 0 with obuf := bits [0,1,1,0,1,0,1] })).map (·.errCode) = some 9
    ∧ (out (exec .obufGet { ops 2 4 0 with obuf := bits [0,1,1,0,1,0,1] })).map (·.result) = some 10
    ∧ (out (exec .obufGet { ops 7 0 0 with obuf := bits [0,1,1,0,1,0,1], result := 5 })).map (·.result) = some 0
    ∧ (out (exec .obufGet { ops 0xFFFFFFFF 2 0 with obuf := bits [0,1,1] })).map (·.errCode) = some 9 := by decide

/-- Clauses in order: 33 bits; T-H9; T-H8, T-H10; T-H12; T-H11; T-H13. -/
theorem witness_CursorCommands :
    32 < (ops 33 0 0).argA.toNat
    ∧ (out (exec .ibufGet { ops 3 0 0 with ibuf := bits [1,0,1,1], icur := 2 })).map (fun t => (t.errCode, t.icur))
        = some (1, 2)
    ∧ (out (exec .ibufGet { ops 3 0 0 with ibuf := bits [1,0,1,1] })).map (fun t => (t.result, t.icur)) = some (5, 3)
    ∧ (out (exec .ibufGet { ops 0 0 0 with ibuf := bits [1,0,1,1], icur := 4 })).map (fun t => (t.result, t.icur))
        = some (0, 4)
    ∧ (out (exec .seek { ops 5 0 0 with ibuf := bits [1,0,1,1], icur := 1 })).map (fun t => (t.errCode, t.icur))
        = some (9, 1)
    ∧ (out (exec .seek { ops 4 0 0 with ibuf := bits [1,0,1,1], icur := 1 })).map (·.icur) = some 4
    ∧ (out (exec .xfer { State.reset with obuf := bits [1,1,0], ibuf := bits [0], icur := 1 })).map
        (fun t => (t.ibuf, t.icur, t.obuf)) = some (bits [1,1,0], 0, bits [1,1,0]) := by decide

/-- Clauses in order: T-H14; the full byte buffer; R421's example; T-A2; the full text; T-A1. -/
theorem witness_BytePutAndTxtPutAppendOneItem :
    (out (exec .bytePut (ops 0x100 0 0))).map (fun t => (t.errCode, t.bytes)) = some (9, [])
    ∧ (out (exec .bytePut { tinyOps 255 0 0 with bytes := [1] })).map (fun t => (t.errCode, t.bytes)) = some (10, [1])
    ∧ (out (exec .bytePut { ops 0x61 0 0 with bytes := [0x62] })).map (·.bytes) = some [0x62, 0x61]
    ∧ (out (exec .txtPut (ops 32767 0 0))).map (fun t => (t.errCode, t.txt)) = some (5, [])
    ∧ (out (exec .txtPut { tinyOps 32766 0 0 with txt := [1] })).map (fun t => (t.errCode, t.txt)) = some (10, [1])
    ∧ (out (exec .txtPut (ops 32766 0 0))).map (·.txt) = some [32766] := by decide

/-- Clauses in order: T-H16; T-H15; T-A12; R604's example; T-T28; T-T27. -/
theorem witness_IndexedReads :
    (out (exec .byteGet { ops 2 0 0 with bytes := [7, 9] })).map (·.errCode) = some 9
    ∧ (out (exec .byteGet { ops 1 0 0 with bytes := [7, 9] })).map (·.result) = some 9
    ∧ (out (exec .txtGet (ops 0 0 0))).map (·.errCode) = some 9
    ∧ (out (exec .txtGet { ops 1 0 0 with txt := [98, 97] })).map (·.result) = some 97
    ∧ (out (exec .nodeGet (ops 1 0 0))).map (·.errCode) = some 9
    ∧ (out (exec .nodeGet (ops 0 0 0))).map (fun t => (t.result, t.result2)) = some (0x8000, 0x8000) := by decide

/-! ### Universal integer codec and packer -/

/-- Clauses in order: unary with no room, and over the capacity; T-U2, T-U1; T-U7; gamma with no room (k = 4); T-U6
(n = 4 and n = 1). -/
theorem witness_UnaryEncAndGammaEncAppendTheCode :
    (out (exec .unaryEnc { tinyOps 7 0 0 with obuf := bits [0] })).map (·.errCode) = some 10
    ∧ (out (exec .unaryEnc (tinyOps 0xFFFFFFFF 0 0))).map (·.errCode) = some 10
    ∧ (out (exec .unaryEnc (ops 3 0 0))).map (·.obuf) = some (bits [1,1,1,0])
    ∧ (out (exec .unaryEnc (ops 0 0 0))).map (·.obuf) = some (bits [0])
    ∧ (out (exec .gammaEnc (ops 0 0 0))).map (·.errCode) = some 9
    ∧ (2 ^ 3 ≤ 8 ∧ 8 < 2 ^ 4 ∧
        (out (exec .gammaEnc { tinyOps 8 0 0 with obuf := bits [0,0] })).map (·.errCode) = some 10)
    ∧ (out (exec .gammaEnc (ops 4 0 0))).map (·.obuf) = some (bits [0,0,1,0,0])
    ∧ (out (exec .gammaEnc (ops 1 0 0))).map (·.obuf) = some (bits [1]) := by decide +kernel

/-- T-U8: the longest gamma code of a register, 31 zeros and 32 ones. -/
theorem test_gammaEnc_max : (out (exec .gammaEnc (ops 0xFFFFFFFF 0 0))).map (·.obuf)
    = some (List.replicate 31 false ++ List.replicate 32 true) := by decide +kernel

/-- First clause: T-U3 and T-P5, with the invariant; second: T-U4 and T-P7. -/
theorem witness_UnaryDecAndUnpadReadAtTheCursor :
    ((bits [1,1,0]).drop 0 = List.replicate 2 true ++ false :: []
      ∧ (out (exec .unaryDec { State.reset with ibuf := bits [1,1,0] })).map (fun t => (t.result, t.icur)) = some (2, 3)
      ∧ ({ State.reset with ibuf := bits [1,1,0] } : State).invCheck = true
      ∧ (out (exec .unpad { State.reset with ibuf := bits [1,1,1,1,1,1,0,1] })).map (fun t => (t.result, t.icur))
        = some (6, 7))
    ∧ ((bits [0,1,1,1]).drop 1 = List.replicate 3 true
      ∧ (out (exec .unaryDec { State.reset with ibuf := bits [0,1,1,1], icur := 1 })).map
        (fun t => (t.errCode, t.icur, t.result)) = some (1, 4, 0)
      ∧ (out (exec .unpad { State.reset with ibuf := bits [1,1,1,1,1,1,1] })).map (fun t => (t.errCode, t.icur))
        = some (1, 7)) := by decide

/-- First clause: T-U9, T-U13 and T-U14; second: T-U11; third: T-U10 and T-U15. -/
theorem witness_GammaDecReadsAtTheCursor :
    ((bits [0,0,1,0,1]).drop 0 = List.replicate 2 false ++ (true :: bits [0,1] ++ [])
      ∧ (out (exec .gammaDec { State.reset with ibuf := bits [0,0,1,0,1] })).map (fun t => (t.result, t.icur))
        = some (5, 5)
      ∧ (out (exec .gammaDec { State.reset with ibuf := List.replicate 31 false ++ List.replicate 32 true })).map
        (fun t => (t.result, t.icur)) = some (0xFFFFFFFF, 63)
      ∧ (out (exec .gammaDec { State.reset with ibuf := List.replicate 32 false ++ true :: List.replicate 32 false })).map
        (fun t => (t.errCode, t.icur)) = some (10, 0))
    ∧ (bits [0,0,0] = List.replicate 3 false
      ∧ (out (exec .gammaDec { State.reset with ibuf := bits [0,0,0] })).map (fun t => (t.errCode, t.icur)) = some (1, 0))
    ∧ ((bits [0,0,1,0]).drop 0 = List.replicate 2 false ++ true :: bits [0]
      ∧ (out (exec .gammaDec { State.reset with ibuf := bits [0,0,1,0] })).map (fun t => (t.errCode, t.icur))
        = some (1, 0)
      ∧ (out (exec .gammaDec { State.reset with ibuf := List.replicate 32 false ++ true :: List.replicate 31 false })).map
        (·.errCode) = some 1) := by decide +kernel

/-- Gamma codes of n >= 1. -/
theorem witness_UniversalCodesAreSelfDelimiting :
    gammaRead (bits [1] ++ gamma 98 ++ bits [1]) 1 = some (98, 7, 14)
    ∧ unaryRead (bits [1] ++ unary 3 ++ bits [1]) 1 = some (3, 5) := by decide +kernel

/-- Both clauses with the invariant: the full OBUF; T-P1, T-P3, and T-P8, T-P10. -/
theorem witness_PadAndPackBytes :
    ({ State.resetWith tiny with obuf := List.replicate 8 true } : State).invCheck = true
    ∧ (out (exec .pad { State.resetWith tiny with obuf := List.replicate 8 true })).map (·.errCode) = some 10
    ∧ (out (exec .packBytes { State.resetWith tiny with obuf := List.replicate 8 true })).map (·.errCode) = some 10
    ∧ ({ State.reset with obuf := bits [1] } : State).invCheck = true
    ∧ (out (exec .pad { State.reset with obuf := bits [1] })).map (fun t => (t.obuf, t.result))
        = some (bits [1,1,1,1,1,1,0,1], 7)
    ∧ (out (exec .pad { State.reset with obuf := bits [1,0,1,1,0,0,1,1] })).map (fun t => (t.obuf, t.result))
        = some (bits [1,1,1,1,1,1,1,0,1,0,1,1,0,0,1,1], 8)
    ∧ (out (exec .packBytes { State.reset with obuf := bits [1] })).map (fun t => (t.bytes, t.result, t.obuf))
        = some ([0xFD], 1, bits [1])
    ∧ (out (exec .packBytes { State.reset with obuf := bits [1,0,1,1,0,0,1,1] })).map (fun t => (t.bytes, t.result))
        = some ([0xFE, 0xB3], 2) := by decide +kernel

/-- T-P11: the 47 bits of "banana". -/
theorem test_packBytes_banana : (out (exec .packBytes { State.reset with obuf := hb ++ payload })).map (·.bytes)
    = some [0x10, 0x0C, 0x55, 0x43, 0x17, 0x36] := by decide +kernel

/-- First clause: T-P12; second: T-P14 and T-P13. -/
theorem witness_UnpackBytesExpandsAndSkipsTheMarker :
    (expandBytes [0xFD] = List.replicate 6 true ++ false :: bits [1]
      ∧ (out (exec .unpackBytes { State.reset with bytes := [0xFD] })).map (fun t => (t.ibuf, t.icur, t.result))
        = some (bits [1,1,1,1,1,1,0,1], 7, 6))
    ∧ (expandBytes [0xFF, 0xFF] = List.replicate 16 true
      ∧ (out (exec .unpackBytes { State.reset with bytes := [0xFF, 0xFF], ibuf := bits [0], icur := 1 })).map
        (fun t => (t.errCode, t.ibuf, t.icur)) = some (1, List.replicate 16 true, 16))
    ∧ (out (exec .unpackBytes State.reset)).map (fun t => (t.errCode, t.icur)) = some (1, 0) := by decide +kernel

/-- A sequence whose length is a multiple of 8. -/
theorem witness_ByteConversionsAreMsbFirstInverses :
    (bits [1,0,1,1,0,0,1,1]).length % 8 = 0 ∧ groupBytes (bits [1,0,1,1,0,0,1,1]) = [0xB3] := by decide

/-! ### Alphabet, text and frequency -/

/-- Clauses in order: bytes that do not fit the text; T-A3; letters that do not fit the bytes; T-A4 and T-A5. -/
theorem witness_BytesAndTextConversions :
    (out (exec .bytesToText { State.resetWith tiny with bytes := [1, 2] })).map (·.errCode) = some 10
    ∧ (out (exec .bytesToText { State.reset with txt := [1], bytes := [0x62, 0x61] })).map (fun t => (t.txt, t.result))
        = some ([98, 97], 2)
    ∧ (out (exec .textToBytes { State.resetWith tiny with txt := [1, 255] })).map (·.errCode) = some 10
    ∧ (out (exec .textToBytes { State.reset with txt := [104, 105, 256] })).map (fun t => (t.bytes, t.result, t.result2))
        = some ([0x68, 0x69], 2, 1)
    ∧ (out (exec .textToBytes { State.reset with txt := [256, 300] })).map (fun t => (t.bytes, t.result, t.result2))
        = some ([], 0, 2) := by decide +kernel

/-- Both clauses with the canonical form: T-A9; T-A10, T-A11, and a count set to 0. -/
theorem witness_FreqSetAndGetOneCount :
    Memory.wf State.reset = true
    ∧ (out (exec .freqSet (ops 32767 4 0))).map (fun t => (t.errCode, t.freq)) = some (5, [])
    ∧ (out (exec .freqGet (ops 32767 4 0))).map (·.errCode) = some 5
    ∧ (out (exec .freqSet (ops 7 0xFFFFFFFF 0))).map (·.freq) = some [(7, 0xFFFFFFFF)]
    ∧ (out (exec .freqGet { ops 97 0 0 with freq := [(97, 3)] })).map (·.result) = some 3
    ∧ (out (exec .freqSet { ops 97 0 0 with freq := [(96, 1), (97, 3)] })).map (·.freq) = some [(96, 1)] := by
  decide +kernel

/-- Both clauses with the canonical form: T-A8; T-A6 and T-A7. -/
theorem witness_FreqCountAddsTheOccurrences :
    Memory.wf { State.reset with txt := [5], freq := [(5, 0xFFFFFFFF)] } = true
    ∧ (out (exec .freqCount { State.reset with txt := [5], freq := [(5, 0xFFFFFFFF)] })).map
        (fun t => (t.errCode, t.freq)) = some (10, [(5, 0xFFFFFFFF)])
    ∧ (out (exec .freqCount { State.reset with txt := banana })).map (fun t => (t.freq, t.result))
        = some ([(97, 3), (98, 1), (110, 2)], 3)
    ∧ (out (exec .freqCount { State.reset with txt := banana, freq := [(97, 3), (98, 1), (110, 2)] })).map
        (fun t => (t.freq, t.result)) = some ([(97, 6), (98, 2), (110, 4)], 3) := by decide +kernel

/-! ### Tree builder -/

/-- Both clauses with the canonical form: a codeword over MAX_CW_LEN = 2; T-B1 and T-B2. -/
theorem witness_BuildStoresTheHuffmanTable :
    Memory.wf { State.resetWith tiny with freq := [(1, 1), (2, 1), (3, 2), (4, 4)] } = true
    ∧ (out (exec .build { State.resetWith tiny with freq := [(1, 1), (2, 1), (3, 2), (4, 4)] })).map
        (fun t => (t.errCode, t.ct)) = some (10, [])
    ∧ (out (exec .build { State.reset with freq := [(97, 3), (98, 1), (110, 2)], ctOor := true })).map
        (fun t => (t.ct, t.result, t.result2, t.ctOor)) = some (ctb, 3, 2, false)
    ∧ (out (exec .build State.reset)).map (fun t => (t.ct, t.result, t.result2)) = some ([], 0, 0) := by decide +kernel

/-- T-B7, T-B8, T-B9: ties and unequal weights. -/
theorem test_build_ties :
    huffman [(65, 10), (66, 1), (67, 1), (68, 1), (69, 1)]
      = [(66, bits [0,0,0]), (67, bits [0,0,1]), (68, bits [0,1,0]), (69, bits [0,1,1]), (65, bits [1])]
    ∧ tableOf (huffman [(1, 1), (2, 1), (3, 2), (4, 3), (5, 5)])
      = [(1, bits [1,1,1,0]), (2, bits [1,1,1,1]), (3, bits [1,1,0]), (4, bits [1,0]), (5, bits [0])] := by
  decide +kernel

/-- The counts of "banana": the participating letters, and their merge run with the table of R720's example. -/
theorem witness_SelectionTakesTheLeastWeightThenSequence_run :
    keysRising [(97, 3), (98, 1), (110, 2)] = true
    ∧ (∀ l c, (l, c) ∈ [(97, 3), (98, 1), (110, 2)]
        ↔ 0 < c ∧ countGet [(97, 3), (98, 1), (110, 2)] l = c)
    ∧ MergeRun 3 ([(97, 3), (98, 1), (110, 2)].zipIdx.map
        (fun x => { weight := x.1.2, seq := x.2, table := [(x.1.1, [])] }))
        [(97, bits [0]), (98, bits [1,0]), (110, bits [1,1])] := by
  refine ⟨by decide, fun l c => ?_, ?_⟩
  · simp only [countGet, tableGet, List.mem_cons, Prod.mk.injEq, List.not_mem_nil, or_false]
    split_ifs <;> simp <;> omega
  · refine .merge 3 _ [⟨3, 0, [(97, [])]⟩] ⟨1, 1, [(98, [])]⟩ ⟨2, 2, [(110, [])]⟩ _ (by decide) (by decide) (by decide) ?_
    exact .merge 4 _ [] ⟨3, 0, [(97, [])]⟩ ⟨3, 3, [(98, [false]), (110, [true])]⟩ _ (by decide) (by decide) (by decide)
      (.last 5 _)

/-- A queue with a tie (T-B6): the earlier of two equal weights is taken. -/
theorem witness_SelectionTakesTheLeastWeightThenSequence :
    takeMin [⟨2, 3, []⟩, ⟨1, 2, []⟩, ⟨1, 1, []⟩] = some (⟨1, 1, []⟩, [⟨2, 3, []⟩, ⟨1, 2, []⟩]) := by decide

/-- Counts in canonical form: n = 3 (T-B6), n = 1 (T-B4). -/
theorem witness_HuffmanTableIsCompleteAndPrefixFree :
    keysRising [(10, 1), (20, 1), (30, 1)] = true
    ∧ huffman [(10, 1), (20, 1), (30, 1)] = [(30, bits [0]), (10, bits [1,0]), (20, bits [1,1])]
    ∧ (huffman [(122, 5)]).length = 1 ∧ huffman [(122, 5)] = [(122, bits [0])] := by decide +kernel

/-! ### Code table -/

/-- Clauses in order: T-C2; T-C3; T-C4; T-C5; T-C8; T-C7; T-C6. -/
theorem witness_CtSetAndCtGetOneEntry :
    (out (exec .ctSet (ops 40000 0 0))).map (·.errCode) = some 3
    ∧ (out (exec .ctSet (ops 40000 1 0))).map (·.errCode) = some 5
    ∧ (out (exec .ctSet (ops 97 33 0))).map (·.errCode) = some 10
    ∧ (out (exec .ctSet { ops 98 3 0xFFFFFFF9 with ct := ctb })).map (·.ct)
        = some [(97, bits [0]), (98, bits [0,0,1]), (110, bits [1,1])]
    ∧ (out (exec .ctGet { ops 32767 0 0 with ct := ctb })).map (·.errCode) = some 5
    ∧ (out (exec .ctGet { ops 99 0 0 with ct := ctb, result := 7 })).map (fun t => (t.result, t.result2, t.errCode))
        = some (0, 0, 0)
    ∧ (out (exec .ctGet { ops 98 0 0 with ct := ctb })).map (fun t => (t.result, t.result2)) = some (2, 2) := by
  decide +kernel

/-- Clauses in order: T-C12; no room; T-C9, T-C10. -/
theorem witness_PackTableAppendsTheHeader :
    (out (exec .packTable { State.reset with ct := ctb, ctOor := true })).map (fun t => (t.errCode, t.obuf)) = some (5, [])
    ∧ (out (exec .packTable { State.resetWith tiny with ct := ctb })).map (·.errCode) = some 10
    ∧ (out (exec .packTable { State.reset with ct := ctb })).map (fun t => (t.obuf, t.result)) = some (hb, 38)
    ∧ (out (exec .packTable State.reset)).map (fun t => (t.obuf, t.result)) = some (bits [1], 1)
    ∧ Memory.wf { State.reset with ct := ctb } = true ∧ gamma 4 ++ headerBody ctb = hb := by decide +kernel

/-- A one-entry body whose length field says 33: storable, and over the default MAX_CW_LEN of 32. -/
def longEntry : List Bool := bits [0,1,0,1,0,0,0,0,0,1,0,0,0,0,1] ++ List.replicate 33 false

/-- A body with one letter of the storable range and one outside it (T-C18). -/
def wideEntry : List Bool := bits [0,1,1, 0,0,1,1,0, 1, 0]
  ++ bits [0,0,0,0,0,0,0,0,0,0,0,0,0,0,0,1,0,0,1,1,1,0,0,0,0,1,1,1,0,1,1, 1, 1]

/-- The failing clauses: T-C16, T-C17; a storable codeword over MAX_CW_LEN (T-C19). -/
theorem witness_UnpackTableReplacesTheCodeTable :
    errOf (unpackTable (bits [0,0,1]) 0) = some .truncatedCode
    ∧ (out (exec .unpackTable { State.reset with ibuf := hb.take 20 })).map (fun t => (t.errCode, t.icur)) = some (2, 0)
    ∧ (out (exec .unpackTable { State.reset with ct := ctb, ibuf := longEntry })).map (fun t => (t.errCode, t.ct, t.icur)) = some (10, ctb, 0) := by
  decide +kernel

/-- The completing clause: T-C13 and T-C18. -/
theorem witness_UnpackTableReplacesTheCodeTable_completes :
    (out (exec .unpackTable { State.reset with ibuf := hb ++ payload })).map (fun t => (t.ct, t.icur)) = some (ctb, 38)
    ∧ (out (exec .unpackTable { State.reset with ibuf := hb ++ payload })).map (fun t => (t.result, t.result2))
        = some (38, 3)
    ∧ (out (exec .unpackTable { State.reset with ct := ctb, ibuf := wideEntry })).map (fun t => (t.ct, t.icur))
        = some ([(5, bits [0])], 43)
    ∧ (out (exec .unpackTable { State.reset with ibuf := hb ++ payload })).map (·.ctOor) = some false
    ∧ (out (exec .unpackTable { State.reset with ibuf := wideEntry })).map (fun t => (t.ctOor, t.result2))
        = some (true, 2) := by decide +kernel

/-- CTB is in canonical order and has no empty codeword. -/
theorem witness_UnpackOfPackGivesTheTableBack :
    keysRising ctb = true ∧ (∀ e ∈ ctb, e.2 ≠ []) ∧ packTable ctb = hb := by decide +kernel

/-- Clauses in order: T-C22; T-C21; a full OBUF; T-C20; T-C24; a full OBUF; T-C23. -/
theorem witness_EncLetterAndEncTextAppendCodewords :
    (out (exec .encLetter { ops 32767 0 0 with ct := ctb })).map (·.errCode) = some 5
    ∧ (out (exec .encLetter { ops 99 0 0 with ct := ctb })).map (·.errCode) = some 6
    ∧ (out (exec .encLetter { tinyOps 98 0 0 with ct := ctb, obuf := List.replicate 7 true })).map (·.errCode) = some 10
    ∧ (out (exec .encLetter { ops 98 0 0 with ct := ctb, obuf := bits [1] })).map (fun t => (t.obuf, t.result))
        = some (bits [1,1,0], 2)
    ∧ (out (exec .encText { State.reset with ct := ctb, txt := [98, 99] })).map (fun t => (t.errCode, t.obuf))
        = some (6, [])
    ∧ (out (exec .encText { State.resetWith tiny with ct := ctb, txt := banana })).map (·.errCode) = some 10
    ∧ banana.map (tableGet ctb) = [bits [1,0], bits [0], bits [1,1], bits [0], bits [1,1], bits [0]].map some
    ∧ (out (exec .encText { State.reset with ct := ctb, txt := banana })).map (fun t => (t.obuf, t.result))
        = some (payload, 9) := by decide +kernel

/-! ### Trie decoder -/

/-- The default slot values of R900: a child, empty, the largest letter (MID + 1) and letter 0 (TOP). -/
theorem witness_SlotDecodingInvertsEncoding :
    Params.default.legal = true ∧ slotOf .default 1 = .child 1 ∧ slotOf .default 0x7FFF = .child 0x7FFF
    ∧ slotOf .default 0x8000 = .empty ∧ encSlot .default (.leaf 32766) = 0x8001
    ∧ slotOf .default 0xFFFF = .leaf 0 ∧ encSlot .default (.leaf 97) = 0xFF9E := by decide

/-- Clauses in order: T-T8; T-T7; T-T9; the walk's errors T-T3 and T-T4; no room for a node; T-T1, T-T2. -/
theorem witness_TrieInsertStoresTheNewTrie :
    (ops 98 2 2).invCheck = true
    ∧ (out (exec .trieInsert (ops 32767 0 0))).map (·.errCode) = some 3
    ∧ (out (exec .trieInsert (ops 32767 1 0))).map (·.errCode) = some 5
    ∧ (out (exec .trieInsert (ops 1 33 0))).map (·.errCode) = some 10
    ∧ (out (exec .trieInsert { ops 98 2 1 with node := [⟨0xFF9E, 0x8000⟩] })).map (fun t => (t.errCode, t.node))
        = some (4, [⟨0xFF9E, 0x8000⟩])
    ∧ (out (exec .trieInsert { ops 98 1 0 with node := [⟨0x0001, 0x8000⟩, ⟨0x8000, 0xFF9E⟩] })).map (·.errCode) = some 4
    ∧ (tinyOps 98 2 2).invCheck = true
    ∧ (out (exec .trieInsert (tinyOps 98 2 2))).map (fun t => (t.errCode, t.nodes)) = some (10, 1)
    ∧ (out (exec .trieInsert (ops 98 2 2))).map (·.node) = some [⟨0x8000, 0x0001⟩, ⟨0xFF9D, 0x8000⟩]
    ∧ (out (exec .trieInsert (ops 5 1 1))).map (·.node) = some [⟨0x8000, 0xFFFA⟩] := by decide +kernel

/-- T-T11: the codeword of 31 zeros and a one for letter 0 makes 32 nodes. -/
theorem test_trieInsert_long : (out (exec .trieInsert (ops 0 32 1))).map
    (fun t => (t.nodes, t.node[30]?, t.node[31]?)) = some (32, some ⟨0x001F, 0x8000⟩, some ⟨0x8000, 0xFFFF⟩) := by
  decide +kernel

/-- Clauses in order: T-T14 and T-T16; T-T15; no room for a node; T-T12, T-T13. -/
theorem witness_TrieBuildStoresTheTrieOfTheTable :
    ({ State.reset with ct := [(1, bits [0]), (2, bits [0,1])], node := [⟨0x8000, 0xFFF6⟩] } : State).invCheck = true
    ∧ (out (exec .trieBuild { State.reset with ct := [(1, bits [0]), (2, bits [0,1])], node := [⟨0x8000, 0xFFF6⟩] })).map
        (fun t => (t.errCode, t.node)) = some (4, [⟨0x8000, 0xFFF6⟩])
    ∧ (out (exec .trieBuild { State.reset with ct := [(1, bits [0]), (2, bits [0,1])], ctOor := true })).map (·.errCode)
        = some 4
    ∧ (out (exec .trieBuild { State.reset with ct := [(1, bits [0])], ctOor := true })).map (·.errCode) = some 5
    ∧ ({ State.resetWith tiny with ct := ctb } : State).invCheck = true
    ∧ (out (exec .trieBuild { State.resetWith tiny with ct := ctb })).map (fun t => (t.errCode, t.nodes)) = some (10, 1)
    ∧ (out (exec .trieBuild { State.reset with ct := ctb })).map (fun t => (t.node, t.result)) = some (trieB, 2)
    ∧ (out (exec .trieBuild State.reset)).map (fun t => (t.node, t.result)) = some ([⟨0x8000, 0x8000⟩], 1) := by
  decide +kernel

/-- The insert machine on a codeword that is accepted and on one that conflicts; the first needs 3 steps more than the
codeword has bits. -/
theorem witness_InsertMachineComputesTrieInsert :
    okOf (trieInsert .default emptyTrie (bits [1,0]) 98) = some [(.empty, .child 1), (.leaf 98, .empty)]
    ∧ insertRun .default (bits [1,0]) 98 5 (.icheck, emptyTrie) = (.idone, [(.empty, .child 1), (.leaf 98, .empty)])
    ∧ (insertRun .default (bits [1,0]) 98 4 (.icheck, emptyTrie)).1 = .ileaf 1
    ∧ errOf (trieInsert .default [(.leaf 97, .empty)] (bits [0,1]) 98) = some .prefixConflict := by decide +kernel

/-- A walk that ends at a leaf and one that does not. -/
theorem witness_DecodeMachineComputesDecodeWalk :
    0 ≤ payload.length ∧ decodeWalk (trieOf .default trieB) payload 0 = some (98, 2)
    ∧ decodeRun (trieOf .default trieB) payload 2 (.dwalk 0 0) = .ddone 98 2
    ∧ decodeWalk (trieOf .default trieB) (bits [1]) 0 = none := by decide +kernel

/-- The trie of CTB, two nodes, meets the invariant and has a walk; a walk on bits cut off has failed after two steps. -/
theorem witness_DecodeWalksEndWithinNodesSteps :
    ({ State.reset with node := trieB } : State).invCheck = true
    ∧ decodeWalk (trieOf .default trieB) payload 0 = some (98, 2)
    ∧ decodeRun (trieOf .default trieB) (bits [1]) 2 (.dwalk 0 0) = .dfail := by decide +kernel

/-- CTB is inserted without error, fits NODE_CAP, and is prefix-free with letters in range; its distinct proper prefixes
are the empty one and `1`. -/
theorem witness_InsertedCodewordsArePrefixFreeAndDecode :
    okOf (insertAll .default emptyTrie ctb) = some [(.leaf 97, .child 1), (.leaf 98, .leaf 110)]
    ∧ Params.default.legal = true ∧ 2 ≤ Params.default.nodeCap
    ∧ (∀ e ∈ ctb, e.2 ≠ [] ∧ e.1 ≤ Params.default.maxLetter)
    ∧ (ctb.map Prod.snd).Pairwise (fun c d => ¬ c <+: d ∧ ¬ d <+: c) := by decide +kernel

/-- Clauses in order: T-T20, T-T22; T-T18; T-T24; letters that do not fit the text; T-T23. -/
theorem witness_DecodeOneAndDecodeAll :
    (out (exec .decodeOne { State.reset with node := trieB, ibuf := bits [1] })).map (fun t => (t.errCode, t.icur))
        = some (7, 0)
    ∧ (out (exec .decodeOne { State.reset with ibuf := bits [1] })).map (·.errCode) = some 7
    ∧ (out (exec .decodeOne { State.reset with node := trieB, ibuf := payload })).map
        (fun t => (t.result, t.result2, t.icur)) = some (98, 2, 2)
    ∧ (out (exec .decodeAll { State.reset with node := trieB, ibuf := payload ++ bits [1] })).map
        (fun t => (t.errCode, t.txt, t.icur)) = some (7, [], 0)
    ∧ (out (exec .decodeAll { State.resetWith tiny with node := trieB, ibuf := payload })).map (·.errCode) = some 10
    ∧ (out (exec .decodeAll { State.reset with node := trieB, ibuf := payload })).map
        (fun t => (t.txt, t.result, t.icur)) = some (banana, 6, 9) := by decide +kernel

/-- `DecodeAll` (R930): at the end of IBUF, where the walk fails, and where it ends at a leaf. -/
theorem witness_DecodeOneAndDecodeAll_decodeAll :
    decodeAll (trieOf .default trieB) payload 9 = some ([], 9)
    ∧ decodeWalk (trieOf .default trieB) (bits [1]) 0 = none
    ∧ decodeWalk (trieOf .default trieB) payload 8 = some (97, 9) ∧ decodeAll (trieOf .default trieB) payload 8 = some ([97], 9)
    ∧ decodeAll (trieOf .default trieB) (bits [1,1]) 0 = some ([110], 2) := by decide +kernel

/-! ### Whole-machine rules -/

/-- A successful command (R400). -/
theorem witness_CommandsWriteOnlyTheirColumn :
    (out (exec .gammaEnc (ops 5 0 0))).map (·.errCode) = some 0 := by decide +kernel

/-- A failing command that keeps a piece of state, with ERR_FIRST 0 and not 0 (T-E3). -/
theorem witness_FailingCommandsAreAllOrNothing :
    (out (exec .unaryDec { State.reset with ibuf := bits [1] })).map (fun t => (t.errCode, t.errFirst, t.icur))
        = some (1, 1, 1)
    ∧ (out (exec .unpackBytes { State.reset with bytes := [0xFF] })).map (fun t => (t.errCode, t.ibuf, t.icur))
        = some (1, bits [1,1,1,1,1,1,1,1], 8)
    ∧ (out (exec .gammaEnc { ops 0 0 0 with errFirst := 8 })).map (fun t => (t.errCode, t.errFirst)) = some (9, 8) := by
  decide

/-- A command that answers a next state with an error of its list, from a state that meets the invariant. -/
theorem witness_CommandsRaiseOnlyTheirKinds :
    (ops 1 0 0).invCheck = true ∧ (out (exec .seek (ops 1 0 0))).map (·.errCode) = some 9 := by decide +kernel

/-- A machine in BUSY with two steps of latency left and no host access. -/
theorem witness_EveryCommandEndsInIdle :
    (out (Host.Core.run core 3 { State.reset with phase := .busy 0x30 0 0 0, busyLeft := 2 })).map (·.phase)
      = some .idle := by decide +kernel

/-! ### The step -/

/-- An illegal word in BUSY (T-E1). -/
theorem witness_IllegalWordsRecordIllegalCommand :
    errOf (decode 0x0000000D) = some .unassignedOpcode
    ∧ (out (step (State.reset.withFetchWord 32 0x0D))).map
        (fun t => (t.errCode, t.errFirst, t.lastCmd, t.phase, t.statusWord)) = some (8, 8, 0x0D, .idle, 6) := by
  decide +kernel

/-- A word in BUSY that decodes, and the step that runs it: PACK_TABLE of the empty table (T-C10). -/
theorem witness_StepRunsTheDecodedCommand :
    (State.reset.withFetchWord 32 0x43).phase = .busy 0x43 0 0 0 ∧ (State.reset.withFetchWord 32 0x43).busyLeft = 0
    ∧ okOf (decode 0x00000043) = some .packTable
    ∧ (out (step (State.reset.withFetchWord 32 0x43))).map (fun t => (t.obuf, t.result)) = some (bits [1], 1) := by
  decide +kernel

/-! ### The host port -/

/-- The reset state with host accesses to come. -/
def hosted (l : List HostOp) : State := { State.reset with host := l }

/-- A machine in BUSY that has some latency left, with host accesses to come. -/
def hostedBusy (l : List HostOp) : State :=
  { hosted l with phase := .busy 0x30 3 0 0, lastCmd := 0x30, opa := 3, busyLeft := 1 }

/-- A CMD write, an ERR_FIRST write (T-E4), operand writes and an ignored write, at the edges of the window. -/
theorem witness_IdleWritesTakeEffect :
    Params.default.legal = true
    ∧ (out (step { hosted [.write 0x08 4 0x30] with opa := 1, opb := 2, opc := 3 })).map
        (fun t => (t.phase, t.lastCmd, t.host)) = some (.busy 0x30 1 2 3, 0x30, [])
    ∧ (out (step { hosted [.write 0x14 4 0x1234] with errFirst := 8, overrun := true })).map
        (fun t => (t.errFirst, t.overrun)) = some (0, false)
    ∧ (out (step (hosted [.write 0x18 4 7]))).map (·.opa) = some 7
    ∧ (out (step (hosted [.write 0x1C 4 7]))).map (·.opb) = some 7
    ∧ (out (step (hosted [.write 0x20 4 7]))).map (·.opc) = some 7
    ∧ out (step (hosted [.write 0x00 4 7])) = some State.reset
    ∧ out (step (hosted [.write 0xFC 4 7])) = some State.reset := by decide +kernel

/-- T-E5, T-E6, and a write to a read-only register in BUSY. -/
theorem witness_BusyWritesAreDropped :
    (out (step (hostedBusy [.write 0x18 4 7]))).map (fun t => (t.opa, t.overrun, t.busyLeft)) = some (3, true, 0)
    ∧ (out (step (hostedBusy [.write 0x08 4 0]))).map (fun t => (t.lastCmd, t.overrun)) = some (0x30, true)
    ∧ (out (step (hostedBusy [.write 0x24 4 7]))).map (fun t => (t.result, t.overrun)) = some (0, false) := by
  decide +kernel

/-- T-E8, T-E9, T-E10 and STATUS of T-E1. -/
theorem witness_IdleReadsFollowTheRegisterMap :
    [0x00, 0x04, 0x48, 0x4C, 0x50, 0x54, 0x58, 0x5C, 0xFC].map
        (fun off => (out (step (hosted [.read off 4]))).map (·.rdata))
      = [some 0x48554631, some 0x00202010, some 0x00800000, some 0x00100000, some 0x00100000, some 0x00000400,
         some 0x00007FFE, some 0, some 0]
    ∧ (out (step { hosted [.read 0x0C 4] with errCode := 8, errFirst := 8 })).map (·.rdata) = some 6
    ∧ ({ hosted [.read 0x44 4] with ct := ctb } : State).invCheck = true
    ∧ (out (step { hosted [.read 0x44 4] with ct := ctb })).map (·.rdata) = some 3 := by decide +kernel

/-- T-E7, and CMD in BUSY. -/
theorem witness_BusyReadsOfTheListedRegistersAreExact :
    (out (step (hostedBusy [.read 0x00 4]))).map (·.rdata) = some 0x48554631
    ∧ (out (step (hostedBusy [.read 0x08 4]))).map (·.rdata) = some 0x30 := by decide +kernel

/-- A read, a WAIT and a CHECK in IDLE, and a read in BUSY. -/
theorem witness_ReadsChangeNoRegister :
    (out (step (hosted [.read 0x10 4]))).map (·.host) = some []
    ∧ (out (step (hosted [.wait]))).map (·.host) = some []
    ∧ (out (step { hosted [.check, .wait] with errCode := 4 })).map (fun t => (t.host, t.rdata)) = some ([], 4)
    ∧ (out (step (hostedBusy [.read 0x58 4]))).map (·.busyLeft) = some 0
    ∧ (out (step (hostedBusy [.wait]))).map (fun t => (t.host, t.draws)) = some ([.wait], 1) := by decide +kernel

/-- A byte access, a misaligned one, one past the window, and the last word of the window. -/
theorem witness_IllFormedAccessesAreRefused :
    refusal (step (hosted [.write 0x18 1 7])) = some .badAccess
    ∧ refusal (step (hosted [.read 0x1A 4])) = some .badAccess
    ∧ refusal (step (hosted [.read 0x100 4])) = some .outsideWindow
    ∧ accessLegal .default 0xFC 4 = true ∧ (out (step (hosted [.read 0xFC 4]))).map (·.rdata) = some 0 := by
  decide +kernel

/-- A reset event in BUSY, and a write during reset. -/
theorem witness_ResetEventRestoresTheResetState :
    (out (step (hostedBusy [.resetAssert]))).map (fun t => (t.phase, t.lastCmd, t.opa, t.inReset))
        = some (.idle, 0, 0, true)
    ∧ (out (step { hosted [.write 0x18 4 7] with inReset := true })).map (fun t => (t.opa, t.overrun, t.host))
        = some (0, false, [])
    ∧ (out (step { hosted [.resetRelease, .wait] with inReset := true })).map (fun t => (t.inReset, t.host))
        = some (false, [.wait])
    ∧ (out (step (hostedBusy [.resetRelease]))).map (fun t => (t.inReset, t.busyLeft)) = some (false, 0) := by decide +kernel

/-! ### Reset and invariants -/

theorem witness_ResetMeetsTheInvariant : Params.default.legal = true ∧ tiny.legal = true := by decide

/-- A state in BUSY that meets the invariant and steps. -/
theorem witness_EveryStepKeepsTheInvariant :
    (hostedBusy []).invCheck = true ∧ ((out (step (hostedBusy []))).map (·.invCheck)) = some true
    ∧ State.reset.invCheck = true := by decide +kernel

theorem witness_NoStepChangesTheParameters : (out (step (hosted [.resetAssert]))).map (·.cfg) = some .default := by
  decide +kernel

/-- ERR_FIRST not 0, and a step that records another error. -/
theorem witness_ErrFirstKeepsTheFirstError :
    (out (step { State.reset.withFetchWord 32 0x12 with errFirst := 8 })).map (fun t => (t.errCode, t.errFirst))
      = some (9, 8) := by decide +kernel

/-- Each of the three clauses has a step: OVERRUN set, OVERRUN cleared (by ERR_FIRST, by reset), CT_OOR changed. -/
theorem witness_FlagsChangeOnlyByTheirEvents :
    (out (step (hostedBusy [.write 0x18 4 7]))).map (·.overrun) = some true
    ∧ (out (step { hosted [.write 0x14 4 0] with overrun := true })).map (·.overrun) = some false
    ∧ (out (step { hosted [.resetAssert] with overrun := true, ctOor := true })).map (fun t => (t.overrun, t.ctOor))
        = some (false, false)
    ∧ (out (step { State.reset.withFetchWord 32 0x40 with ctOor := true })).map (·.ctOor) = some false := by
  decide +kernel

/-! ### Host sequences -/

/-- The accesses of `GAMMA_ENC 5` with a latency of 2: six steps (OPA, CMD, two polls in BUSY, the command, the last
poll). -/
theorem witness_StatementAccessesRunTheCommand :
    (out (Host.Core.run core 6
      { hosted (({ instr := .gammaEnc, a := some 5 } : Stmt).accesses .default) with latency := [2] })).map
      (fun t => (t.obuf, t.host, t.lastCmd)) = some (bits [0,0,1,0,1], [], 0x12)
    ∧ (out (Stmt.run { instr := .gammaEnc, a := some 5 } (hosted []))).map (·.obuf) = some (bits [0,0,1,0,1]) := by
  decide +kernel

/-- Two checked statements of which the first fails (SEEK past the end of IBUF: OPA, CMD, the command, the last poll and
the CHECK are five steps): the rest of the list is dropped. -/
theorem witness_StatementAccessesRunTheCommand_checked :
    (out (Host.Core.run core 5 (hosted (checkedAccesses .default
      [{ instr := .seek, a := some 1 }, { instr := .obufClr }])))).map (fun t => (t.errCode, t.host, t.lastCmd))
      = some (9, [], 0x08)
    ∧ (out (runChecked [{ instr := .seek, a := some 1 }, { instr := .obufClr }] (hosted []))).map (·.errCode) = some 9
    ∧ (compressAccesses .default true).length = 29
    ∧ (out (compress false (hosted []))).map (·.errCode) = some 0
    ∧ (out (decompress (hosted []))).map (·.errCode) = some 1 := by decide +kernel

/-- A COMPRESS that stops (the tiny instance holds no text of two letters) and a DECOMPRESS that stops (T-D1). -/
theorem witness_FailedCallsLeaveTheBytes :
    (out (compress false { State.resetWith tiny with bytes := [1, 2] })).map (fun t => (t.errCode, t.bytes))
      = some (10, [1, 2])
    ∧ (out (decompress { State.reset with bytes := [0x35, 0x52] })).map (fun t => (t.errCode, t.errFirst, t.bytes))
      = some (4, 4, [0x35, 0x52]) := by decide +kernel

/-- T-PROP-1, "a" with and without the sentinel policy, from states that meet the invariant. -/
theorem witness_DecompressOfCompressGivesTheBytesBack :
    ({ State.reset with bytes := [0x61] } : State).invCheck = true ∧ 256 ≤ Params.default.nodeCap
    ∧ (out (compress false { State.reset with bytes := [0x61] })).map (fun t => (t.errCode, t.bytes))
        = some (0, [0xF2, 0x03, 0x14])
    ∧ ({ State.reset with bytes := [0xF2, 0x03, 0x14] } : State).invCheck = true
    ∧ (out (decompress { State.reset with bytes := [0xF2, 0x03, 0x14] })).map (fun t => (t.errCode, t.bytes))
        = some (0, [0x61])
    ∧ (out (compress true { State.reset with bytes := [0x7A, 0x7A, 0x7A, 0x7A, 0x7A] })).map (·.bytes)
        = some [0xFC, 0xC0, 0xF7, 0x80, 0x86, 0xBE] := by decide +kernel

/-- T-PROP-3: "zzzzz" cut by one byte stops at the header; "adcz" cut by one byte gives the empty prefix. -/
theorem witness_TruncatedBuffersGiveAnErrorOrAPrefix :
    (out (compress false { State.reset with bytes := [0x61, 0x64, 0x63, 0x7A] })).map (·.bytes)
        = some [0xF1, 0x40, 0xC4, 0x84, 0x9A, 0x82, 0xCB, 0x27]
    ∧ (out (decompress { State.reset with bytes := [0xF1, 0x40, 0xC4, 0x84, 0x9A, 0x82, 0xCB] })).map
        (fun t => (t.errCode, t.bytes)) = some (0, [])
    ∧ (out (decompress { State.reset with bytes := [0x20, 0x3D] })).map (·.errCode) = some 2 := by decide +kernel

end Sys2Proof.Machine.Tests
end

section
/-! PROOF. How every command can end, once: it returns from staged writes within its `writes` column of R310, or it raises
one of its kinds with nothing staged but what R1111 keeps. What a step keeps follows from this. -/

namespace Sys2Proof.Machine

/-! ### Frames, field by field -/

/-- A frame as one alternative per piece of state, for `simp` to evaluate on a record update. -/
theorem agreeOutside_iff {fs : List Field} {s t : State} :
    AgreeOutside fs s t ↔
      (.cfg ∈ fs ∨ t.cfg = s.cfg) ∧ (.inReset ∈ fs ∨ t.inReset = s.inReset) ∧ (.phase ∈ fs ∨ t.phase = s.phase)
      ∧ (.lastCmd ∈ fs ∨ t.lastCmd = s.lastCmd) ∧ (.errCode ∈ fs ∨ t.errCode = s.errCode)
      ∧ (.errFirst ∈ fs ∨ t.errFirst = s.errFirst) ∧ (.overrun ∈ fs ∨ t.overrun = s.overrun)
      ∧ (.ctOor ∈ fs ∨ t.ctOor = s.ctOor) ∧ (.opa ∈ fs ∨ t.opa = s.opa) ∧ (.opb ∈ fs ∨ t.opb = s.opb)
      ∧ (.opc ∈ fs ∨ t.opc = s.opc) ∧ (.result ∈ fs ∨ t.result = s.result) ∧ (.result2 ∈ fs ∨ t.result2 = s.result2)
      ∧ (.obuf ∈ fs ∨ t.obuf = s.obuf) ∧ (.ibuf ∈ fs ∨ t.ibuf = s.ibuf) ∧ (.icur ∈ fs ∨ t.icur = s.icur)
      ∧ (.txt ∈ fs ∨ t.txt = s.txt) ∧ (.bytes ∈ fs ∨ t.bytes = s.bytes) ∧ (.freq ∈ fs ∨ t.freq = s.freq)
      ∧ (.ct ∈ fs ∨ t.ct = s.ct) ∧ (.node ∈ fs ∨ t.node = s.node) ∧ (.host ∈ fs ∨ t.host = s.host)
      ∧ (.latency ∈ fs ∨ t.latency = s.latency) ∧ (.busyLeft ∈ fs ∨ t.busyLeft = s.busyLeft)
      ∧ (.rdata ∈ fs ∨ t.rdata = s.rdata) ∧ (.draws ∈ fs ∨ t.draws = s.draws) := by
  constructor
  · intro h
    have either (f : Field) : f ∈ fs ∨ Field.same s t f := or_iff_not_imp_left.mpr (h f)
    exact ⟨either .cfg, either .inReset, either .phase, either .lastCmd, either .errCode, either .errFirst,
      either .overrun, either .ctOor, either .opa, either .opb, either .opc, either .result, either .result2,
      either .obuf, either .ibuf, either .icur, either .txt, either .bytes, either .freq, either .ct, either .node,
      either .host, either .latency, either .busyLeft, either .rdata, either .draws⟩
  · intro h f hf
    cases f <;> simp_all [Field.same]

/-! ### The kinds of the functions that answer an error -/

theorem insertWalk_error {t : Trie} {l n : Nat} {c : Bits} {e : ErrKind} (h : insertWalk t l n c = .error e) :
    e = .emptyCodeword ∨ e = .prefixConflict := by
  induction n, c using insertWalk.induct t <;> simp_all [insertWalk]

theorem trieInsert_error {p : Params} {t : Trie} {c : Bits} {l : Nat} {e : ErrKind}
    (h : trieInsert p t c l = .error e) : e ∈ [.emptyCodeword, .letterOutOfRange, .prefixConflict] := by
  unfold trieInsert at h
  split at h
  · cases h; decide
  · split at h
    · cases h; decide
    · rcases insertWalk_error h with rfl | rfl <;> decide

theorem insertAll_error {p : Params} {t : Trie} {es : List (Nat × Bits)} {e : ErrKind}
    (h : insertAll p t es = .error e) : e ∈ [.emptyCodeword, .letterOutOfRange, .prefixConflict] := by
  induction es generalizing t with
  | nil => cases h
  | cons entry es ih =>
    unfold insertAll at h
    split at h
    · next hins => cases h; exact trieInsert_error hins
    · exact ih h

theorem unpackEntries_error {ibuf : Bits} {n base q : Nat} {e : ErrKind}
    (h : unpackEntries ibuf n base q = .error e) : e = .truncatedHeader := by
  induction n generalizing base q with
  | zero => cases h
  | succ n ih =>
    unfold unpackEntries at h
    split at h
    · cases h; rfl
    · split at h
      · cases h; rfl
      · split at h
        · cases h; rfl
        · dsimp only at h
          split at h
          · next hrest => cases h; exact ih hrest
          · cases h

theorem unpackTable_error {ibuf : Bits} {p : Nat} {e : ErrKind} (h : unpackTable ibuf p = .error e) :
    e = .truncatedCode ∨ e = .truncatedHeader := by
  unfold unpackTable at h
  split at h
  · cases h; exact .inl rfl
  · exact .inr (unpackEntries_error h)

/-! ### The end of a command -/

/-- The kinds a command can raise from any state: those of R1102, and EmptyCodeword for TRIE_BUILD, where CT lists an
empty codeword, which the invariant excludes (R156). -/
def kindsFromAnyState : Instr → List ErrKind
  | .trieBuild => .emptyCodeword :: raisesOf .trieBuild
  | i => raisesOf i

/-- `r` is an end command `i` may come to when it is started in `s`. -/
def CommandEnds (i : Instr) (s : State) (r : Result) : Prop :=
  (∃ s', AgreeOutside (writesOf i) s s' ∧ r = ret s')
  ∨ ∃ e ∈ kindsFromAnyState i, ∃ s', AgreeOutside (keptOnError i) s s' ∧ r = raise e s'

/-! The rules below follow a command's own text, one per shared operation: `of_ret` and `of_raise` for its ends, the others
for a check with the rest of the command after it. Frames and kinds are evaluated on the spot. -/

namespace CommandEnds

variable {i : Instr} {s s' : State} {e : ErrKind} {r r' : Result}

theorem of_ret (h : AgreeOutside (writesOf i) s s' := by simp [agreeOutside_iff, writesOf]) :
    CommandEnds i s (ret s') := .inl ⟨s', h, rfl⟩

theorem of_raise (he : e ∈ kindsFromAnyState i := by decide) : CommandEnds i s (raise e s) :=
  .inr ⟨e, he, s, .refl _ _, rfl⟩

theorem of_failAt {p : Nat} (he : e ∈ kindsFromAnyState i := by decide)
    (h : AgreeOutside (keptOnError i) s { s' with icur := p } := by simp [agreeOutside_iff, keptOnError]) :
    CommandEnds i s (failAt e p s') := .inr ⟨e, he, _, h, rfl⟩

theorem of_ite {c : Prop} [Decidable c] (h : CommandEnds i s r) (h' : CommandEnds i s r') :
    CommandEnds i s (if c then r else r') := by
  split
  · exact h
  · exact h'

theorem of_withLetter {l : Nat} {k : Nat → Result} (hk : ∀ l, CommandEnds i s (k l))
    (he : .letterOutOfRange ∈ kindsFromAnyState i := by decide) : CommandEnds i s (withLetter s l k) :=
  of_ite (hk l) (of_raise he)

theorem of_withNbits {n : Nat} {k : Nat → Result} (hk : ∀ n, CommandEnds i s (k n))
    (he : .badOperand ∈ kindsFromAnyState i := by decide) : CommandEnds i s (withNbits s n k) :=
  of_ite (hk n) (of_raise he)

theorem of_withItem {α : Type} {buf : List α} {n : Nat} {k : α → Result} (hk : ∀ x, CommandEnds i s (k x))
    (he : .badOperand ∈ kindsFromAnyState i := by decide) : CommandEnds i s (withItem s buf n k) := by
  unfold withItem
  split
  · exact hk _
  · exact of_raise he

theorem of_withCodeword {k : Nat → Bits → Result} (hk : ∀ l c, CommandEnds i s (k l c))
    (he : ∀ e ∈ [.emptyCodeword, .letterOutOfRange, .capacityExceeded], e ∈ kindsFromAnyState i := by decide) :
    CommandEnds i s (withCodeword s k) :=
  of_ite (of_raise (he _ (by decide)))
    (of_ite (of_ite (of_raise (he _ (by decide))) (hk _ _)) (of_raise (he _ (by decide))))

theorem of_oAppend {bits : Bits} {k : State → Result} (hk : CommandEnds i s (k { s with obuf := s.obuf ++ bits }))
    (he : .capacityExceeded ∈ kindsFromAnyState i := by decide) : CommandEnds i s (oAppend bits s k) :=
  of_ite (of_raise he) hk

theorem of_storeTrie {t : Trie} {k : State → Result} (hk : CommandEnds i s (k { s with node := packTrie s.cfg t }))
    (he : .capacityExceeded ∈ kindsFromAnyState i := by decide) : CommandEnds i s (storeTrie t s k) :=
  of_ite (of_raise he) hk

end CommandEnds

/-! ### The commands that match on an answer -/

open CommandEnds

theorem execCtGet_ends (s : State) : CommandEnds .ctGet s (execCtGet s) := by
  refine of_withLetter fun l => ?_
  split
  · exact of_ret
  · exact of_ret

theorem execEncLetter_ends (s : State) : CommandEnds .encLetter s (execEncLetter s) := by
  refine of_withLetter fun l => ?_
  split
  · exact of_raise
  · exact of_oAppend of_ret

theorem execEncText_ends (s : State) : CommandEnds .encText s (execEncText s) := by
  unfold execEncText
  split
  · exact of_raise
  · exact of_oAppend of_ret

theorem execUnpackTable_ends (s : State) : CommandEnds .unpackTable s (execUnpackTable s) := by
  unfold execUnpackTable
  split
  · next e h => rcases unpackTable_error h with rfl | rfl <;> exact of_raise
  · exact of_ite of_raise of_ret

theorem execTrieInsert_ends (s : State) : CommandEnds .trieInsert s (execTrieInsert s) := by
  refine of_withCodeword fun l c => ?_
  split
  · next e h =>
    have hsub : [.emptyCodeword, .letterOutOfRange, .prefixConflict] ⊆ kindsFromAnyState .trieInsert := by decide
    exact of_raise (hsub (trieInsert_error h))
  · exact of_storeTrie of_ret

theorem execTrieBuild_ends (s : State) : CommandEnds .trieBuild s (execTrieBuild s) := by
  unfold execTrieBuild
  split
  · next e h =>
    have hsub : [.emptyCodeword, .letterOutOfRange, .prefixConflict] ⊆ kindsFromAnyState .trieBuild := by decide
    exact of_raise (hsub (insertAll_error h))
  · exact of_ite of_raise (of_storeTrie of_ret)

theorem execDecodeOne_ends (s : State) : CommandEnds .decodeOne s (execDecodeOne s) := by
  unfold execDecodeOne
  split
  · exact of_raise
  · exact of_ret

theorem execDecodeAll_ends (s : State) : CommandEnds .decodeAll s (execDecodeAll s) := by
  unfold execDecodeAll
  split
  · exact of_raise
  · exact of_ite of_raise of_ret

theorem execUnaryDec_ends (s : State) : CommandEnds .unaryDec s (execUnaryDec s) := by
  unfold execUnaryDec
  split
  · exact of_failAt
  · exact of_ret

theorem execGammaDec_ends (s : State) : CommandEnds .gammaDec s (execGammaDec s) := by
  unfold execGammaDec
  split
  · exact of_raise
  · exact of_ite of_raise of_ret

theorem execUnpad_ends (s : State) : CommandEnds .unpad s (execUnpad s) := by
  unfold execUnpad
  split
  · exact of_failAt
  · exact of_ret

theorem execUnpackBytes_ends (s : State) : CommandEnds .unpackBytes s (execUnpackBytes s) := by
  unfold execUnpackBytes
  dsimp only
  split
  · exact of_failAt
  · exact of_ret

/-! ### Every command -/

/-- Every command ends in one of its ways, from any state; each case follows the command's own sequence of checks (R310,
R1102, R1111). -/
theorem exec_ends (i : Instr) (s : State) : CommandEnds i s (exec i s) := by
  cases i with
  | nop => exact of_ret
  | clear => exact of_ret
  | obufClr => exact of_ret
  | obufPut => exact of_withNbits fun n => of_oAppend of_ret
  | obufGet => exact of_withNbits fun n => of_ite of_raise of_ret
  | ibufClr => exact of_ret
  | ibufPut => exact of_withNbits fun n => of_ite of_raise of_ret
  | ibufGet => exact of_withNbits fun n => of_ite of_raise of_ret
  | seek => exact of_ite of_ret of_raise
  | xfer => exact of_ret
  | byteClr => exact of_ret
  | bytePut => exact of_ite (of_ite of_raise of_ret) of_raise
  | byteGet => exact of_withItem fun b => of_ret
  | unaryEnc => exact of_ite of_raise (of_oAppend of_ret)
  | unaryDec => exact execUnaryDec_ends s
  | gammaEnc => exact of_ite of_raise (of_oAppend of_ret)
  | gammaDec => exact execGammaDec_ends s
  | txtClr => exact of_ret
  | txtPut => exact of_withLetter fun l => of_ite of_raise of_ret
  | txtGet => exact of_withItem fun l => of_ret
  | bytesToText => exact of_ite of_raise of_ret
  | textToBytes => exact of_ite of_raise of_ret
  | freqClr => exact of_ret
  | freqCount => exact of_ite of_raise of_ret
  | freqSet => exact of_withLetter fun l => of_ret
  | freqGet => exact of_withLetter fun l => of_ret
  | build => exact of_ite of_raise of_ret
  | ctClr => exact of_ret
  | ctSet => exact of_withCodeword fun l c => of_ret
  | ctGet => exact execCtGet_ends s
  | packTable => exact of_ite of_raise (of_oAppend of_ret)
  | unpackTable => exact execUnpackTable_ends s
  | encLetter => exact execEncLetter_ends s
  | encText => exact execEncText_ends s
  | trieClr => exact of_ret
  | trieInsert => exact execTrieInsert_ends s
  | trieBuild => exact execTrieBuild_ends s
  | decodeOne => exact execDecodeOne_ends s
  | decodeAll => exact execDecodeAll_ends s
  | nodeGet => exact of_withItem fun n => of_ret
  | pad => exact of_ite of_raise of_ret
  | unpad => exact execUnpad_ends s
  | packBytes => exact of_ite of_raise of_ret
  | unpackBytes => exact execUnpackBytes_ends s

/-- What R1111 keeps of a failing command stands in its `writes` column. -/
theorem keptOnError_subset_writesOf (i : Instr) : ∀ f ∈ keptOnError i, f ∈ writesOf i := by
  cases i <;> decide

/-- A command, ending well or not, changes its `writes` column, the error registers and the phase only. -/
theorem exec_frame {i : Instr} {s t : State} (h : exec i s = .next t) :
    AgreeOutside (writesOf i ++ [.errCode, .errFirst, .phase]) s t := by
  obtain ⟨s', hs', hret⟩ | ⟨e, -, s', hs', hraise⟩ := exec_ends i s
  · obtain rfl := ret_next.mp (hret ▸ h)
    exact (hs'.mono (by simp_all)).trans ((commit_frame s').mono (by simp_all))
  · obtain rfl := raise_next.mp (hraise ▸ h)
    have hkept := hs'.mono (keptOnError_subset_writesOf i)
    exact (hkept.mono (by simp_all)).trans ((recordError_frame s' e).mono (by simp_all))

end Sys2Proof.Machine
end

section
/-! PROOF. The fixed parameters of R20: no command, host access or reset event changes them. -/

namespace Sys2Proof.Machine

theorem cfg_not_mem_writesOf (i : Instr) : .cfg ∉ writesOf i := by
  cases i <;> decide

theorem exec_cfg {i : Instr} {s t : State} (h : exec i s = .next t) : t.cfg = s.cfg :=
  exec_frame h .cfg (by simp [cfg_not_mem_writesOf])

theorem runCommand_cfg {w : Word} {s t : State} (h : runCommand w s = .next t) : t.cfg = s.cfg := by
  unfold runCommand at h
  split at h
  · exact exec_cfg h
  · obtain rfl := raise_next.mp h
    rfl

@[simp] theorem portRead_cfg (s : State) (off : Nat) : (portRead s off).2.cfg = s.cfg :=
  portRead_frame s off .cfg (by decide)

@[simp] theorem writeIdle_cfg (s : State) (off : Nat) (v : Word) : (writeIdle s off v).cfg = s.cfg := by
  unfold writeIdle
  split <;> rfl

@[simp] theorem writeBusy_cfg (s : State) (off : Nat) : (writeBusy s off).cfg = s.cfg := by
  unfold writeBusy
  split <;> rfl

@[simp] theorem portWrite_cfg (s : State) (off : Nat) (v : Word) : (portWrite s off v).cfg = s.cfg := by
  unfold portWrite
  split
  · rfl
  · split
    · exact writeBusy_cfg s off
    · exact writeIdle_cfg s off v

theorem serve_cfg {op : HostOp} {s t : State} (h : serve op s = .next t) : t.cfg = s.cfg := by
  cases op with
  | write addr width v =>
    simp only [serve] at h
    split at h
    · cases h
    · cases h; exact portWrite_cfg s _ v
  | read addr width =>
    simp only [serve] at h
    split at h
    · cases h
    · cases h; exact portRead_cfg s _
  | wait => cases h; exact portRead_cfg s 0x0C
  | check => cases h; exact portRead_cfg s 0x10
  | resetAssert => cases h; exact State.resetEvent_cfg s
  | resetRelease => cases h; rfl

theorem hostTurn_cfg {s t : State} (h : hostTurn s = .next t) : t.cfg = s.cfg := by
  unfold hostTurn at h
  split at h
  · cases h; rfl
  · exact (serve_cfg h :)

/-- Settles O54: a step is the host's turn or the running command, and neither writes `cfg` (R20, R310). -/
theorem noStepChangesTheParameters : Obligations.NoStepChangesTheParameters := by
  intro s t h
  obtain ⟨-, hstep⟩ | ⟨w, a, b, c, k, -, -, -, hstep⟩ | ⟨w, a, b, c, -, -, -, hstep⟩ := step_cases s
  · exact hostTurn_cfg (hstep.symm.trans h)
  · exact (hostTurn_cfg (hstep.symm.trans h) :)
  · exact runCommand_cfg (hstep.symm.trans h)

end Sys2Proof.Machine
end

section
/-! PROOF. What a legal parameter record says (R20), and the trie invariants of R158 in the decoded view of R901: they hold
of the empty root and every insertion keeps them. -/

namespace Sys2Proof.Machine

/-! ### A legal parameter record -/

/-- The ranges of R20 and R201, one by one. -/
structure LegalRanges (p : Params) : Prop where
  branchW : 10 ≤ p.branchW ∧ p.branchW ≤ 31
  sentinel : 255 < p.sentinel ∧ p.sentinel ≤ p.maxLetter
  nodeCap : 1 ≤ p.nodeCap ∧ p.nodeCap ≤ p.mid
  maxCwLen : 1 ≤ p.maxCwLen ∧ p.maxCwLen ≤ 32
  bitCap : p.bitCap % 8 = 0 ∧ 8 ≤ p.bitCap ∧ p.bitCap ≤ 2 ^ 32 - 8
  textCap : 1 ≤ p.textCap ∧ p.textCap ≤ p.maxCount
  countW : p.countW = 32
  hufBase : p.hufBase % 256 = 0

theorem legal_ranges {p : Params} (h : p.legal = true) : LegalRanges p := by
  simp only [Params.legal, Bool.and_eq_true, decide_eq_true_eq, and_assoc] at h
  obtain ⟨hb, hb', hs, hs', hn, hn', hm, hm', hc, hc', hc'', ht, ht', hw, hbase⟩ := h
  exact ⟨⟨hb, hb'⟩, ⟨hs, hs'⟩, ⟨hn, hn'⟩, ⟨hm, hm'⟩, ⟨hc, hc', hc''⟩, ⟨ht, ht'⟩, hw, hbase⟩

theorem mid_range {p : Params} (h : p.legal = true) : 512 ≤ p.mid ∧ p.mid ≤ 2 ^ 30 := by
  obtain ⟨hlow, hhigh⟩ := (legal_ranges h).branchW
  exact ⟨(Nat.pow_le_pow_right (by omega) (by omega) : 2 ^ 9 ≤ p.mid), Nat.pow_le_pow_right (by omega) (by omega)⟩

/-- The slot value space has MID values on either side of its midpoint (R20). -/
theorem top_eq {p : Params} (h : p.legal = true) : p.top = 2 * p.mid - 1 := by
  have hw : p.branchW = p.branchW - 1 + 1 := by have := (legal_ranges h).branchW; omega
  unfold Params.top Params.mid
  rw [hw, Nat.pow_succ]
  simp only [Nat.add_sub_cancel, Nat.mul_comm]

theorem maxCount_eq {p : Params} (h : p.legal = true) : p.maxCount = 2 ^ 32 - 1 := by
  rw [Params.maxCount, (legal_ranges h).countW]

/-! ### Slots -/

/-- What a slot of a trie with `n` nodes holds: nothing, a letter in range, or the index of a node but the root (R158
(a) and (c)). -/
def SlotOk (p : Params) (n : Nat) : Slot → Prop
  | .empty => True
  | .child m => 1 ≤ m ∧ m < n
  | .leaf l => l ≤ p.maxLetter
  | .reserved _ => False

theorem SlotOk.mono {p : Params} {n n' : Nat} {x : Slot} (h : SlotOk p n x) (hn : n ≤ n') : SlotOk p n' x := by
  cases x with
  | child m => exact ⟨h.1, Nat.lt_of_lt_of_le h.2 hn⟩
  | empty => exact h
  | leaf l => exact h
  | reserved raw => exact h

/-- A slot value reads as a child exactly when it is the child's index (R900). -/
theorem slotOf_eq_child_iff {p : Params} {v c : Nat} (hc : 1 ≤ c) (hmid : c < p.mid) :
    slotOf p v = .child c ↔ v = c := by
  unfold slotOf
  split
  · simp; omega
  · split
    · simp
    · split
      · simp; omega
      · split
        · simp; omega
        · simp; omega

/-- The values R158 (a) and (c) allow are those that decode to what a slot may hold. -/
theorem slotOk_slotOf_iff {p : Params} (hp : p.legal = true) {n v : Nat} (hn : n ≤ p.mid) :
    SlotOk p n (slotOf p v) ↔ v = p.emptySlot ∨ (p.mid < v ∧ v ≤ p.top) ∨ (1 ≤ v ∧ v < n) := by
  have hmid := mid_range hp
  have htop := top_eq hp
  unfold slotOf Params.emptySlot
  split
  · simp only [SlotOk, false_iff]; omega
  · split
    · simp only [SlotOk]; omega
    · split
      · simp only [SlotOk, true_iff]; omega
      · split
        · simp only [SlotOk, Params.maxLetter]; omega
        · simp only [SlotOk, false_iff]; omega

/-- What a slot may hold is read back from its packed form (R901). -/
theorem slotOf_encSlot {p : Params} (hp : p.legal = true) {n : Nat} (hn : n ≤ p.mid) {x : Slot} (hx : SlotOk p n x) :
    slotOf p (encSlot p x) = x := by
  have hmid := mid_range hp
  have htop := top_eq hp
  cases x with
  | empty => simp [encSlot, slotOf, Params.emptySlot]; omega
  | child m =>
    obtain ⟨hm, hlt⟩ := hx
    exact (slotOf_eq_child_iff hm (by omega)).mpr rfl
  | leaf l =>
    have hl : l ≤ p.mid - 2 := hx
    have henc : encSlot p (.leaf l) = p.top - l := rfl
    rw [henc, slotOf, Params.emptySlot, if_neg (by omega), if_neg (by omega), if_neg (by omega), if_pos (by omega)]
    congr 1
    omega
  | reserved raw => exact hx.elim

/-! ### The slots of a trie -/

/-- All slots of a trie, node by node: the decoded view of `allSlots`. -/
def trieSlots (t : Trie) : List Slot := t.flatMap (fun n => [n.1, n.2])

@[simp] theorem trieSlots_nil : trieSlots [] = [] := rfl

@[simp] theorem trieSlots_cons (nd : Slot × Slot) (t : Trie) : trieSlots (nd :: t) = nd.1 :: nd.2 :: trieSlots t := rfl

@[simp] theorem trieSlots_append (t u : Trie) : trieSlots (t ++ u) = trieSlots t ++ trieSlots u :=
  List.flatMap_append

@[simp] theorem length_trieOf (p : Params) (ns : List Node) : (trieOf p ns).length = ns.length := List.length_map ..

@[simp] theorem length_packTrie (p : Params) (t : Trie) : (packTrie p t).length = t.length := List.length_map ..

/-- Decoding a node memory decodes its slots. -/
theorem trieSlots_trieOf (p : Params) (ns : List Node) : trieSlots (trieOf p ns) = (allSlots ns).map (slotOf p) := by
  simp [trieSlots, trieOf, allSlots, List.flatMap_map, List.map_flatMap]

theorem pickSlot_mem_trieSlots {t : Trie} {nd : Slot × Slot} (h : nd ∈ t) (b : Bool) : pickSlot nd b ∈ trieSlots t := by
  refine List.mem_flatMap.mpr ⟨nd, h, ?_⟩
  cases b <;> simp [pickSlot]

theorem trieSlot_mem {t : Trie} {n : Nat} (h : n < t.length) (b : Bool) : trieSlot t n b ∈ trieSlots t := by
  simp only [trieSlot, List.getElem?_eq_getElem h]
  exact pickSlot_mem_trieSlots (List.getElem_mem h) b

/-- A slot that does not read as Reserved stands in an allocated node. -/
theorem lt_length_of_trieSlot {t : Trie} {n : Nat} {b : Bool} {x : Slot} (h : trieSlot t n b = x)
    (hx : ∀ raw, x ≠ .reserved raw) : n < t.length := by
  by_contra hn
  exact hx 0 (by rw [← h, trieSlot, List.getElem?_eq_none (by omega)])

@[simp] theorem length_setTrieSlot (t : Trie) (n : Nat) (b : Bool) (x : Slot) : (setTrieSlot t n b x).length = t.length :=
  List.length_modify ..

@[simp] theorem length_growTrie (t : Trie) (n : Nat) (b : Bool) : (growTrie t n b).length = t.length + 1 := by
  simp [growTrie]

/-- A slot after a write is the new one or an old one. -/
theorem mem_trieSlots_setTrieSlot {t : Trie} {n : Nat} {b : Bool} {x y : Slot}
    (h : y ∈ trieSlots (setTrieSlot t n b x)) : y = x ∨ y ∈ trieSlots t := by
  induction t generalizing n with
  | nil => simp [setTrieSlot] at h
  | cons nd t ih =>
    cases n with
    | zero =>
      cases b <;> simp [setTrieSlot, putSlot] at h ⊢ <;> tauto
    | succ n =>
      simp only [setTrieSlot, List.modify_succ_cons, trieSlots_cons, List.mem_cons] at h ⊢
      rcases h with h | h | h
      · exact .inr (.inl h)
      · exact .inr (.inr (.inl h))
      · exact (ih h).imp_right fun h => .inr (.inr h)

/-- Replacing a slot takes its old content away once and adds the new one once. -/
theorem count_setTrieSlot (t : Trie) (n : Nat) (b : Bool) (x y : Slot) (h : n < t.length) :
    (trieSlots (setTrieSlot t n b x)).count y + (if trieSlot t n b = y then 1 else 0)
      = (trieSlots t).count y + (if x = y then 1 else 0) := by
  induction t generalizing n with
  | nil => simp at h
  | cons nd t ih =>
    cases n with
    | zero =>
      cases b <;> simp [setTrieSlot, putSlot, trieSlot, pickSlot, List.count_cons] <;> omega
    | succ n =>
      have hrest := ih n (by simpa using h)
      have hset : setTrieSlot (nd :: t) (n + 1) b x = nd :: setTrieSlot t n b x := rfl
      have hslot : trieSlot (nd :: t) (n + 1) b = trieSlot t n b := rfl
      rw [hset, hslot]
      simp only [trieSlots_cons, List.count_cons]
      omega

/-- A write of one slot that neither held nor gets `y` leaves the number of slots with `y` as it was, in the trie and in
every part of it from the root on. -/
theorem count_take_setTrieSlot_of_ne {t : Trie} {n c : Nat} {b : Bool} {x y : Slot} (hold : trieSlot t n b ≠ y)
    (hnew : x ≠ y) :
    (trieSlots ((setTrieSlot t n b x).take c)).count y = (trieSlots (t.take c)).count y := by
  have htake : (setTrieSlot t n b x).take c = setTrieSlot (t.take c) n b x := List.take_modify ..
  rw [htake]
  by_cases hn : n < (t.take c).length
  · have hcount := count_setTrieSlot (t.take c) n b x y hn
    have hslot : trieSlot (t.take c) n b = trieSlot t n b := by
      simp only [List.length_take] at hn
      simp only [trieSlot, List.getElem?_take_of_lt (show n < c by omega)]
    rw [hslot, if_neg hold, if_neg hnew] at hcount
    exact hcount
  · rw [setTrieSlot, List.modify_eq_self (by omega)]

/-- The same of the whole trie. -/
theorem count_setTrieSlot_of_ne {t : Trie} {n : Nat} {b : Bool} {x y : Slot} (hold : trieSlot t n b ≠ y)
    (hnew : x ≠ y) : (trieSlots (setTrieSlot t n b x)).count y = (trieSlots t).count y := by
  simpa [List.take_of_length_le] using count_take_setTrieSlot_of_ne (c := t.length) hold hnew

/-! ### The invariants of R158 in the decoded view -/

/-- The trie invariants of R158 for a trie in its decoded view, without a bound on the number of nodes. -/
structure TrieWf (p : Params) (t : Trie) : Prop where
  root : 1 ≤ t.length
  slots : ∀ x ∈ trieSlots t, SlotOk p t.length x
  parents : ∀ c, 1 ≤ c → c < t.length →
    (trieSlots t).count (.child c) = 1 ∧ (trieSlots (t.take c)).count (.child c) = 1

/-- A node memory meets R158 exactly when it fits and its decoded view does. -/
theorem trieInv_iff {p : Params} (hp : p.legal = true) (ns : List Node) :
    TrieInv p ns ↔ ns.length ≤ p.nodeCap ∧ TrieWf p (trieOf p ns) := by
  have hcap := (legal_ranges hp).nodeCap
  have hcount (ms : List Node) {c : Nat} (hc : 1 ≤ c) (hmid : c < p.mid) :
      (trieSlots (trieOf p ms)).count (.child c) = (allSlots ms).count c := by
    rw [trieSlots_trieOf, List.count, List.count, List.countP_map]
    refine List.countP_congr fun v _ => ?_
    simpa using slotOf_eq_child_iff hc hmid
  have htake (c : Nat) : (trieOf p ns).take c = trieOf p (ns.take c) := (List.map_take ..).symm
  constructor
  · rintro ⟨hroot, hfits, hslots, hparents⟩
    refine ⟨hfits, by simpa using hroot, fun x hx => ?_, fun c hc hlt => ?_⟩
    · rw [trieSlots_trieOf] at hx
      obtain ⟨v, hv, rfl⟩ := List.mem_map.mp hx
      rw [length_trieOf]
      exact (slotOk_slotOf_iff hp (by omega)).mpr (hslots v hv)
    · rw [length_trieOf] at hlt
      rw [htake, hcount _ hc (by omega), hcount _ hc (by omega)]
      exact hparents c hc hlt
  · rintro ⟨hfits, hroot, hslots, hparents⟩
    rw [length_trieOf] at hroot
    refine ⟨hroot, hfits, fun v hv => ?_, fun c hc hlt => ?_⟩
    · have hok := hslots (slotOf p v) (by rw [trieSlots_trieOf]; exact List.mem_map_of_mem hv)
      rw [length_trieOf] at hok
      exact (slotOk_slotOf_iff hp (by omega)).mp hok
    · have hpar := hparents c hc (by rwa [length_trieOf])
      rwa [htake, hcount _ hc (by omega), hcount _ hc (by omega)] at hpar

/-- A trie that fits NODE_CAP is read back from the node memory that holds it (R901). -/
theorem trieOf_packTrie {p : Params} (hp : p.legal = true) {t : Trie} (ht : TrieWf p t) (hfits : t.length ≤ p.nodeCap) :
    trieOf p (packTrie p t) = t := by
  have hmid : t.length ≤ p.mid := hfits.trans (legal_ranges hp).nodeCap.2
  have hback : ∀ nd ∈ t, ((slotOf p (encSlot p nd.1), slotOf p (encSlot p nd.2)) : Slot × Slot) = nd := by
    intro nd hnd
    exact Prod.ext (slotOf_encSlot hp hmid (ht.slots _ (pickSlot_mem_trieSlots hnd false)))
      (slotOf_encSlot hp hmid (ht.slots _ (pickSlot_mem_trieSlots hnd true)))
  simp only [trieOf, packTrie, List.map_map]
  exact (List.map_congr_left hback).trans (List.map_id t)

/-- The node memory that holds a trie meets R158 (R913, R915). -/
theorem trieInv_packTrie {p : Params} (hp : p.legal = true) {t : Trie} (ht : TrieWf p t) (hfits : t.length ≤ p.nodeCap) :
    TrieInv p (packTrie p t) := by
  rw [trieInv_iff hp, trieOf_packTrie hp ht hfits, length_packTrie]
  exact ⟨hfits, ht⟩

theorem trieWf_emptyTrie (p : Params) : TrieWf p emptyTrie := by
  refine ⟨by decide, fun x hx => ?_, fun c hc hlt => ?_⟩
  · obtain rfl : x = .empty := by simpa [emptyTrie] using hx
    trivial
  · have : c < 1 := hlt
    omega

/-- A fresh root meets R158 (R910). -/
theorem trieInv_blank {p : Params} (hp : p.legal = true) : TrieInv p [Node.blank p] :=
  trieInv_packTrie hp (trieWf_emptyTrie p) (legal_ranges hp).nodeCap.1

section
variable {p : Params} {t : Trie} {n m l : Nat} {b : Bool} (ht : TrieWf p t)
include ht

/-- A child's index exceeds its parent's, and is allocated (R158 (b) and (c)). -/
theorem TrieWf.child_range (h : trieSlot t n b = .child m) : n < m ∧ m < t.length := by
  have hn : n < t.length := lt_length_of_trieSlot h (by simp)
  obtain ⟨hm, hlt⟩ : 1 ≤ m ∧ m < t.length := by
    have := ht.slots _ (trieSlot_mem hn b)
    rwa [h] at this
  refine ⟨?_, hlt⟩
  by_contra hge
  obtain ⟨hone, hbefore⟩ := ht.parents m hm hlt
  have hafter : .child m ∈ trieSlots (t.drop m) := by
    have hdrop : trieSlot (t.drop m) (n - m) b = .child m := by
      rw [← h, trieSlot, List.getElem?_drop, trieSlot, Nat.add_sub_cancel' (by omega)]
    rw [← hdrop]
    exact trieSlot_mem (by rw [List.length_drop]; omega) b
  have hsplit : (trieSlots t).count (.child m)
      = (trieSlots (t.take m)).count (.child m) + (trieSlots (t.drop m)).count (.child m) := by
    rw [← List.count_append, ← trieSlots_append, List.take_append_drop]
  have := List.count_pos_iff.mpr hafter
  omega

theorem TrieWf.leaf_range (h : trieSlot t n b = .leaf l) : l ≤ p.maxLetter := by
  have := ht.slots _ (trieSlot_mem (lt_length_of_trieSlot h (by simp)) b)
  rwa [h] at this

/-- Filling an empty slot with a letter in range keeps the invariants. -/
theorem TrieWf.setLeaf (hempty : trieSlot t n b = .empty) (hl : l ≤ p.maxLetter) :
    TrieWf p (setTrieSlot t n b (.leaf l)) := by
  refine ⟨by simpa using ht.root, fun x hx => ?_, fun c hc hlt => ?_⟩
  · rw [length_setTrieSlot]
    rcases mem_trieSlots_setTrieSlot hx with rfl | hx
    · exact hl
    · exact ht.slots x hx
  · rw [length_setTrieSlot] at hlt
    rw [count_setTrieSlot_of_ne (by simp [hempty]) (by simp), count_take_setTrieSlot_of_ne (by simp [hempty]) (by simp)]
    exact ht.parents c hc hlt

/-- No slot points at a node that is not allocated. -/
theorem TrieWf.count_child_length : (trieSlots t).count (.child t.length) = 0 :=
  List.count_eq_zero.mpr fun h => absurd (ht.slots _ h).2 (Nat.lt_irrefl _)

/-- Linking an empty slot to a new node keeps the invariants. -/
theorem TrieWf.grow (hempty : trieSlot t n b = .empty) : TrieWf p (growTrie t n b) := by
  have hn : n < t.length := lt_length_of_trieSlot hempty (by simp)
  have hnew (c : Nat) : (trieSlots [((.empty, .empty) : Slot × Slot)]).count (.child c) = 0 := by simp
  refine ⟨by simp, fun x hx => ?_, fun c hc hlt => ?_⟩
  · rw [length_growTrie]
    simp only [growTrie, trieSlots_append, List.mem_append] at hx
    rcases hx with hx | hx
    · rcases mem_trieSlots_setTrieSlot hx with rfl | hx
      · exact ⟨ht.root, Nat.lt_succ_self _⟩
      · exact (ht.slots x hx).mono (Nat.le_succ _)
    · obtain rfl : x = .empty := by simpa using hx
      trivial
  · rw [length_growTrie] at hlt
    have htake : (growTrie t n b).take c = (setTrieSlot t n b (.child t.length)).take c :=
      List.take_append_of_le_length (by simpa using Nat.le_of_lt_succ hlt)
    rw [htake, growTrie, trieSlots_append, List.count_append, hnew, Nat.add_zero]
    rcases Nat.lt_succ_iff_lt_or_eq.mp hlt with hlt | rfl
    · rw [count_setTrieSlot_of_ne (by simp [hempty]) (by simp; omega),
        count_take_setTrieSlot_of_ne (by simp [hempty]) (by simp; omega)]
      exact ht.parents c hc hlt
    · have hone : (trieSlots (setTrieSlot t n b (.child t.length))).count (.child t.length) = 1 := by
        have := count_setTrieSlot t n b (.child t.length) (.child t.length) hn
        rw [ht.count_child_length, if_neg (by simp [hempty]), if_pos rfl] at this
        exact this
      rw [List.take_of_length_le (by simp)]
      exact ⟨hone, hone⟩

end

/-- The node that growth allocates is empty. -/
theorem trieSlot_growTrie_new (t : Trie) (n : Nat) (b b' : Bool) : trieSlot (growTrie t n b) t.length b' = .empty := by
  rw [growTrie, trieSlot, List.getElem?_append_right (by simp)]
  cases b' <;> simp [pickSlot]

theorem TrieWf.extend {p : Params} {l : Nat} (hl : l ≤ p.maxLetter) {t : Trie} (ht : TrieWf p t) {n : Nat} {c : Bits}
    (hempty : ∀ b ∈ c.head?, trieSlot t n b = .empty) : TrieWf p (extendTrie l t n c) := by
  induction t, n, c using extendTrie.induct with
  | case1 t n => exact ht
  | case2 t n b => exact ht.setLeaf (hempty b rfl) hl
  | case3 t n b b' bs ih =>
    exact ih (ht.grow (hempty b rfl)) fun x _ => trieSlot_growTrie_new t n b x

theorem TrieWf.insertWalk {p : Params} {l : Nat} (hl : l ≤ p.maxLetter) {t t' : Trie} (ht : TrieWf p t) {n : Nat}
    {c : Bits} (h : insertWalk t l n c = .ok t') : TrieWf p t' := by
  induction n, c using insertWalk.induct t with
  | case1 n => cases h
  | case2 n b hempty =>
    rw [Machine.insertWalk, hempty] at h
    cases h
    exact ht.setLeaf hempty hl
  | case6 n b b' bs m hchild ih =>
    rw [Machine.insertWalk, hchild] at h
    exact ih h
  | case9 n b b' bs hempty =>
    rw [Machine.insertWalk, hempty] at h
    cases h
    refine ht.extend hl fun x hx => ?_
    cases hx
    exact hempty
  | case3 n b m hslot => simp [Machine.insertWalk, hslot] at h
  | case4 n b l' hslot => simp [Machine.insertWalk, hslot] at h
  | case5 n b raw hslot => simp [Machine.insertWalk, hslot] at h
  | case7 n b b' bs l' hslot => simp [Machine.insertWalk, hslot] at h
  | case8 n b b' bs raw hslot => simp [Machine.insertWalk, hslot] at h

/-- Every insertion keeps the invariants of R158 (R911). -/
theorem TrieWf.trieInsert {p : Params} {t t' : Trie} {c : Bits} {l : Nat} (ht : TrieWf p t)
    (h : trieInsert p t c l = .ok t') : TrieWf p t' := by
  unfold Machine.trieInsert at h
  split at h
  · cases h
  · split at h
    · cases h
    · next hl => exact ht.insertWalk (by omega) h

theorem TrieWf.insertAll {p : Params} {es : List (Nat × Bits)} {t t' : Trie} (ht : TrieWf p t)
    (h : insertAll p t es = .ok t') : TrieWf p t' := by
  induction es generalizing t with
  | nil => cases h; exact ht
  | cons e es ih =>
    unfold Machine.insertAll at h
    split at h
    · cases h
    · next hins => exact ih (ht.trieInsert hins) h

end Sys2Proof.Machine
end

section
/-! PROOF. Decode walks under the trie invariants: each step goes to a node with a greater index (R158, R920). -/

namespace Sys2Proof.Machine

theorem decodeRun_ddone (t : Trie) (ibuf : Bits) (l j k : Nat) : decodeRun t ibuf k (.ddone l j) = .ddone l j := by
  induction k with
  | zero => rfl
  | succ k ih => exact ih

theorem decodeRun_dfail (t : Trie) (ibuf : Bits) (k : Nat) : decodeRun t ibuf k .dfail = .dfail := by
  induction k with
  | zero => rfl
  | succ k ih => exact ih

/-- A step of the walk that does not end it follows a child. -/
theorem decodeStep_cases (t : Trie) (ibuf : Bits) (n j : Nat) :
    (∃ b m, trieSlot t n b = .child m ∧ decodeStep t ibuf (.dwalk n j) = .dwalk m (j + 1))
    ∨ (∃ l, decodeStep t ibuf (.dwalk n j) = .ddone l (j + 1)) ∨ decodeStep t ibuf (.dwalk n j) = .dfail := by
  rw [decodeStep]
  split
  · exact .inr (.inr rfl)
  · next b _ =>
    split
    · next m hm => exact .inl ⟨b, m, hm, rfl⟩
    · next l _ => exact .inr (.inl ⟨l, rfl⟩)
    · exact .inr (.inr rfl)
    · exact .inr (.inr rfl)

section
variable {p : Params} {t : Trie} (ht : TrieWf p t)
include ht

/-- A walk that is still going after `k` steps has gone up by `k` indices at least. -/
theorem TrieWf.decodeRun_dwalk {ibuf : Bits} {k n j n' j' : Nat} (hn : n < t.length)
    (h : decodeRun t ibuf k (.dwalk n j) = .dwalk n' j') : n + k ≤ n' ∧ n' < t.length := by
  induction k generalizing n j with
  | zero => cases h; exact ⟨Nat.le_refl _, hn⟩
  | succ k ih =>
    rw [decodeRun] at h
    obtain ⟨b, m, hchild, hstep⟩ | ⟨l, hstep⟩ | hstep := decodeStep_cases t ibuf n j
    · obtain ⟨hlt, hm⟩ := ht.child_range hchild
      obtain ⟨hle, hn'⟩ := ih hm (hstep ▸ h)
      exact ⟨by omega, hn'⟩
    · rw [hstep, decodeRun_ddone] at h
      cases h
    · rw [hstep, decodeRun_dfail] at h
      cases h

/-- A walk from node `n` that succeeds reads at least one bit, no more bits than there are and than nodes from `n` on, and
gives a letter in range. -/
theorem TrieWf.walkBits_range {n j l j' : Nat} {bs : Bits} (hn : n < t.length)
    (h : walkBits t n j bs = some (l, j')) :
    j < j' ∧ j' ≤ j + bs.length ∧ j' + n ≤ j + t.length ∧ l ≤ p.maxLetter := by
  induction bs generalizing n j with
  | nil => cases h
  | cons b bs ih =>
    rw [walkBits] at h
    rw [List.length_cons]
    split at h
    · next m hchild =>
      obtain ⟨hlt, hm⟩ := ht.child_range hchild
      obtain ⟨hpos, hbits, hnodes, hl⟩ := ih hm h
      exact ⟨by omega, by omega, by omega, hl⟩
    · next hleaf =>
      cases h
      exact ⟨by omega, by omega, by omega, ht.leaf_range hleaf⟩
    · cases h
    · cases h

/-- A decode walk that succeeds reads at most NODES bits, ends within IBUF and gives a letter in range. -/
theorem TrieWf.decodeWalk_range {ibuf : Bits} {q l j : Nat} (h : decodeWalk t ibuf q = some (l, j)) :
    q < j ∧ j ≤ ibuf.length ∧ j - q ≤ t.length ∧ l ≤ p.maxLetter := by
  obtain ⟨hpos, hbits, hnodes, hl⟩ := ht.walkBits_range ht.root h
  rw [List.length_drop] at hbits
  exact ⟨hpos, by omega, by omega, hl⟩

/-- DECODE_ALL ends within IBUF, with letters in range (R930). -/
theorem TrieWf.decodeLoop_range {ibuf : Bits} {k q j : Nat} {out : List Nat} (hq : q ≤ ibuf.length)
    (h : decodeLoop t ibuf k q = some (out, j)) : j ≤ ibuf.length ∧ ∀ l ∈ out, l ≤ p.maxLetter := by
  induction k generalizing q out with
  | zero =>
    rw [decodeLoop] at h
    split at h
    · cases h
    · cases h; exact ⟨hq, by simp⟩
  | succ k ih =>
    rw [decodeLoop] at h
    split at h
    · split at h
      · cases h
      · next l q' hwalk =>
        obtain ⟨-, hq', -, hl⟩ := ht.decodeWalk_range hwalk
        split at h
        · cases h
        · next rest j' hrest =>
          cases h
          obtain ⟨hj, hletters⟩ := ih hq' hrest
          exact ⟨hj, by simpa [hl] using hletters⟩
    · cases h; exact ⟨hq, by simp⟩

end

/-- Under the invariant the trie of the node memory is well formed. -/
theorem State.Inv.trieWf {s : State} (h : s.Inv) : TrieWf s.cfg (trieOf s.cfg s.node) :=
  ((trieInv_iff h.cfgLegal s.node).mp h.trie).2

/-- Settles O32: a walk that goes on climbs one index each step, and there are only NODES of them (R158, R920). -/
theorem decodeWalksEndWithinNodesSteps : Obligations.DecodeWalksEndWithinNodesSteps := by
  intro s ibuf q h
  have ht := h.trieWf
  refine ⟨fun n j hrun => ?_, fun l j hwalk => ?_⟩
  · obtain ⟨hclimb, hlt⟩ := ht.decodeRun_dwalk ht.root hrun
    rw [length_trieOf] at hlt
    rw [Nat.zero_add] at hclimb
    exact absurd hlt (Nat.not_lt.mpr hclimb)
  · obtain ⟨-, -, hbits, hl⟩ := ht.decodeWalk_range hwalk
    exact ⟨(length_trieOf s.cfg s.node ▸ hbits :), hl⟩

end Sys2Proof.Machine
end

section
/-! PROOF. What the functions behind the commands answer: where the readers leave the cursor, how long the packed bytes are,
which entries the counter, the header parser and the builder give. -/

namespace Sys2Proof.Machine

/-! ### The readers -/

/-- A unary code that is read ends within IBUF (R502). -/
theorem unaryRead_range {ibuf : Bits} {p n next : Nat} (h : unaryRead ibuf p = some (n, next)) :
    next = p + n + 1 ∧ next ≤ ibuf.length := by
  unfold unaryRead at h
  dsimp only at h
  split at h
  · cases h; exact ⟨rfl, by omega⟩
  · cases h

theorem foldl_bitsVal (s : Bits) (acc : Nat) :
    s.foldl (fun acc b => 2 * acc + b.toNat) acc = acc * 2 ^ s.length + bitsVal s := by
  induction s generalizing acc with
  | nil => simp [bitsVal]
  | cons b s ih =>
    rw [bitsVal, List.foldl_cons, List.foldl_cons, ih, ih, List.length_cons, Nat.pow_succ]
    ring

theorem bitsVal_cons (b : Bool) (s : Bits) : bitsVal (b :: s) = b.toNat * 2 ^ s.length + bitsVal s := by
  rw [bitsVal, List.foldl_cons, foldl_bitsVal, Nat.mul_zero, Nat.zero_add]

/-- After its run of zeros, a gamma code begins with a one (R503). -/
theorem slice_gamma_eq_cons {ibuf : Bits} {q k : Nat} (hk : 1 ≤ k) (hroom : q + k ≤ ibuf.length)
    (hhead : (ibuf.drop q).head? ≠ some false) : ∃ s, slice ibuf q (q + k) = true :: s := by
  cases hd : ibuf.drop q with
  | nil =>
    rw [List.drop_eq_nil_iff] at hd
    omega
  | cons b s =>
    obtain ⟨k, rfl⟩ : ∃ m, k = m + 1 := ⟨k - 1, by omega⟩
    have hb : b = true := by simpa [hd] using hhead
    exact ⟨s.take k, by rw [slice, hd, Nat.add_sub_cancel_left, hb, List.take_succ_cons]⟩

/-- A gamma code that is read ends within IBUF, and its value is not 0 (R503). -/
theorem gammaRead_range {ibuf : Bits} {p v k next : Nat} (h : gammaRead ibuf p = some (v, k, next)) :
    p < next ∧ next ≤ ibuf.length ∧ 1 ≤ v := by
  unfold gammaRead at h
  dsimp only at h
  split at h
  · cases h
  · next hroom =>
    have hhead := (runLength_split false (ibuf.drop p)).2
    rw [List.drop_drop] at hhead
    obtain ⟨s, hs⟩ := slice_gamma_eq_cons (k := runLength false (ibuf.drop p) + 1) (by omega) (by omega) hhead
    cases h
    rw [hs, bitsVal_cons]
    have := Nat.pow_pos (n := s.length) (show 0 < 2 by omega)
    exact ⟨by omega, by omega, by simp; omega⟩

/-! ### The header parser -/

/-- The entries of a header carry no empty codeword, and the header ends within IBUF (R820). -/
theorem unpackEntries_range {ibuf : Bits} {n base q : Nat} {es : List (Nat × Bits)} {next : Nat} (hq : q ≤ ibuf.length)
    (h : unpackEntries ibuf n base q = .ok (es, next)) : next ≤ ibuf.length ∧ ∀ e ∈ es, 1 ≤ e.2.length := by
  induction n generalizing base q es with
  | zero => cases h; exact ⟨hq, by simp⟩
  | succ n ih =>
    unfold unpackEntries at h
    split at h
    · cases h
    · split at h
      · cases h
      · next hlen =>
        obtain ⟨-, hq2, hpos⟩ := gammaRead_range hlen
        split at h
        · cases h
        · next hroom =>
          dsimp only at h
          split at h
          · cases h
          · next rest q3 hrest =>
            cases h
            obtain ⟨hend, hrest⟩ := ih (by omega) hrest
            refine ⟨hend, fun e he => ?_⟩
            rcases List.mem_cons.mp he with rfl | he
            · rw [length_slice]; omega
            · exact hrest e he

theorem unpackTable_range {ibuf : Bits} {p : Nat} {es : List (Nat × Bits)} {next : Nat}
    (h : unpackTable ibuf p = .ok (es, next)) : next ≤ ibuf.length ∧ ∀ e ∈ es, 1 ≤ e.2.length := by
  unfold unpackTable at h
  split at h
  · cases h
  · next hcount => exact unpackEntries_range (gammaRead_range hcount).2.1 h

/-! ### The tables -/

theorem mem_tableOf {α : Type} {es : List (Nat × α)} {e : Nat × α} (h : e ∈ tableOf es) : e ∈ es := by
  have hfold : ∀ (es : List (Nat × α)) (t : Table α), e ∈ es.foldl (fun t e => tableSet t e.1 e.2) t →
      e ∈ es ∨ e ∈ t := by
    intro es
    induction es with
    | nil => exact fun t h => .inr h
    | cons a es ih =>
      intro t h
      rcases ih _ h with h | h
      · exact .inl (List.mem_cons_of_mem _ h)
      · rcases mem_tableSet t a.1 a.2 e h with rfl | h
        · exact .inl List.mem_cons_self
        · exact .inr h
  simpa using hfold es [] h

theorem mem_countSet {f : Table Nat} {l c : Nat} {e : Nat × Nat} (h : e ∈ countSet f l c) : e = (l, c) ∨ e ∈ f := by
  unfold countSet at h
  split at h
  · exact .inr (mem_tableErase f l e h)
  · exact mem_tableSet f l c e h

/-- Counting a text lists only letters that were listed or stand in the text (R611). -/
theorem mem_countText {f : Table Nat} {txt : List Nat} {e : Nat × Nat} (h : e ∈ countText f txt) :
    e.1 ∈ txt ∨ ∃ e' ∈ f, e'.1 = e.1 := by
  induction txt generalizing f with
  | nil => exact .inr ⟨e, h, rfl⟩
  | cons l ls ih =>
    rcases ih h with h | ⟨e', he', hl⟩
    · exact .inl (List.mem_cons_of_mem _ h)
    · rcases mem_countSet he' with rfl | he'
      · exact .inl (hl ▸ List.mem_cons_self)
      · exact .inr ⟨e', he', hl⟩

/-! ### The packer -/

theorem length_groupBytes (s : Bits) : (groupBytes s).length = s.length / 8 := by
  induction s using groupBytes.induct with
  | case1 b7 b6 b5 b4 b3 b2 b1 b0 rest ih =>
    simp only [groupBytes, List.length_cons, ih]
    omega
  | case2 s h =>
    rw [groupBytes]
    · match s, h with
      | [], _ | [_], _ | [_, _], _ | [_, _, _], _ | [_, _, _, _], _ | [_, _, _, _, _], _ | [_, _, _, _, _, _], _
      | [_, _, _, _, _, _, _], _ => simp
      | b7 :: b6 :: b5 :: b4 :: b3 :: b2 :: b1 :: b0 :: rest, h => exact (h _ _ _ _ _ _ _ _ _ rfl).elim
    · exact h

/-! ### The builder -/

/-- Taking the least node out of a queue loses none. -/
theorem takeMin_perm {q q' : List MergeNode} {m : MergeNode} (h : takeMin q = some (m, q')) : q.Perm (m :: q') := by
  induction q generalizing m q' with
  | nil => cases h
  | cons x q ih =>
    rw [takeMin] at h
    split at h
    · next hnone =>
      cases h
      cases q with
      | nil => exact .refl _
      | cons y q =>
        rw [takeMin] at hnone
        split at hnone
        · cases hnone
        · split at hnone <;> cases hnone
    · next m' q'' hsome =>
      split at h
      · cases h
        exact ((ih hsome).cons x).trans (.swap _ _ _)
      · cases h; exact .refl _

theorem takeMin_eq_none_iff {q : List MergeNode} : takeMin q = none ↔ q = [] := by
  constructor
  · intro h
    cases q with
    | nil => rfl
    | cons x q =>
      rw [takeMin] at h
      split at h
      · cases h
      · split at h <;> cases h
  · rintro rfl
    rfl

/-- Every entry of a merge is one of its nodes' with a bit in front (R703). -/
theorem mem_mergeNodes_table {x y : MergeNode} {seq : Nat} {e : Nat × Bits} (h : e ∈ (mergeNodes x y seq).table) :
    ∃ e' ∈ x.table ++ y.table, ∃ b, e = (e'.1, b :: e'.2) := by
  simp only [mergeNodes, prefixBit, List.mem_append, List.mem_map] at h
  rcases h with ⟨e', he', rfl⟩ | ⟨e', he', rfl⟩
  · exact ⟨e', List.mem_append_left _ he', false, rfl⟩
  · exact ⟨e', List.mem_append_right _ he', true, rfl⟩

/-- The merge loop codes only letters of the queue (R703). -/
theorem mem_mergeLoop_letter {k next : Nat} {q : List MergeNode} {e : Nat × Bits} (h : e ∈ mergeLoop k next q) :
    ∃ x ∈ q, ∃ e' ∈ x.table, e'.1 = e.1 := by
  induction k generalizing next q with
  | zero =>
    obtain ⟨x, hx, he⟩ := List.mem_flatMap.mp h
    exact ⟨x, hx, e, he, rfl⟩
  | succ k ih =>
    rw [mergeLoop] at h
    split at h
    · cases h
    · next x q1 hx =>
      have hperm := takeMin_perm hx
      split at h
      · exact ⟨x, hperm.mem_iff.mpr List.mem_cons_self, e, h, rfl⟩
      · next y q2 hy =>
        have hin {z : MergeNode} (hz : z ∈ x :: y :: q2) : z ∈ q :=
          (hperm.trans ((takeMin_perm hy).cons x)).mem_iff.mpr hz
        obtain ⟨z, hz, e', he', hl⟩ := ih h
        rcases List.mem_cons.mp hz with rfl | hz
        · obtain ⟨e'', he'', b, rfl⟩ := mem_mergeNodes_table he'
          rcases List.mem_append.mp he'' with he'' | he''
          · exact ⟨x, hin (by simp), e'', he'', hl⟩
          · exact ⟨y, hin (by simp), e'', he'', hl⟩
        · exact ⟨z, hin (by simp [hz]), e', he', hl⟩

/-- With two nodes or more in the queue every entry gets a bit; one node left keeps the bits its entries have. -/
theorem mergeLoop_codeword_pos {k next : Nat} {q : List MergeNode} (hk : q.length ≤ k + 1)
    (hq : 2 ≤ q.length ∨ ∀ x ∈ q, ∀ e ∈ x.table, 1 ≤ e.2.length) {e : Nat × Bits} (h : e ∈ mergeLoop k next q) :
    1 ≤ e.2.length := by
  induction k generalizing next q with
  | zero =>
    obtain ⟨x, hx, he⟩ := List.mem_flatMap.mp h
    exact hq.resolve_left (by omega) x hx e he
  | succ k ih =>
    rw [mergeLoop] at h
    split at h
    · cases h
    · next x q1 hx =>
      have hperm := takeMin_perm hx
      have hlen := hperm.length_eq
      rw [List.length_cons] at hlen
      split at h
      · next hnone =>
        rw [takeMin_eq_none_iff.mp hnone, List.length_nil] at hlen
        exact hq.resolve_left (by omega) x (hperm.mem_iff.mpr List.mem_cons_self) e h
      · next y q2 hy =>
        have hlen' := (takeMin_perm hy).length_eq
        rw [List.length_cons] at hlen'
        refine ih (by rw [List.length_cons]; omega) ?_ h
        cases q2 with
        | cons z q2 => exact .inl (by simp)
        | nil =>
          refine .inr fun z hz e' he' => ?_
          obtain rfl := List.mem_singleton.mp hz
          obtain ⟨e'', -, b, rfl⟩ := mem_mergeNodes_table he'
          simp

theorem mem_seedNodes {i : Nat} {ps : List (Nat × Nat)} {x : MergeNode} (h : x ∈ seedNodes i ps) :
    ∃ e ∈ ps, x.table = [(e.1, [])] := by
  induction ps generalizing i with
  | nil => cases h
  | cons a ps ih =>
    rcases List.mem_cons.mp h with rfl | h
    · exact ⟨a, List.mem_cons_self, rfl⟩
    · obtain ⟨e, he, hx⟩ := ih h
      exact ⟨e, List.mem_cons_of_mem _ he, hx⟩

theorem length_seedNodes (i : Nat) (ps : List (Nat × Nat)) : (seedNodes i ps).length = ps.length := by
  induction ps generalizing i with
  | nil => rfl
  | cons a ps ih => rw [seedNodes, List.length_cons, ih, List.length_cons]

/-- The builder codes only letters of FREQ, none with the empty codeword (R705, R706, R707). -/
theorem mem_huffman {f : Table Nat} {e : Nat × Bits} (h : e ∈ huffman f) :
    (∃ e' ∈ f, e'.1 = e.1) ∧ 1 ≤ e.2.length := by
  have hsub {a : Nat × Nat} (ha : a ∈ participants f) : a ∈ f := (List.mem_filter.mp ha).1
  unfold huffman at h
  split at h
  · cases h
  · next l c hps =>
    obtain rfl := List.mem_singleton.mp h
    exact ⟨⟨(l, c), hsub (hps ▸ List.mem_cons_self), rfl⟩, Nat.le_refl _⟩
  · next a ps hmany hps =>
    refine ⟨?_, mergeLoop_codeword_pos (by simp [length_seedNodes]) (.inl ?_) h⟩
    · obtain ⟨x, hx, e', he', hl⟩ := mem_mergeLoop_letter h
      obtain ⟨p, hp, htable⟩ := mem_seedNodes hx
      rw [htable] at he'
      obtain rfl := List.mem_singleton.mp he'
      exact ⟨p, hsub (hps ▸ hp), hl⟩
    · rw [length_seedNodes]
      cases ps with
      | nil => exact (hmany a.1 a.2 rfl rfl).elim
      | cons b ps => simp

theorem length_le_longest {t : List (Nat × Bits)} {e : Nat × Bits} (h : e ∈ t) : e.2.length ≤ longest t := by
  have hfold : ∀ (t : List (Nat × Bits)) (m : Nat), m ≤ t.foldl (fun m e => max m e.2.length) m
      ∧ ∀ e ∈ t, e.2.length ≤ t.foldl (fun m e => max m e.2.length) m := by
    intro t
    induction t with
    | nil => simp
    | cons a t ih =>
      intro m
      obtain ⟨hm, ht⟩ := ih (max m a.2.length)
      refine ⟨by rw [List.foldl_cons]; omega, fun e he => ?_⟩
      rcases List.mem_cons.mp he with rfl | he
      · rw [List.foldl_cons]; omega
      · exact ht e he
  exact (hfold t 0).2 e h

end Sys2Proof.Machine
end

section
/-! PROOF. What the host's turn can do, once (R100, R210 to R213, R1200, R1220). -/

namespace Sys2Proof.Machine

theorem busyFlag_eq_false_iff {s : State} : s.busyFlag = false ↔ s.phase = .idle := by
  unfold State.busyFlag
  split
  · next h => simp [h]
  · next h => simp [h]

/-- A register read changes the draw counter at most. -/
theorem portRead_eq (s : State) (off : Nat) : ∃ d, (portRead s off).2 = { s with draws := d } := by
  unfold portRead
  split
  · split
    · exact ⟨_, rfl⟩
    · split
      · exact ⟨_, rfl⟩
      · exact ⟨_, rfl⟩
  · exact ⟨_, rfl⟩

/-- A register write: not accepted in reset, dropped in BUSY, taken in IDLE (R213, R1200, R1220). -/
theorem portWrite_cases (s : State) (off : Nat) (v : Word) :
    (s.inReset = true ∧ portWrite s off v = s)
    ∨ (s.inReset = false ∧ s.phase ≠ .idle ∧ portWrite s off v = writeBusy s off)
    ∨ (s.inReset = false ∧ s.phase = .idle ∧ portWrite s off v = writeIdle s off v) := by
  unfold portWrite
  split
  · next hr => exact .inl ⟨hr, rfl⟩
  · next hr =>
    have hr : s.inReset = false := by simpa using hr
    split
    · next hb => exact .inr (.inl ⟨hr, by simp [← busyFlag_eq_false_iff, hb], rfl⟩)
    · next hb => exact .inr (.inr ⟨hr, busyFlag_eq_false_iff.mp (by simpa using hb), rfl⟩)

/-- What the host's turn can do: nothing, where the host has no access left; a register write; a read, a poll or a check,
which change nothing of the block; a reset event. -/
theorem hostTurn_cases {s t : State} (h : hostTurn s = .next t) :
    t = s
    ∨ (∃ off v rest, off < 256 ∧ s.host = .write (s.cfg.hufBase + off) 4 v :: rest
        ∧ t = portWrite { s with host := rest } off v)
    ∨ (∃ ops x d, t = { s with host := ops, rdata := x, draws := d })
    ∨ (∃ rest, s.host = .resetAssert :: rest ∧ t = ({ s with host := rest } : State).resetEvent)
    ∨ (∃ rest, s.host = .resetRelease :: rest ∧ t = { s with host := rest, inReset := false }) := by
  unfold hostTurn at h
  split at h
  · cases h; exact .inl rfl
  · next op rest hhost =>
    cases op with
    | write addr width v =>
      simp only [serve] at h
      split at h
      · cases h
      · next off hoff =>
        cases h
        obtain ⟨hlegal, rfl, hlt⟩ := checkAccess_ok.mp hoff
        obtain rfl : width = 4 := by
          simp only [accessLegal, Bool.and_eq_true, decide_eq_true_eq] at hlegal
          exact hlegal.1.1.1
        exact .inr (.inl ⟨off, v, rest, hlt, hhost, rfl⟩)
    | read addr width =>
      simp only [serve] at h
      split at h
      · cases h
      · next off hoff =>
        cases h
        obtain ⟨d, hd⟩ := portRead_eq { s with host := rest } off
        rw [hd]
        exact .inr (.inr (.inl ⟨_, _, _, rfl⟩))
    | wait =>
      cases h
      obtain ⟨d, hd⟩ := portRead_eq { s with host := rest } 0x0C
      rw [hd]
      exact .inr (.inr (.inl ⟨_, _, _, rfl⟩))
    | check =>
      cases h
      obtain ⟨d, hd⟩ := portRead_eq { s with host := rest } 0x10
      rw [hd]
      exact .inr (.inr (.inl ⟨_, _, _, rfl⟩))
    | resetAssert => cases h; exact .inr (.inr (.inr (.inl ⟨rest, hhost, rfl⟩)))
    | resetRelease => cases h; exact .inr (.inr (.inr (.inr ⟨rest, hhost, rfl⟩)))

end Sys2Proof.Machine
end

section
/-! PROOF. The invariant of every reachable state (R150 to R158): reset meets it, and the host's turn and every command keep
it. -/

namespace Sys2Proof.Machine

/-! ### Reset -/

theorem inv_resetWith {p : Params} (hp : p.legal = true) : (State.resetWith p).Inv where
  cfgLegal := hp
  obufFits := Nat.zero_le _
  ibufFits := Nat.zero_le _
  cursor := Nat.zero_le _
  txtFits := Nat.zero_le _
  txtLetters := fun _ hl => nomatch hl
  bytesFit := Nat.zero_le _
  tables := reset_memory_wf p
  freqRange := fun _ he => nomatch he
  ctRange := fun _ he => nomatch he
  trie := trieInv_blank hp
  busyRecord := fun _ _ _ _ h => nomatch h
  errCodes := ⟨Nat.zero_le _, Nat.zero_le _⟩
  resetIdle := fun h => nomatch h

/-- Settles O52: every buffer and table is empty, the trie is a fresh root and no command runs. -/
theorem resetMeetsTheInvariant : Obligations.ResetMeetsTheInvariant := fun _ hp => inv_resetWith hp

/-! ### The ends of a command and the host port -/

section
variable {s : State} (h : s.Inv)
include h

theorem State.Inv.commit : s.commit.Inv :=
  { h with
    busyRecord := fun _ _ _ _ hp => nomatch hp
    errCodes := ⟨Nat.zero_le _, h.errCodes.2⟩
    resetIdle := fun _ => rfl }

theorem State.Inv.recordError (e : ErrKind) : (s.recordError e).Inv :=
  { h with
    busyRecord := fun _ _ _ _ hp => nomatch hp
    errCodes := by
      refine ⟨(code_range e).2, ?_⟩
      rw [State.recordError_errFirst]
      split
      · exact (code_range e).2
      · exact h.errCodes.2
    resetIdle := fun _ => rfl }

theorem State.Inv.clearDatapath : s.clearDatapath.Inv :=
  { h with
    obufFits := Nat.zero_le _
    ibufFits := Nat.zero_le _
    cursor := Nat.zero_le _
    txtFits := Nat.zero_le _
    txtLetters := fun _ hl => nomatch hl
    bytesFit := Nat.zero_le _
    tables := reset_memory_wf s.cfg
    freqRange := fun _ he => nomatch he
    ctRange := fun _ he => nomatch he
    trie := trieInv_blank h.cfgLegal }

theorem State.Inv.resetEvent : s.resetEvent.Inv :=
  { inv_resetWith h.cfgLegal with resetIdle := fun _ => rfl }

theorem State.Inv.withHost (ops : List HostOp) : ({ s with host := ops } : State).Inv := { h with }

theorem State.Inv.withBusyLeft (k : Nat) : ({ s with busyLeft := k } : State).Inv := { h with }

theorem State.Inv.writeBusy (off : Nat) : (writeBusy s off).Inv := by
  unfold Machine.writeBusy
  split
  · exact { h with }
  · exact h

/-- In IDLE the operand registers are free to change, and a command that is issued records what it samples (R122, R126). -/
theorem State.Inv.writeIdle (hreset : s.inReset = false) (hidle : s.phase = .idle) (off : Nat) (v : Word) :
    (writeIdle s off v).Inv := by
  have hbusy : ∀ w a b c, s.phase ≠ .busy w a b c := by simp [hidle]
  unfold Machine.writeIdle
  split
  · exact { h with
      busyRecord := fun _ _ _ _ hp => by cases hp; exact ⟨rfl, rfl, rfl, rfl⟩
      resetIdle := fun hr => by simp [hreset] at hr }
  · exact { h with errCodes := ⟨h.errCodes.1, Nat.zero_le _⟩ }
  · exact { h with busyRecord := fun _ _ _ _ hp => (hbusy _ _ _ _ hp).elim }
  · exact { h with busyRecord := fun _ _ _ _ hp => (hbusy _ _ _ _ hp).elim }
  · exact { h with busyRecord := fun _ _ _ _ hp => (hbusy _ _ _ _ hp).elim }
  · exact h

theorem State.Inv.portWrite (off : Nat) (v : Word) : (portWrite s off v).Inv := by
  obtain ⟨-, hw⟩ | ⟨-, -, hw⟩ | ⟨hreset, hidle, hw⟩ := portWrite_cases s off v
  · rw [hw]; exact h
  · rw [hw]; exact h.writeBusy off
  · rw [hw]; exact h.writeIdle hreset hidle off v

theorem State.Inv.hostTurn {t : State} (hturn : hostTurn s = .next t) : t.Inv := by
  obtain rfl | ⟨off, v, rest, -, -, rfl⟩ | ⟨ops, x, d, rfl⟩ | ⟨rest, -, rfl⟩ | ⟨rest, -, rfl⟩ := hostTurn_cases hturn
  · exact h
  · exact (h.withHost rest).portWrite off v
  · exact { h with }
  · exact (h.withHost rest).resetEvent
  · exact { h with resetIdle := fun hr => nomatch hr }

end

/-! ### The commands

`EndsInInv r` is what has to be shown of a command's answer. The rules below follow a command's own text, one per shared
operation, each with what its check lets through. -/

/-- Whatever next state `r` answers meets the invariant. -/
def EndsInInv (r : Result) : Prop := ∀ t, r = .next t → t.Inv

namespace EndsInInv

variable {s : State}

theorem of_ret (h : s.Inv) : EndsInInv (ret s) := fun _ ht => ret_next.mp ht ▸ h.commit

theorem of_raise {e : ErrKind} (h : s.Inv) : EndsInInv (raise e s) := fun _ ht => raise_next.mp ht ▸ h.recordError e

theorem of_ite {c : Prop} [Decidable c] {r r' : Result} (hpos : c → EndsInInv r) (hneg : ¬ c → EndsInInv r') :
    EndsInInv (if c then r else r') := by
  split
  · next hc => exact hpos hc
  · next hc => exact hneg hc

theorem of_withLetter {l : Nat} {k : Nat → Result} (h : s.Inv) (hk : ∀ l ≤ s.cfg.maxLetter, EndsInInv (k l)) :
    EndsInInv (withLetter s l k) := by
  intro t ht
  obtain ⟨-, rfl⟩ | ⟨hl, ht⟩ := withLetter_next ht
  · exact h.recordError _
  · exact hk l hl t ht

theorem of_withNbits {n : Nat} {k : Nat → Result} (h : s.Inv) (hk : ∀ n ≤ 32, EndsInInv (k n)) :
    EndsInInv (withNbits s n k) := by
  intro t ht
  obtain ⟨-, rfl⟩ | ⟨hn, ht⟩ := withNbits_next ht
  · exact h.recordError _
  · exact hk n hn t ht

theorem of_withItem {α : Type} {buf : List α} {i : Nat} {k : α → Result} (h : s.Inv) (hk : ∀ x, EndsInInv (k x)) :
    EndsInInv (withItem s buf i k) := by
  intro t ht
  obtain ⟨-, rfl⟩ | ⟨x, -, ht⟩ := withItem_next ht
  · exact h.recordError _
  · exact hk x t ht

theorem of_withCodeword {k : Nat → Bits → Result} (h : s.Inv)
    (hk : ∀ l c, l ≤ s.cfg.maxLetter → 1 ≤ c.length → c.length ≤ s.cfg.maxCwLen → EndsInInv (k l c)) :
    EndsInInv (withCodeword s k) := by
  intro t ht
  obtain ⟨-, rfl⟩ | ⟨-, -, rfl⟩ | ⟨-, -, -, rfl⟩ | ⟨hpos, hl, hfits, ht⟩ := withCodeword_next ht
  · exact h.recordError _
  · exact h.recordError _
  · exact h.recordError _
  · exact hk _ _ hl (by rw [length_bitsOf]; omega) (by rw [length_bitsOf]; exact hfits) t ht

theorem of_oAppend {bits : Bits} {k : State → Result} (h : s.Inv)
    (hk : ({ s with obuf := s.obuf ++ bits } : State).Inv → EndsInInv (k { s with obuf := s.obuf ++ bits })) :
    EndsInInv (oAppend bits s k) := by
  intro t ht
  obtain ⟨-, rfl⟩ | ⟨hroom, ht⟩ := oAppend_next ht
  · exact h.recordError _
  · exact hk { h with obufFits := by simpa using hroom } t ht

theorem of_storeTrie {n : Trie} {k : State → Result} (h : s.Inv) (hn : TrieWf s.cfg n)
    (hk : ({ s with node := packTrie s.cfg n } : State).Inv → EndsInInv (k { s with node := packTrie s.cfg n })) :
    EndsInInv (storeTrie n s k) := by
  intro t ht
  obtain ⟨-, rfl⟩ | ⟨hfits, ht⟩ := storeTrie_next ht
  · exact h.recordError _
  · exact hk { h with trie := trieInv_packTrie h.cfgLegal hn hfits } t ht

end EndsInInv

open EndsInInv

/-! The staged writes of the commands whose buffers and tables need an argument. -/

section
variable {s : State} (h : s.Inv)
include h

theorem State.Inv.withIcur {p : Nat} (hp : p ≤ s.ibuf.length) : ({ s with icur := p } : State).Inv :=
  { h with cursor := hp }

/-- A new FREQ in canonical form, with letters and counts in range (R155). -/
theorem State.Inv.withFreq {f : Table Nat} (hwf : countsWf f = true)
    (hf : ∀ e ∈ f, e.1 ≤ s.cfg.maxLetter ∧ e.2 ≤ s.cfg.maxCount) : ({ s with freq := f } : State).Inv :=
  { h with
    tables := (memory_wf_iff _).mpr ⟨hwf, ((memory_wf_iff s).mp h.tables).2⟩
    freqRange := hf }

/-- A new CT in canonical form, with letters and codewords in range (R156). -/
theorem State.Inv.withCt {t : Table Bits} (hwf : keysRising t = true)
    (ht : ∀ e ∈ t, e.1 ≤ s.cfg.maxLetter ∧ 1 ≤ e.2.length ∧ e.2.length ≤ s.cfg.maxCwLen) :
    ({ s with ct := t } : State).Inv :=
  { h with
    tables := (memory_wf_iff _).mpr ⟨((memory_wf_iff s).mp h.tables).1, hwf⟩
    ctRange := ht }

/-- Every byte is a letter (R22, R600). -/
theorem State.Inv.bytes_letters : ∀ l ∈ s.bytes.map letterOf, l ≤ s.cfg.maxLetter := by
  intro l hl
  obtain ⟨b, -, rfl⟩ := List.mem_map.mp hl
  have hsentinel := (legal_ranges h.cfgLegal).sentinel
  have hb : b.toNat < 256 := b.isLt
  show b.toNat ≤ _
  omega

/-- BYTES expanded fits IBUF (R20, R1013). -/
theorem State.Inv.expandBytes_fits : (expandBytes s.bytes).length ≤ s.cfg.bitCap := by
  have hbytes : s.bytes.length ≤ s.cfg.bitCap / 8 := h.bytesFit
  rw [length_expandBytes]
  omega

theorem execObufGet_inv : EndsInInv (execObufGet s) :=
  of_withNbits h fun _ _ => of_ite (fun _ => of_raise h) fun _ => of_ret { h with }

theorem execIbufPut_inv : EndsInInv (execIbufPut s) := by
  refine of_withNbits h fun n _ => of_ite (fun _ => of_raise h) fun hroom =>
    of_ret { h with ibufFits := ?_, cursor := h.cursor.trans (by simp) }
  simpa using hroom

theorem execIbufGet_inv : EndsInInv (execIbufGet s) := by
  refine of_withNbits h fun n _ => of_ite (fun _ => of_raise h) fun hroom => of_ret ?_
  have := h.cursor
  rw [State.remaining] at hroom
  exact { h with cursor := by show s.icur + n ≤ s.ibuf.length; omega }

theorem execTxtPut_inv : EndsInInv (execTxtPut s) := by
  refine of_withLetter h fun l hl => of_ite (fun _ => of_raise h) fun hroom =>
    of_ret { h with txtFits := ?_, txtLetters := fun x hx => ?_ }
  · simpa using hroom
  · rcases List.mem_append.mp hx with hx | hx
    · exact h.txtLetters x hx
    · exact List.mem_singleton.mp hx ▸ hl

theorem execFreqGet_inv : EndsInInv (execFreqGet s) := of_withLetter h fun _ _ => of_ret { h with }

theorem execFreqSet_inv : EndsInInv (execFreqSet s) := by
  refine of_withLetter h fun l hl => of_ret (h.withFreq (countSet_keepsWf _ _ _ ((memory_wf_iff s).mp h.tables).1) ?_)
  intro e he
  rcases mem_countSet he with rfl | he
  · refine ⟨hl, ?_⟩
    rw [maxCount_eq h.cfgLegal]
    exact Nat.le_pred_of_lt s.argB.isLt
  · exact h.freqRange e he

theorem execFreqCount_inv : EndsInInv (execFreqCount s) := by
  refine of_ite (fun _ => of_raise h) fun hmax => of_ret ?_
  have hcounts : ∀ e ∈ countText s.freq s.txt, e.2 ≤ s.cfg.maxCount := by simpa using hmax
  have hfreq := h.withFreq (countText_keepsWf _ s.txt ((memory_wf_iff s).mp h.tables).1) fun e he => ?_
  · exact { hfreq with }
  · refine ⟨?_, hcounts e he⟩
    rcases mem_countText he with hl | ⟨e', he', hl⟩
    · exact h.txtLetters _ hl
    · exact hl ▸ (h.freqRange e' he').1

theorem execCtSet_inv : EndsInInv (execCtSet s) := by
  refine of_withCodeword h fun l c hl hpos hlen =>
    of_ret (h.withCt (tableSet_keepsRising _ _ _ ((memory_wf_iff s).mp h.tables).2) fun e he => ?_)
  rcases mem_tableSet _ _ _ e he with rfl | he
  · exact ⟨hl, hpos, hlen⟩
  · exact h.ctRange e he

theorem execCtGet_inv : EndsInInv (execCtGet s) := by
  refine of_withLetter h fun _ _ => ?_
  split
  · exact of_ret { h with }
  · exact of_ret { h with }

theorem execUnpackTable_inv : EndsInInv (execUnpackTable s) := by
  unfold execUnpackTable
  split
  · exact of_raise h
  · next es next hparse =>
    obtain ⟨hend, hpos⟩ := unpackTable_range hparse
    refine of_ite (fun _ => of_raise h) fun hmax => of_ret ?_
    have hct := h.withCt (tableOf_rising (storable s.cfg es)) fun e he => ?_
    · exact { hct with cursor := hend }
    · have hkept := mem_tableOf he
      obtain ⟨hes, hl⟩ := List.mem_filter.mp hkept
      have hlen : ∀ e ∈ storable s.cfg es, e.2.length ≤ s.cfg.maxCwLen := by simpa using hmax
      exact ⟨of_decide_eq_true hl, hpos e hes, hlen e hkept⟩

theorem execBuild_inv : EndsInInv (execBuild s) := by
  refine of_ite (fun _ => of_raise h) fun hmax => of_ret ?_
  have hct := h.withCt (tableOf_rising (huffman s.freq)) fun e he => ?_
  · exact { hct with }
  · obtain ⟨⟨e', he', hl⟩, hpos⟩ := mem_huffman (mem_tableOf he)
    exact ⟨hl ▸ (h.freqRange e' he').1, hpos, (length_le_longest (mem_tableOf he)).trans (Nat.not_lt.mp hmax)⟩

theorem execEncLetter_inv : EndsInInv (execEncLetter s) := by
  refine of_withLetter h fun _ _ => ?_
  split
  · exact of_raise h
  · exact of_oAppend h fun h' => of_ret { h' with }

theorem execEncText_inv : EndsInInv (execEncText s) := by
  unfold execEncText
  split
  · exact of_raise h
  · exact of_oAppend h fun h' => of_ret { h' with }

theorem execTrieInsert_inv : EndsInInv (execTrieInsert s) := by
  refine of_withCodeword h fun l c _ _ _ => ?_
  split
  · exact of_raise h
  · next hins => exact of_storeTrie h (h.trieWf.trieInsert hins) of_ret

theorem execTrieBuild_inv : EndsInInv (execTrieBuild s) := by
  unfold execTrieBuild
  split
  · exact of_raise h
  · next hins =>
    exact of_ite (fun _ => of_raise h) fun _ =>
      of_storeTrie h ((trieWf_emptyTrie s.cfg).insertAll hins) fun h' => of_ret { h' with }

theorem execDecodeOne_inv : EndsInInv (execDecodeOne s) := by
  unfold execDecodeOne
  split
  · exact of_raise h
  · next hwalk => exact of_ret { h with cursor := (h.trieWf.decodeWalk_range hwalk).2.1 }

theorem execDecodeAll_inv : EndsInInv (execDecodeAll s) := by
  unfold execDecodeAll
  split
  · exact of_raise h
  · next hloop =>
    obtain ⟨hend, hletters⟩ := h.trieWf.decodeLoop_range h.cursor hloop
    exact of_ite (fun _ => of_raise h) fun hfits =>
      of_ret { h with cursor := hend, txtFits := Nat.not_lt.mp hfits, txtLetters := hletters }

theorem execUnaryDec_inv : EndsInInv (execUnaryDec s) := by
  unfold execUnaryDec
  split
  · exact of_raise (h.withIcur (Nat.le_refl _))
  · next hread => exact of_ret { h with cursor := (unaryRead_range hread).2 }

theorem execGammaDec_inv : EndsInInv (execGammaDec s) := by
  unfold execGammaDec
  split
  · exact of_raise h
  · next hread => exact of_ite (fun _ => of_raise h) fun _ => of_ret { h with cursor := (gammaRead_range hread).2.1 }

theorem execPad_inv : EndsInInv (execPad s) :=
  of_ite (fun _ => of_raise h) fun hroom =>
    of_ret { h with obufFits := (length_padBits s.obuf).trans_le (Nat.not_lt.mp hroom) }

theorem execUnpad_inv : EndsInInv (execUnpad s) := by
  unfold execUnpad
  split
  · exact of_raise (h.withIcur (Nat.le_refl _))
  · next hread => exact of_ret { h with cursor := (unaryRead_range hread).2 }

theorem execPackBytes_inv : EndsInInv (execPackBytes s) := by
  refine of_ite (fun _ => of_raise h) fun hroom => of_ret { h with bytesFit := ?_ }
  show (groupBytes (padBits s.obuf)).length ≤ s.cfg.bitCap / 8
  rw [length_groupBytes, length_padBits]
  exact Nat.div_le_div_right (Nat.not_lt.mp hroom)

theorem execUnpackBytes_inv : EndsInInv (execUnpackBytes s) := by
  have hstaged (p : Nat) (hp : p ≤ (expandBytes s.bytes).length) :
      ({ s with ibuf := expandBytes s.bytes, icur := p } : State).Inv :=
    { h with ibufFits := h.expandBytes_fits, cursor := hp }
  unfold execUnpackBytes
  dsimp only
  split
  · exact of_raise (hstaged _ (Nat.le_refl _))
  · next hread => exact of_ret { hstaged _ (unaryRead_range hread).2 with }

/-- Every command keeps the invariant; each case follows the command's own sequence of checks. -/
theorem exec_inv (i : Instr) : EndsInInv (exec i s) := by
  cases i with
  | nop => exact of_ret h
  | clear => exact of_ret h.clearDatapath
  | obufClr => exact of_ret { h with obufFits := Nat.zero_le _ }
  | obufPut => exact of_withNbits h fun _ _ => of_oAppend h of_ret
  | obufGet => exact execObufGet_inv h
  | ibufClr => exact of_ret { h with ibufFits := Nat.zero_le _, cursor := Nat.zero_le _ }
  | ibufPut => exact execIbufPut_inv h
  | ibufGet => exact execIbufGet_inv h
  | seek => exact of_ite (fun hp => of_ret (h.withIcur (of_decide_eq_true hp))) fun _ => of_raise h
  | xfer => exact of_ret { h with ibufFits := h.obufFits, cursor := Nat.zero_le _ }
  | byteClr => exact of_ret { h with bytesFit := Nat.zero_le _ }
  | bytePut =>
    refine of_ite (fun _ => of_ite (fun _ => of_raise h) fun hroom => of_ret { h with bytesFit := ?_ }) fun _ => of_raise h
    simpa using hroom
  | byteGet => exact of_withItem h fun _ => of_ret { h with }
  | unaryEnc => exact of_ite (fun _ => of_raise h) fun _ => of_oAppend h of_ret
  | unaryDec => exact execUnaryDec_inv h
  | gammaEnc => exact of_ite (fun _ => of_raise h) fun _ => of_oAppend h of_ret
  | gammaDec => exact execGammaDec_inv h
  | txtClr => exact of_ret { h with txtFits := Nat.zero_le _, txtLetters := fun _ hl => nomatch hl }
  | txtPut => exact execTxtPut_inv h
  | txtGet => exact of_withItem h fun _ => of_ret { h with }
  | bytesToText =>
    refine of_ite (fun _ => of_raise h) fun hroom => of_ret { h with txtFits := ?_, txtLetters := h.bytes_letters }
    simpa using hroom
  | textToBytes =>
    exact of_ite (fun _ => of_raise h) fun hroom => of_ret { h with bytesFit := Nat.not_lt.mp hroom }
  | freqClr => exact of_ret (h.withFreq rfl fun _ he => nomatch he)
  | freqCount => exact execFreqCount_inv h
  | freqSet => exact execFreqSet_inv h
  | freqGet => exact execFreqGet_inv h
  | build => exact execBuild_inv h
  | ctClr => exact of_ret { h.withCt keysRising_nil fun _ he => nomatch he with }
  | ctSet => exact execCtSet_inv h
  | ctGet => exact execCtGet_inv h
  | packTable => exact of_ite (fun _ => of_raise h) fun _ => of_oAppend h fun h' => of_ret { h' with }
  | unpackTable => exact execUnpackTable_inv h
  | encLetter => exact execEncLetter_inv h
  | encText => exact execEncText_inv h
  | trieClr => exact of_ret { h with trie := trieInv_blank h.cfgLegal }
  | trieInsert => exact execTrieInsert_inv h
  | trieBuild => exact execTrieBuild_inv h
  | decodeOne => exact execDecodeOne_inv h
  | decodeAll => exact execDecodeAll_inv h
  | nodeGet => exact of_withItem h fun _ => of_ret { h with }
  | pad => exact execPad_inv h
  | unpad => exact execUnpad_inv h
  | packBytes => exact execPackBytes_inv h
  | unpackBytes => exact execUnpackBytes_inv h

theorem runCommand_inv (w : Word) : EndsInInv (runCommand w s) := by
  unfold runCommand
  split
  · exact exec_inv h _
  · exact of_raise h

end

/-- Settles O53: a step is the host's turn or the running command, and both keep the invariant (R150 to R158). -/
theorem everyStepKeepsTheInvariant : Obligations.EveryStepKeepsTheInvariant := by
  intro s t h ht
  obtain ⟨-, hstep⟩ | ⟨w, a, b, c, k, -, -, -, hstep⟩ | ⟨w, a, b, c, -, -, -, hstep⟩ := step_cases s
  · exact h.hostTurn (hstep.symm.trans ht)
  · exact (h.withBusyLeft k).hostTurn (hstep.symm.trans ht)
  · exact runCommand_inv h w t (hstep.symm.trans ht)

end Sys2Proof.Machine
end

section
/-! PROOF. The register map in phase IDLE (R111, R120 to R129). -/

namespace Sys2Proof.Machine

/-- A natural that fits a register is read back. -/
theorem toNat_toWord {n : Nat} (h : n < 2 ^ 32) : (toWord n).toNat = n := by
  rw [toWord, BitVec.toNat_ofNat, Nat.mod_eq_of_lt h]

theorem readReg_reserved (s : State) {off : Nat} (h : 0x5C ≤ off) : readReg s off = 0 := by
  obtain ⟨k, rfl⟩ := Nat.exists_eq_add_of_le' h
  rfl

/-- STATUS as its five bits, lowest first (R123). -/
theorem statusWord_eq (s : State) : s.statusWord
    = toWord (Nat.bit s.busyFlag (Nat.bit s.errFlag (Nat.bit s.stickyFlag (Nat.bit s.overrun (Nat.bit s.ctOor 0))))) := by
  rw [State.statusWord]
  congr 1
  simp only [Nat.bit_val]
  omega

/-- STATUS bit by bit, in phase IDLE (R123). -/
theorem statusWord_getLsbD {s : State} (hidle : s.phase = .idle) (k : Nat) : s.statusWord.getLsbD k =
    (decide (k = 1 ∧ s.errCode ≠ 0) || decide (k = 2 ∧ s.errFirst ≠ 0) || (decide (k = 3) && s.overrun)
      || (decide (k = 4) && s.ctOor)) := by
  rw [statusWord_eq, busyFlag_eq_false_iff.mpr hidle, toWord, BitVec.getLsbD_ofNat]
  rcases k with _ | _ | _ | _ | _ | k
  · simp
  · simp only [Nat.testBit_bit_succ, Nat.testBit_bit_zero]; simp [State.errFlag]
  · simp only [Nat.testBit_bit_succ, Nat.testBit_bit_zero]; simp [State.stickyFlag]
  · simp only [Nat.testBit_bit_succ, Nat.testBit_bit_zero]; simp
  · simp only [Nat.testBit_bit_succ, Nat.testBit_bit_zero]; simp
  · simp only [Nat.testBit_bit_succ, Nat.zero_testBit]; simp

/-- CFG holds the three widths (R121). -/
theorem cfgWord_toNat {p : Params} (h : LegalRanges p) :
    (cfgWord p).toNat = p.branchW + 256 * p.maxCwLen + 65536 * p.countW := by
  obtain ⟨hb, hb'⟩ := h.branchW
  obtain ⟨hm, hm'⟩ := h.maxCwLen
  have hc := h.countW
  rw [cfgWord, toNat_toWord (by omega)]
  omega

/-- A table in canonical form lists one entry for each letter that has one. -/
theorem keys_nodup {α : Type} {t : Table α} (h : keysRising t = true) : (t.map Prod.fst).Nodup :=
  (of_decide_eq_true h : (t.map Prod.fst).Pairwise (· < ·)).imp Nat.ne_of_lt

theorem mem_keys_iff {α : Type} {t : Table α} (h : keysRising t = true) (l : Nat) :
    l ∈ t.map Prod.fst ↔ (tableGet t l).isSome = true := by
  simp [Option.isSome_iff_exists, tableGet_eq_some_iff t h]

/-- A table with letters up to `m` lists at most `m + 1` entries. -/
theorem length_le_of_keys_le {α : Type} {t : Table α} (h : keysRising t = true) {m : Nat} (hm : ∀ e ∈ t, e.1 ≤ m) :
    t.length ≤ m + 1 := by
  have hsub : t.map Prod.fst ⊆ List.range (m + 1) := by
    intro l hl
    obtain ⟨e, he, rfl⟩ := List.mem_map.mp hl
    exact List.mem_range.mpr (Nat.lt_succ_of_le (hm e he))
  simpa using ((keys_nodup h).subperm hsub).length_le

/-- The lengths fit their registers (R128). -/
theorem State.Inv.lengths_fit {s : State} (h : s.Inv) :
    s.obuf.length < 2 ^ 32 ∧ s.ibuf.length < 2 ^ 32 ∧ s.icur < 2 ^ 32 ∧ s.txt.length < 2 ^ 32 ∧ s.bytes.length < 2 ^ 32
    ∧ s.node.length < 2 ^ 32 ∧ s.ct.length < 2 ^ 32 := by
  have hp := legal_ranges h.cfgLegal
  have hbits := hp.bitCap
  have htext := hp.textCap
  have hnodes := hp.nodeCap
  have hmid := mid_range h.cfgLegal
  have hmax := maxCount_eq h.cfgLegal
  have hobuf := h.obufFits
  have hibuf := h.ibufFits
  have hicur := h.cursor
  have htxt := h.txtFits
  have hbytes : s.bytes.length ≤ s.cfg.bitCap / 8 := h.bytesFit
  have hnode := h.trie.fits
  have hct : s.ct.length ≤ s.cfg.mid - 2 + 1 :=
    length_le_of_keys_le ((memory_wf_iff s).mp h.tables).2 fun e he => (h.ctRange e he).1
  omega

/-- A legal access in the window is let through (R201, R210). -/
theorem checkAccess_window {p : Params} (hp : p.legal = true) {off : Nat} (hoff : off % 4 = 0) (hlt : off < 256) :
    checkAccess p (p.hufBase + off) 4 = .ok off := by
  have hbase := (legal_ranges hp).hufBase
  refine checkAccess_ok.mpr ⟨?_, rfl, hlt⟩
  simp only [accessLegal, Bool.and_eq_true, decide_eq_true_eq]
  exact ⟨⟨⟨trivial, by omega⟩, by omega⟩, by omega⟩

/-- Outside BUSY a step is the host's turn. -/
theorem step_eq_hostTurn {s : State} (h : s.inReset = true ∨ s.phase = .idle) : step s = hostTurn s := by
  obtain ⟨-, hstep⟩ | ⟨w, a, b, c, k, hr, hp, -⟩ | ⟨w, a, b, c, hr, hp, -⟩ := step_cases s
  · exact hstep
  · simp [hr, hp] at h
  · simp [hr, hp] at h

/-- A read in phase IDLE answers the register (R111, R211). -/
theorem step_read_idle {s : State} {off : Nat} {rest : List HostOp} (hp : s.cfg.legal = true) (hidle : s.phase = .idle)
    (hoff : off % 4 = 0) (hlt : off < 256) (hhost : s.host = .read (s.cfg.hufBase + off) 4 :: rest) :
    step s = .next { s with host := rest, rdata := readReg { s with host := rest } off } := by
  have hread : portRead { s with host := rest } off = (readReg { s with host := rest } off, { s with host := rest }) := by
    have : ¬ ({ s with host := rest } : State).busyFlag = true := by
      rw [Bool.not_eq_true, busyFlag_eq_false_iff]
      exact hidle
    rw [portRead, if_neg this]
  rw [step_eq_hostTurn (.inr hidle), hostTurn, hhost]
  simp only [serve, checkAccess_window hp hoff hlt, hread]

/-- A length register reads its length (R128). -/
theorem readReg_lengths {s : State} (h : s.Inv) :
    (readReg s 0x2C).toNat = s.obuf.length ∧ (readReg s 0x30).toNat = s.ibuf.length ∧ (readReg s 0x34).toNat = s.icur
    ∧ (readReg s 0x38).toNat = s.txt.length ∧ (readReg s 0x3C).toNat = s.bytes.length
    ∧ (readReg s 0x40).toNat = s.node.length ∧ (readReg s 0x44).toNat = s.ct.length := by
  obtain ⟨hobuf, hibuf, hicur, htxt, hbytes, hnode, hct⟩ := h.lengths_fit
  exact ⟨toNat_toWord hobuf, toNat_toWord hibuf, toNat_toWord hicur, toNat_toWord htxt, toNat_toWord hbytes,
    toNat_toWord hnode, toNat_toWord hct⟩

/-- The registers of the capacities and of MAX_LETTER (R129). -/
theorem readReg_capacities {s : State} (hp : s.cfg.legal = true) :
    (readReg s 0x48).toNat = s.cfg.bitCap ∧ (readReg s 0x4C).toNat = s.cfg.bitCap / 8
    ∧ (readReg s 0x50).toNat = s.cfg.textCap ∧ (readReg s 0x54).toNat = s.cfg.nodeCap
    ∧ (readReg s 0x58).toNat = 2 ^ (s.cfg.branchW - 1) - 2 := by
  have hbits := (legal_ranges hp).bitCap
  have htext := (legal_ranges hp).textCap
  have hnodes := (legal_ranges hp).nodeCap
  have hmid := mid_range hp
  have hmax := maxCount_eq hp
  have hbytes : s.cfg.byteCap = s.cfg.bitCap / 8 := rfl
  have hletter : s.cfg.maxLetter = s.cfg.mid - 2 := rfl
  exact ⟨toNat_toWord (by omega), toNat_toWord (by omega), toNat_toWord (by omega), toNat_toWord (by omega),
    toNat_toWord (by omega)⟩

/-- Settles O46: the step answers the register at the offset, and each register reads as R111 says. -/
theorem idleReadsFollowTheRegisterMap : Obligations.IdleReadsFollowTheRegisterMap := by
  intro s off rest hp _ hidle hoff hlt hhost
  refine ⟨_, step_read_idle hp hidle hoff hlt hhost, rfl, by simp [agreeOutside_iff], ?_⟩
  obtain ⟨hbits, hbytes, htext, hnodes, hletter⟩ := readReg_capacities (s := { s with host := rest }) hp
  refine ⟨?id, ?cfg, ?cmd, ?status, ?errCode, ?errFirst, ?opa, ?opb, ?opc, ?result, ?result2, ?obufLen, ?ibufLen, ?icur,
    ?txtLen, ?byteLen, ?nodes, ?ctCount, ?bitCap, ?byteCap, ?textCap, ?nodeCap, ?maxLetter, readReg_reserved _, ?lengths⟩
  case lengths =>
    intro h
    obtain ⟨hobuf, hibuf, hicur, htxt, hbytes, hnode, hct⟩ := readReg_lengths (h.withHost rest)
    have hrising := ((memory_wf_iff s).mp h.tables).2
    refine ⟨?_, ?_, ?_, ?_, ?_, ?_, ?letters⟩ <;> rintro rfl
    case letters => exact ⟨s.ct.map Prod.fst, keys_nodup hrising, mem_keys_iff hrising, by simpa using hct⟩
    all_goals assumption
  all_goals rintro rfl
  case cfg => exact cfgWord_toNat (legal_ranges hp)
  case status => exact statusWord_getLsbD (s := { s with host := rest }) hidle
  case errCode => exact BitVec.toNat_setWidth_of_le (by decide)
  case errFirst => exact BitVec.toNat_setWidth_of_le (by decide)
  case bitCap => exact hbits
  case byteCap => exact hbytes
  case textCap => exact htext
  case nodeCap => exact hnodes
  case maxLetter => exact hletter
  all_goals rfl

end Sys2Proof.Machine
end

section
/-! PROOF. ERR_FIRST and the two sticky flags: what a command and the host's turn do to them (R123, R125, R130, R156). -/

namespace Sys2Proof.Machine

/-! ### Register writes -/

theorem writeBusy_errFirst (s : State) (off : Nat) : (writeBusy s off).errFirst = s.errFirst := by
  unfold writeBusy
  split
  · rfl
  · rfl

theorem writeBusy_ctOor (s : State) (off : Nat) : (writeBusy s off).ctOor = s.ctOor := by
  unfold writeBusy
  split
  · rfl
  · rfl

/-- A dropped write to a writable register sets OVERRUN, and no other does (R1220). -/
theorem writeBusy_overrun (s : State) (off : Nat) : (writeBusy s off).overrun = (hostWritable off || s.overrun) := by
  unfold writeBusy
  split
  · next h => simp [h]
  · next h => simp [h]

theorem hostWritable_iff {off : Nat} : hostWritable off = true ↔
    off = 0x08 ∨ off = 0x14 ∨ off = 0x18 ∨ off = 0x1C ∨ off = 0x20 := by
  simp [hostWritable, or_assoc]

theorem writeIdle_ctOor (s : State) (off : Nat) (v : Word) : (writeIdle s off v).ctOor = s.ctOor := by
  unfold writeIdle
  split <;> rfl

/-- Only a write to ERR_FIRST clears the sticky registers (R213). -/
theorem writeIdle_sticky {s : State} {off : Nat} (hoff : off ≠ 0x14) (v : Word) :
    (writeIdle s off v).errFirst = s.errFirst ∧ (writeIdle s off v).overrun = s.overrun := by
  unfold writeIdle
  split
  case h_2 => exact (hoff rfl).elim
  all_goals exact ⟨rfl, rfl⟩

theorem portWrite_ctOor (s : State) (off : Nat) (v : Word) : (portWrite s off v).ctOor = s.ctOor := by
  obtain ⟨-, hw⟩ | ⟨-, -, hw⟩ | ⟨-, -, hw⟩ := portWrite_cases s off v
  · rw [hw]
  · rw [hw, writeBusy_ctOor]
  · rw [hw, writeIdle_ctOor]

theorem portWrite_errFirst {s : State} {off : Nat} (hoff : off ≠ 0x14) (v : Word) :
    (portWrite s off v).errFirst = s.errFirst := by
  obtain ⟨-, hw⟩ | ⟨-, -, hw⟩ | ⟨-, -, hw⟩ := portWrite_cases s off v
  · rw [hw]
  · rw [hw, writeBusy_errFirst]
  · rw [hw, (writeIdle_sticky hoff v).1]

/-- A register write sets OVERRUN only where it is dropped in BUSY (R123, R1220). -/
theorem portWrite_sets_overrun {s : State} {off : Nat} {v : Word} (hs : s.overrun = false)
    (h : (portWrite s off v).overrun = true) : s.phase ≠ .idle ∧ hostWritable off = true := by
  obtain ⟨-, hw⟩ | ⟨-, hbusy, hw⟩ | ⟨-, -, hw⟩ := portWrite_cases s off v <;> rw [hw] at h
  · rw [hs] at h; cases h
  · rw [writeBusy_overrun, hs, Bool.or_false] at h
    exact ⟨hbusy, h⟩
  · by_cases hoff : off = 0x14
    · subst hoff
      cases h
    · rw [(writeIdle_sticky hoff v).2, hs] at h
      cases h

/-- A register write clears OVERRUN only in IDLE, at ERR_FIRST (R123, R213). -/
theorem portWrite_clears_overrun {s : State} {off : Nat} {v : Word} (hs : s.overrun = true)
    (h : (portWrite s off v).overrun = false) : s.phase = .idle ∧ off = 0x14 := by
  obtain ⟨-, hw⟩ | ⟨-, -, hw⟩ | ⟨-, hidle, hw⟩ := portWrite_cases s off v <;> rw [hw] at h
  · rw [hs] at h; cases h
  · rw [writeBusy_overrun, hs, Bool.or_true] at h
    cases h
  · refine ⟨hidle, ?_⟩
    by_contra hoff
    rw [(writeIdle_sticky hoff v).2, hs] at h
    cases h

/-! ### The running command -/

theorem flags_not_mem_writesOf (i : Instr) : .errFirst ∉ writesOf i ∧ .overrun ∉ writesOf i := by
  cases i <;> decide

theorem errFirst_not_mem_keptOnError (i : Instr) : .errFirst ∉ keptOnError i := fun h =>
  (flags_not_mem_writesOf i).1 (keptOnError_subset_writesOf i _ h)

/-- The commands that may change CT_OOR (R156). -/
theorem ctOor_mem_writesOf {i : Instr} (h : .ctOor ∈ writesOf i) :
    i = .unpackTable ∨ i = .ctClr ∨ i = .build ∨ i = .clear := by
  revert h
  cases i <;> decide

theorem recordError_errFirst_of_ne {s : State} (e : ErrKind) (h : s.errFirst ≠ 0) :
    (s.recordError e).errFirst = s.errFirst := by
  rw [State.recordError_errFirst, if_neg h]

/-- A command leaves a first error as it is (R125, R1110). -/
theorem exec_errFirst {i : Instr} {s t : State} (h : exec i s = .next t) (hs : s.errFirst ≠ 0) :
    t.errFirst = s.errFirst := by
  obtain ⟨s', hs', hret⟩ | ⟨e, -, s', hs', hraise⟩ := exec_ends i s
  · obtain rfl := ret_next.mp (hret ▸ h)
    exact hs' .errFirst (flags_not_mem_writesOf i).1
  · obtain rfl := raise_next.mp (hraise ▸ h)
    have hkept : s'.errFirst = s.errFirst := hs' .errFirst (errFirst_not_mem_keptOnError i)
    rw [recordError_errFirst_of_ne e (hkept ▸ hs), hkept]

theorem runCommand_errFirst {w : Word} {s t : State} (h : runCommand w s = .next t) (hs : s.errFirst ≠ 0) :
    t.errFirst = s.errFirst := by
  unfold runCommand at h
  split at h
  · exact exec_errFirst h hs
  · obtain rfl := raise_next.mp h
    exact recordError_errFirst_of_ne _ hs

theorem runCommand_overrun {w : Word} {s t : State} (h : runCommand w s = .next t) : t.overrun = s.overrun := by
  unfold runCommand at h
  split at h
  · next i _ => exact exec_frame h .overrun (by simp [(flags_not_mem_writesOf i).2])
  · obtain rfl := raise_next.mp h
    rfl

/-- CT_OOR changes only by a command that has it in its `writes` column (R156, R310). -/
theorem runCommand_ctOor {w : Word} {s t : State} (h : runCommand w s = .next t) (hne : t.ctOor ≠ s.ctOor) :
    decode w = .ok .unpackTable ∨ decode w = .ok .ctClr ∨ decode w = .ok .build ∨ decode w = .ok .clear := by
  unfold runCommand at h
  split at h
  · next i hi =>
    have hmem : .ctOor ∈ writesOf i := by
      by_contra hmem
      exact hne (exec_frame h .ctOor (by simp [hmem]))
    rw [hi]
    simpa using ctOor_mem_writesOf hmem
  · obtain rfl := raise_next.mp h
    exact (hne rfl).elim

/-! ### The host's turn -/

theorem hostTurn_errFirst {s t : State} (h : hostTurn s = .next t) (hreset : ∀ rest, s.host ≠ .resetAssert :: rest)
    (hclear : ∀ v rest, s.host ≠ .write (s.cfg.hufBase + 0x14) 4 v :: rest) : t.errFirst = s.errFirst := by
  obtain rfl | ⟨off, v, rest, -, hhost, rfl⟩ | ⟨ops, x, d, rfl⟩ | ⟨rest, hhost, rfl⟩ | ⟨rest, -, rfl⟩ := hostTurn_cases h
  · rfl
  · have hoff : off ≠ 0x14 := fun h => hclear v rest (h ▸ hhost)
    exact portWrite_errFirst hoff v
  · rfl
  · exact (hreset rest hhost).elim
  · rfl

theorem hostTurn_sets_overrun {s t : State} (h : hostTurn s = .next t) (hs : s.overrun = false) (ht : t.overrun = true) :
    s.phase ≠ .idle ∧ ∃ off v rest, s.host = .write (s.cfg.hufBase + off) 4 v :: rest ∧ hostWritable off = true := by
  obtain rfl | ⟨off, v, rest, -, hhost, rfl⟩ | ⟨ops, x, d, rfl⟩ | ⟨rest, hhost, rfl⟩ | ⟨rest, -, rfl⟩ := hostTurn_cases h
  · simp [hs] at ht
  · obtain ⟨hbusy, hoff⟩ := portWrite_sets_overrun (s := { s with host := rest }) hs ht
    exact ⟨hbusy, off, v, rest, hhost, hoff⟩
  · simp [hs] at ht
  · simp at ht
  · simp [hs] at ht

theorem hostTurn_clears_overrun {s t : State} (h : hostTurn s = .next t) (hs : s.overrun = true)
    (ht : t.overrun = false) :
    (∃ rest, s.host = .resetAssert :: rest)
    ∨ (s.phase = .idle ∧ ∃ v rest, s.host = .write (s.cfg.hufBase + 0x14) 4 v :: rest) := by
  obtain rfl | ⟨off, v, rest, -, hhost, rfl⟩ | ⟨ops, x, d, rfl⟩ | ⟨rest, hhost, rfl⟩ | ⟨rest, -, rfl⟩ := hostTurn_cases h
  · simp [hs] at ht
  · obtain ⟨hidle, rfl⟩ := portWrite_clears_overrun (s := { s with host := rest }) hs ht
    exact .inr ⟨hidle, v, rest, hhost⟩
  · simp [hs] at ht
  · exact .inl ⟨rest, hhost⟩
  · simp [hs] at ht

theorem hostTurn_ctOor {s t : State} (h : hostTurn s = .next t) (hne : t.ctOor ≠ s.ctOor) :
    ∃ rest, s.host = .resetAssert :: rest := by
  obtain rfl | ⟨off, v, rest, -, -, rfl⟩ | ⟨ops, x, d, rfl⟩ | ⟨rest, hhost, rfl⟩ | ⟨rest, -, rfl⟩ := hostTurn_cases h
  · exact (hne rfl).elim
  · exact (hne (portWrite_ctOor _ off v)).elim
  · exact (hne rfl).elim
  · exact ⟨rest, hhost⟩
  · exact (hne rfl).elim

/-! ### The step -/

/-- Settles O55: no command changes a first error, and the host's turn only by the two events excluded (R125). -/
theorem errFirstKeepsTheFirstError : Obligations.ErrFirstKeepsTheFirstError := by
  intro s t ht hs hreset hclear
  obtain ⟨-, hstep⟩ | ⟨w, a, b, c, k, -, -, -, hstep⟩ | ⟨w, a, b, c, -, -, -, hstep⟩ := step_cases s
  · exact hostTurn_errFirst (hstep.symm.trans ht) hreset hclear
  · exact (hostTurn_errFirst (hstep.symm.trans ht) hreset hclear :)
  · exact runCommand_errFirst (hstep.symm.trans ht) hs

/-- The flags' events of a step that is the host's turn. -/
theorem hostTurn_flags {s t : State} (h : hostTurn s = .next t) :
    (s.overrun = false → t.overrun = true → s.phase ≠ .idle
      ∧ ∃ off v rest, s.host = .write (s.cfg.hufBase + off) 4 v :: rest
        ∧ (off = 0x08 ∨ off = 0x14 ∨ off = 0x18 ∨ off = 0x1C ∨ off = 0x20))
    ∧ (s.overrun = true → t.overrun = false →
        (∃ rest, s.host = .resetAssert :: rest)
        ∨ (s.phase = .idle ∧ ∃ v rest, s.host = .write (s.cfg.hufBase + 0x14) 4 v :: rest))
    ∧ (t.ctOor ≠ s.ctOor → ∃ rest, s.host = .resetAssert :: rest) := by
  simp only [← hostWritable_iff]
  exact ⟨hostTurn_sets_overrun h, hostTurn_clears_overrun h, hostTurn_ctOor h⟩

/-- Settles O56: the host's turn changes the flags by its events only, and a command CT_OOR alone (R123, R130, R156). -/
theorem flagsChangeOnlyByTheirEvents : Obligations.FlagsChangeOnlyByTheirEvents := by
  intro s t ht
  obtain ⟨-, hstep⟩ | ⟨w, a, b, c, k, -, -, -, hstep⟩ | ⟨w, a, b, c, -, hphase, -, hstep⟩ := step_cases s
  · obtain ⟨hset, hclear, hct⟩ := hostTurn_flags (hstep.symm.trans ht)
    exact ⟨hset, hclear, fun hne => .inl (hct hne)⟩
  · obtain ⟨hset, hclear, hct⟩ := hostTurn_flags (hstep.symm.trans ht)
    exact ⟨hset, hclear, fun hne => .inl (hct hne)⟩
  · have hrun := hstep.symm.trans ht
    have hoverrun := runCommand_overrun hrun
    refine ⟨fun hs ht => ?_, fun hs ht => ?_, fun hne => .inr ⟨w, a, b, c, hphase, runCommand_ctOor hrun hne⟩⟩
    · simp [hoverrun, hs] at ht
    · simp [hoverrun, hs] at ht

end Sys2Proof.Machine
end

section
/-! PROOF. The step that runs a command, CLEAR, and the reset values (R101, R170, R171, R411). -/

namespace Sys2Proof.Machine

/-- Settles O43: with no latency left a step is `runCommand`, which is `exec` of the decoded command (R101). -/
theorem stepRunsTheDecodedCommand : Obligations.StepRunsTheDecodedCommand := by
  intro s w a b c i hreset hphase hleft hdecode
  simp only [step, advance, hreset, hphase, hleft, runCommand, hdecode, Bool.false_eq_true, if_false]

/-- Settles O2: CLEAR returns from `clearDatapath`, whose fields hold the reset values (R171, R411). -/
theorem clearResetsTheDatapath : Obligations.ClearResetsTheDatapath := by
  refine ⟨by decide, fun s => succeeds_of_ret (s' := s.clearDatapath) rfl (by simp [agreeOutside_iff]) ?_⟩
  exact ⟨rfl, rfl, rfl, rfl, rfl, fun _ => rfl, fun _ => rfl, rfl, rfl, rfl, rfl, rfl⟩

/-- Settles O51: the fields of `State.reset`, and the registers that R170 lists, evaluated. -/
theorem resetHoldsTheSpecValues : Obligations.ResetHoldsTheSpecValues := by
  refine ⟨rfl, rfl, rfl, rfl, rfl, rfl, rfl, rfl, rfl, rfl, rfl, rfl, rfl, rfl, rfl, rfl, fun _ => rfl, fun _ => rfl,
    ?_, ?_, ?_, ?_, ?_, ?_, ?_, ?_, ?_⟩
  all_goals decide

end Sys2Proof.Machine
end

section
/-! PROOF. The values of bit sequences and the byte conversions (R32, R205, R1002). -/

namespace Sys2Proof.Machine

/-! ### Numbers and bits -/

/-- One more binary digit at the low end is one more bit at the end. -/
theorem binBits_bit (k n : Nat) (b : Bool) : binBits (k + 1) (Nat.bit b n) = binBits k n ++ [b] := by
  induction k with
  | zero => simp [binBits]
  | succ k ih => rw [binBits, ih, binBits, Nat.testBit_bit_succ, List.cons_append]

/-- The digits of a sequence's value are the sequence (R32). -/
theorem binBits_bitsVal (x : Bits) : binBits x.length (bitsVal x) = x := by
  induction x using List.reverseRecOn with
  | nil => rfl
  | append_singleton x b ih =>
    rw [bitsVal_append_singleton, ← Nat.bit_val, List.length_append, List.length_singleton, binBits_bit, ih]

/-- The value of the low digits of a number (R32). -/
theorem bitsVal_binBits (k n : Nat) : bitsVal (binBits k n) = n % 2 ^ k := by
  induction k with
  | zero => rw [pow_zero, Nat.mod_one, binBits, bitsVal_nil]
  | succ k ih =>
    rw [binBits, bitsVal_cons, ih, length_binBits, Nat.mod_pow_succ, Nat.toNat_testBit, Nat.add_comm, Nat.mul_comm]

theorem bitsVal_lt (x : Bits) : bitsVal x < 2 ^ x.length := by
  have h := bitsVal_binBits x.length (bitsVal x)
  rw [binBits_bitsVal] at h
  exact h ▸ Nat.mod_lt _ (Nat.two_pow_pos _)

/-- Bit `j` of a sequence of `n` bits is bit `n - 1 - j` of its value (R32). -/
theorem testBit_bitsVal {x : Bits} {j : Nat} (hj : j < x.length) :
    (bitsVal x).testBit (x.length - 1 - j) = x.getD j false := by
  have h := getElem?_binBits x.length (bitsVal x) j hj
  rw [binBits_bitsVal] at h
  rw [List.getD_eq_getElem?_getD, h, Option.getD_some]

/-- The bits of a slice are those of the sequence from its start on (R31). -/
theorem getD_slice (x : Bits) (i : Nat) {j n : Nat} (hj : j < n) :
    (slice x i (i + n)).getD j false = x.getD (i + j) false := by
  simp [slice, List.getD_eq_getElem?_getD, hj]

/-! ### Group and Expand -/

theorem groupBytes_append {c : Bits} (hc : c.length = 8) (rest : Bits) :
    groupBytes (c ++ rest) = BitVec.ofNat 8 (bitsVal c) :: groupBytes rest := by
  match c, hc with
  | [_, _, _, _, _, _, _, _], _ => rfl

/-- `Group` makes the first 8 bits one byte (R1002). -/
theorem groupBytes_eq_cons {x : Bits} (h : 8 ≤ x.length) :
    groupBytes x = BitVec.ofNat 8 (bitsVal (x.take 8)) :: groupBytes (x.drop 8) := by
  rw [← groupBytes_append (List.length_take_of_le h), List.take_append_drop]

theorem expandBytes_cons (b : Byte) (bs : List Byte) :
    expandBytes (b :: bs) = binBits 8 b.toNat ++ expandBytes bs := rfl

/-- The byte of a chunk holds the chunk's value (R205). -/
theorem toNat_byte_of_bits {c : Bits} (hc : c.length = 8) : (BitVec.ofNat 8 (bitsVal c)).toNat = bitsVal c := by
  have h := bitsVal_lt c
  rw [hc] at h
  rw [BitVec.toNat_ofNat, Nat.mod_eq_of_lt h]

/-- Byte `i` of `Group` is the value of chunk `i` (R205). -/
theorem getElem?_groupBytes {x : Bits} {i : Nat} (h : 8 * i + 8 ≤ x.length) :
    (groupBytes x)[i]? = some (BitVec.ofNat 8 (bitsVal (slice x (8 * i) (8 * i + 8)))) := by
  rw [groupBytes_eq_cons (by omega)]
  induction i generalizing x with
  | zero => rfl
  | succ i ih =>
    have hlen : (x.drop 8).length = x.length - 8 := List.length_drop
    rw [List.getElem?_cons_succ, groupBytes_eq_cons (by omega), ih (by omega), slice, slice, List.drop_drop,
      show 8 + 8 * i = 8 * (i + 1) by omega, Nat.add_sub_cancel_left, Nat.add_sub_cancel_left]

theorem expandBytes_groupBytes {n : Nat} {x : Bits} (h : x.length = 8 * n) : expandBytes (groupBytes x) = x := by
  induction n generalizing x with
  | zero =>
    obtain rfl := List.eq_nil_of_length_eq_zero h
    rfl
  | succ n ih =>
    have hchunk : (x.take 8).length = 8 := List.length_take_of_le (by omega)
    have hdigits := binBits_bitsVal (x.take 8)
    rw [hchunk] at hdigits
    have hrest : (x.drop 8).length = 8 * n := by rw [List.length_drop]; omega
    rw [groupBytes_eq_cons (by omega), expandBytes_cons, toNat_byte_of_bits hchunk, hdigits, ih hrest,
      List.take_append_drop]

theorem groupBytes_expandBytes (bs : List Byte) : groupBytes (expandBytes bs) = bs := by
  induction bs with
  | nil => rfl
  | cons b bs ih =>
    rw [expandBytes_cons, groupBytes_append (length_binBits 8 _), ih, bitsVal_binBits, Nat.mod_eq_of_lt b.isLt,
      BitVec.ofNat_toNat, BitVec.setWidth_eq]

/-- Settles O15: byte `i` is the value of chunk `i`, whose digits are the chunk. -/
theorem byteConversionsAreMsbFirstInverses : Obligations.ByteConversionsAreMsbFirstInverses := by
  refine ⟨fun x hx => ?_, groupBytes_expandBytes⟩
  have hlen := length_groupBytes x
  refine ⟨by omega, expandBytes_groupBytes (n := x.length / 8) (by omega), fun i hi => ?_⟩
  have hchunk : (slice x (8 * i) (8 * i + 8)).length = 8 := by rw [length_slice]; omega
  have hbyte : ((groupBytes x).getD i 0).toNat = bitsVal (slice x (8 * i) (8 * i + 8)) := by
    rw [List.getD_eq_getElem?_getD, getElem?_groupBytes (by omega), Option.getD_some, toNat_byte_of_bits hchunk]
  refine ⟨hbyte, fun j hj => ?_⟩
  have hbit := testBit_bitsVal (x := slice x (8 * i) (8 * i + 8)) (j := j) (by omega)
  rw [hchunk, getD_slice x _ hj, ← hbyte] at hbit
  exact hbit.symm

end Sys2Proof.Machine
end

section
/-! PROOF. What one access of the host does: reads, refused accesses and writes in phase IDLE (R201, R210, R212, R213). -/

namespace Sys2Proof.Machine

/-! ### Reads -/

/-- Where no command completes, a step is the host's turn, with at most one step of latency used up. -/
theorem step_eq_hostTurn_withBusyLeft {s : State} (h : s.inReset = true ∨ s.phase = .idle ∨ s.busyLeft ≠ 0) :
    ∃ k, step s = hostTurn { s with busyLeft := k } := by
  obtain ⟨-, hstep⟩ | ⟨w, a, b, c, k, -, -, -, hstep⟩ | ⟨w, a, b, c, hreset, hphase, hleft, -⟩ := step_cases s
  · exact ⟨s.busyLeft, hstep⟩
  · exact ⟨k, hstep⟩
  · simp [hreset, hphase, hleft] at h

theorem hostTurn_cons {s : State} {op : HostOp} {rest : List HostOp} (h : s.host = op :: rest) :
    hostTurn s = serve op { s with host := rest } := by
  rw [hostTurn, h]

/-- A turn in which the host neither writes nor resets changes the record of the port and of the host only (R212). -/
theorem hostTurn_frame_of_read {s t : State} {op : HostOp} {rest : List HostOp} (hhost : s.host = op :: rest)
    (hop : (∃ addr width, op = .read addr width) ∨ op = .wait ∨ op = .check) (h : hostTurn s = .next t) :
    AgreeOutside [.host, .rdata, .draws] s t := by
  have hother {op' : HostOp} {rest' : List HostOp} (h' : s.host = op' :: rest') : op' = op := by
    rw [h'] at hhost
    exact (List.cons.inj hhost).1
  obtain rfl | ⟨off, v, rest', -, hw, -⟩ | ⟨ops, x, d, rfl⟩ | ⟨rest', hr, -⟩ | ⟨rest', hr, -⟩ := hostTurn_cases h
  · exact AgreeOutside.refl _ _
  · obtain rfl := hother hw
    simp at hop
  · simp [agreeOutside_iff]
  · obtain rfl := hother hr
    simp at hop
  · obtain rfl := hother hr
    simp at hop

/-- Settles O48: such a step is the host's turn with a step of latency used up at most, and the turn keeps the block. -/
theorem readsChangeNoRegister : Obligations.ReadsChangeNoRegister := by
  intro s t op rest hhost hop hturn ht
  obtain ⟨k, hstep⟩ := step_eq_hostTurn_withBusyLeft hturn
  have hlatency : AgreeOutside [.host, .busyLeft, .rdata, .draws] s { s with busyLeft := k } := by
    simp [agreeOutside_iff]
  have hread := hostTurn_frame_of_read (s := { s with busyLeft := k }) hhost hop (hstep.symm.trans ht)
  exact hlatency.trans (hread.mono (by decide))

/-! ### Accesses that are refused -/

theorem checkAccess_badAccess {p : Params} {addr width : Nat} (h : ¬ (width = 4 ∧ addr % 4 = 0)) :
    checkAccess p addr width = .error .badAccess := by
  rw [checkAccess, if_pos (by omega)]

theorem checkAccess_outsideWindow {p : Params} {addr width : Nat} (h : width = 4 ∧ addr % 4 = 0)
    (hout : ¬ (p.hufBase ≤ addr ∧ addr < p.hufBase + 256)) : checkAccess p addr width = .error .outsideWindow := by
  rw [checkAccess, if_neg (by omega), if_pos (by omega)]

theorem checkAccess_of_legal {p : Params} {addr width : Nat} (h : accessLegal p addr width = true) :
    checkAccess p addr width = .ok (addr - p.hufBase) := by
  refine checkAccess_ok.mpr ⟨h, ?_⟩
  simp only [accessLegal, Bool.and_eq_true, decide_eq_true_eq] at h
  omega

section
variable {s : State} {op : HostOp} {addr width : Nat} {v : Word} (hop : op = .write addr width v ∨ op = .read addr width)
include hop

/-- A read or write that does not pass the check is refused with what the check says (R210). -/
theorem serve_access_refused {r : Refusal} (h : checkAccess s.cfg addr width = .error r) : serve op s = .refused r := by
  obtain rfl | rfl := hop
  · simp only [serve, h]
  · simp only [serve, h]

/-- A read or write that passes the check is served (R211, R213). -/
theorem serve_access_served {off : Nat} (h : checkAccess s.cfg addr width = .ok off) : ∃ t, serve op s = .next t := by
  obtain rfl | rfl := hop
  · exact ⟨portWrite s off v, by simp only [serve, h]⟩
  · exact ⟨{ (portRead s off).2 with rdata := (portRead s off).1 }, by simp only [serve, h]⟩

end

/-- Settles O49: the step is the host's turn, and the turn answers what the check of the access says. -/
theorem illFormedAccessesAreRefused : Obligations.IllFormedAccessesAreRefused := by
  intro s addr width v rest _ hturn hhost
  obtain ⟨k, hstep⟩ := step_eq_hostTurn_withBusyLeft hturn
  obtain ⟨op, hop, hhost⟩ : ∃ op, (op = .write addr width v ∨ op = .read addr width) ∧ s.host = op :: rest := by
    obtain h | h := hhost
    · exact ⟨_, .inl rfl, h⟩
    · exact ⟨_, .inr rfl, h⟩
  rw [hstep, hostTurn_cons (s := { s with busyLeft := k }) hhost]
  exact ⟨fun hbad => serve_access_refused hop (checkAccess_badAccess hbad),
    fun hwide hout => serve_access_refused hop (checkAccess_outsideWindow hwide hout),
    fun hlegal => serve_access_served hop (checkAccess_of_legal hlegal)⟩

/-! ### Writes in phase IDLE -/

/-- A write in phase IDLE reaches the register (R213). -/
theorem step_write_idle {s : State} {off : Nat} {v : Word} {rest : List HostOp} (hp : s.cfg.legal = true)
    (hreset : s.inReset = false) (hidle : s.phase = .idle) (hoff : off % 4 = 0) (hlt : off < 256)
    (hhost : s.host = .write (s.cfg.hufBase + off) 4 v :: rest) :
    step s = .next (writeIdle { s with host := rest } off v) := by
  have hwrite : portWrite { s with host := rest } off v = writeIdle { s with host := rest } off v := by
    obtain ⟨hr, -⟩ | ⟨-, hbusy, -⟩ | ⟨-, -, hw⟩ := portWrite_cases { s with host := rest } off v
    · simp [hreset] at hr
    · exact (hbusy hidle).elim
    · exact hw
  rw [step_eq_hostTurn (.inr hidle), hostTurn_cons hhost]
  simp only [serve, checkAccess_window hp hoff hlt, hwrite]

theorem writeIdle_host (s : State) (off : Nat) (v : Word) : (writeIdle s off v).host = s.host := by
  unfold writeIdle
  split <;> rfl

/-- A write to an RO or reserved offset is ignored (R213). -/
theorem writeIdle_of_not_writable {s : State} {off : Nat} (h : hostWritable off = false) (v : Word) :
    writeIdle s off v = s := by
  unfold writeIdle
  split
  case h_6 => rfl
  all_goals cases h

/-- Settles O44: the step is `writeIdle`, which writes the register of its offset and no other. -/
theorem idleWritesTakeEffect : Obligations.IdleWritesTakeEffect := by
  intro s off v rest hp hreset hidle hoff hlt hhost
  refine ⟨_, step_write_idle hp hreset hidle hoff hlt hhost, writeIdle_host _ off v, ?cmd, ?errFirst, ?opa, ?opb, ?opc,
    ?other⟩
  case other =>
    intro hcmd herr ha hb hc
    have hignored : hostWritable off = false := by
      rw [← Bool.not_eq_true, hostWritable_iff]
      simp [hcmd, herr, ha, hb, hc]
    rw [writeIdle_of_not_writable hignored]
    simp [agreeOutside_iff]
  all_goals rintro rfl
  case cmd => exact ⟨rfl, rfl, by simp [agreeOutside_iff, writeIdle]⟩
  case errFirst => exact ⟨rfl, rfl, by simp [agreeOutside_iff, writeIdle]⟩
  all_goals exact ⟨rfl, by simp [agreeOutside_iff, writeIdle]⟩

end Sys2Proof.Machine
end

section
/-! PROOF. The command word (R300, R310, R320): which words decode to which command, and what an illegal word does. -/

namespace Sys2Proof.Machine

/-- OPCODE is the word modulo 256 (R300). -/
theorem opcodeField_eq (w : Word) : opcodeField w = w.toNat % 256 := by
  simp [opcodeField]

/-- RSVD is the word divided by 256 (R300). -/
theorem rsvdField_eq (w : Word) : rsvdField w = w.toNat / 256 := by
  have hw : w.toNat < 2 ^ 32 := w.isLt
  simp only [rsvdField, BitVec.extractLsb'_toNat, Nat.shiftRight_eq_div_pow]
  omega

@[simp] theorem toNat_encode (i : Instr) : (encode i).toNat = i.opcode.toNat :=
  BitVec.toNat_setWidth_of_le (by decide)

/-- The opcode map of R310 gives a command at its opcode and nowhere else. -/
theorem ofOpcode_eq_some_iff {n : Nat} {i : Instr} : ofOpcode n = some i ↔ n = i.opcode.toNat := by
  constructor
  · unfold ofOpcode
    split <;> rintro ⟨⟩ <;> rfl
  · rintro rfl
    cases i <;> rfl

/-- The opcode map of R310 has no command exactly at the values R320 lists. -/
theorem ofOpcode_eq_none_iff {n : Nat} : ofOpcode n = none ↔
    (0x0D ≤ n ∧ n ≤ 0x0F) ∨ (0x14 ≤ n ∧ n ≤ 0x1F) ∨ (0x25 ≤ n ∧ n ≤ 0x27) ∨ (0x2C ≤ n ∧ n ≤ 0x2F)
      ∨ (0x31 ≤ n ∧ n ≤ 0x3F) ∨ (0x47 ≤ n ∧ n ≤ 0x4F) ∨ (0x56 ≤ n ∧ n ≤ 0x5F) ∨ 0x64 ≤ n := by
  by_cases h : n < 0x64
  · revert n
    decide
  · obtain ⟨k, rfl⟩ := Nat.exists_eq_add_of_le' (Nat.not_lt.mp h)
    exact iff_of_true rfl (by omega)

/-- Decoding in numbers: RSVD first, then the opcode map (R300, R320). -/
theorem decode_eq (w : Word) : decode w =
    if w.toNat / 256 = 0 then (ofOpcode (w.toNat % 256)).elim (.error .unassignedOpcode) .ok
    else .error .reservedBits := by
  rw [decode, rsvdField_eq, opcodeField_eq, ite_not]
  cases ofOpcode (w.toNat % 256) <;> rfl

theorem decode_eq_ok_iff {w : Word} {i : Instr} :
    decode w = .ok i ↔ w.toNat / 256 = 0 ∧ ofOpcode (w.toNat % 256) = some i := by
  rw [decode_eq]
  by_cases h : w.toNat / 256 = 0 <;> cases ofOpcode (w.toNat % 256) <;> simp [h]

/-- A word is illegal exactly when RSVD is not 0 or OPCODE is unassigned (R320). -/
theorem decode_error_iff {w : Word} :
    (∃ e, decode w = .error e) ↔ w.toNat / 256 ≠ 0 ∨ ofOpcode (w.toNat % 256) = none := by
  rw [decode_eq]
  by_cases h : w.toNat / 256 = 0 <;> cases ofOpcode (w.toNat % 256) <;> simp [h]

/-- Settles O41: a word without reserved bits is its opcode, and the opcode map gives a command at its opcode alone. -/
theorem decodeInvertsEncode : Obligations.DecodeInvertsEncode := by
  intro w i
  have hcode : i.opcode.toNat < 256 := i.opcode.isLt
  rw [decode_eq_ok_iff, ofOpcode_eq_some_iff, ← BitVec.toNat_inj, toNat_encode]
  omega

/-- Settles O42: the illegal words are those without an entry in the opcode map, and running one raises
IllegalCommand. -/
theorem illegalWordsRecordIllegalCommand : Obligations.IllegalWordsRecordIllegalCommand := by
  intro w
  refine ⟨by rw [decode_error_iff, ofOpcode_eq_none_iff], fun s a b c e hdecode hreset hphase hleft => ?_⟩
  have hstep : step s = raise .illegalCommand s := by
    simp only [step, advance, hreset, hphase, hleft, runCommand, hdecode, Bool.false_eq_true, if_false]
  exact ⟨s.recordError .illegalCommand, hstep, rfl, rfl, rfl, recordError_frame s _⟩

/-- Settles O40: the words of R310, evaluated. -/
theorem decodeReadsTheSpecWords : Obligations.DecodeReadsTheSpecWords := by
  unfold Obligations.DecodeReadsTheSpecWords
  decide

end Sys2Proof.Machine
end

section
/-! PROOF. What a command that ends well has written (R310, R400). -/

namespace Sys2Proof.Machine

/-- A command that ends without an error returned from its staged writes. -/
theorem exec_ok_cases {i : Instr} {s t : State} (h : exec i s = .next t) (hok : t.errCode = 0) :
    ∃ s', AgreeOutside (writesOf i) s s' ∧ t = s'.commit := by
  obtain ⟨s', hs', hret⟩ | ⟨e, -, s', -, hraise⟩ := exec_ends i s
  · exact ⟨s', hs', ret_next.mp (hret ▸ h)⟩
  · obtain rfl := raise_next.mp (hraise ▸ h)
    exact ((code_range e).1 hok).elim

/-- Settles O35: a command without an error returned, and what it staged stands in its `writes` column. -/
theorem commandsWriteOnlyTheirColumn : Obligations.CommandsWriteOnlyTheirColumn := by
  intro i s t h hok
  obtain ⟨s', hs', rfl⟩ := exec_ok_cases h hok
  exact ⟨(hs'.mono (by simp_all)).trans ((commit_frame s').mono (by simp_all)), rfl⟩

end Sys2Proof.Machine
end

section
/-! PROOF. Checked lists of statements (R331): where they stop, and that the calls that stop leave BYTES (R342). -/

namespace Sys2Proof.Machine

/-- A command that ends with an error raised it from what R1111 keeps. -/
theorem exec_failed_cases {i : Instr} {s t : State} (h : exec i s = .next t) (herr : t.errCode ≠ 0) :
    ∃ e s', AgreeOutside (keptOnError i) s s' ∧ t = s'.recordError e := by
  obtain ⟨s', -, hret⟩ | ⟨e, -, s', hs', hraise⟩ := exec_ends i s
  · obtain rfl := ret_next.mp (hret ▸ h)
    exact (herr rfl).elim
  · exact ⟨e, s', hs', raise_next.mp (hraise ▸ h)⟩

theorem bytes_not_mem_keptOnError (i : Instr) : .bytes ∉ keptOnError i := by
  cases i <;> decide

theorem Stmt.run_bytes {st : Stmt} {s t : State} (hst : .bytes ∉ writesOf st.instr) (h : st.run s = .next t) :
    t.bytes = s.bytes :=
  exec_frame h .bytes (by simp [hst])

theorem Stmt.run_ok_errFirst {st : Stmt} {s t : State} (h : st.run s = .next t) (hok : t.errCode = 0) :
    t.errFirst = s.errFirst := by
  obtain ⟨s', hs', rfl⟩ := exec_ok_cases h hok
  exact hs' .errFirst (flags_not_mem_writesOf _).1

/-- A statement whose command fails leaves BYTES, and ERR_FIRST records its error if there was none (R1110, R1111). -/
theorem Stmt.run_failed {st : Stmt} {s t : State} (h : st.run s = .next t) (herr : t.errCode ≠ 0)
    (hfirst : s.errFirst = 0) : t.bytes = s.bytes ∧ t.errFirst = t.errCode := by
  obtain ⟨e, s', hs', rfl⟩ := exec_failed_cases h herr
  have hfirst' : s'.errFirst = s.errFirst := hs' .errFirst (errFirst_not_mem_keptOnError _)
  refine ⟨hs' .bytes (bytes_not_mem_keptOnError _), ?_⟩
  rw [State.recordError_errFirst, hfirst', if_pos hfirst, State.recordError_errCode]

/-- A checked list goes on after a command that succeeds and stops after one that fails (R331). -/
theorem runChecked_cons_cases {st : Stmt} {sts : List Stmt} {s t : State} (h : runChecked (st :: sts) s = .next t) :
    ∃ u, st.run s = .next u
      ∧ ((u.errCode = 0 ∧ runChecked sts u = .next t) ∨ (u.errCode ≠ 0 ∧ t = u)) := by
  rw [runChecked] at h
  split at h
  · next u hu =>
    refine ⟨u, hu, ?_⟩
    split at h
    · next hok => exact .inl ⟨hok, h⟩
    · next herr => cases h; exact .inr ⟨herr, rfl⟩
  · cases h
  · cases h

/-- A checked list that stops at an error leaves BYTES, where no command but the last writes it, and the error is the
first (R342). -/
theorem runChecked_failed {sts : List Stmt} {s t : State} (hne : sts ≠ [])
    (hmid : ∀ st ∈ sts.dropLast, .bytes ∉ writesOf st.instr) (h : runChecked sts s = .next t) (herr : t.errCode ≠ 0)
    (hfirst : s.errFirst = 0) : t.bytes = s.bytes ∧ t.errFirst = t.errCode := by
  induction sts generalizing s with
  | nil => exact (hne rfl).elim
  | cons st sts ih =>
    obtain ⟨u, hu, ⟨hok, hrest⟩ | ⟨-, rfl⟩⟩ := runChecked_cons_cases h
    · cases sts with
      | nil => cases hrest; exact (herr hok).elim
      | cons st' sts =>
        simp only [List.dropLast_cons_cons, List.forall_mem_cons] at hmid
        obtain ⟨hst, hmid⟩ := hmid
        have hrec := ih (List.cons_ne_nil _ _) hmid hrest ((Stmt.run_ok_errFirst hu hok).trans hfirst)
        rwa [Stmt.run_bytes hst hu] at hrec
    · exact Stmt.run_failed hu herr hfirst

/-- No command of COMPRESS but PACK_BYTES writes BYTES (R340). -/
theorem compressStmts_dropLast_bytes (p : Params) (flag : Bool) :
    ∀ st ∈ (compressStmts p flag).dropLast, .bytes ∉ writesOf st.instr := by
  cases flag <;> simp [compressStmts, writesOf]

/-- No command of DECOMPRESS but TEXT_TO_BYTES writes BYTES (R341). -/
theorem decompressStmts_dropLast_bytes : ∀ st ∈ decompressStmts.dropLast, .bytes ∉ writesOf st.instr := by
  simp [decompressStmts, writesOf]

/-- Settles O58: both calls are checked lists in which the last command alone writes BYTES, started after a CLRERR. -/
theorem failedCallsLeaveTheBytes : Obligations.FailedCallsLeaveTheBytes := by
  intro flag s t
  refine ⟨fun h herr => ?_, fun h herr => ?_, fun st hst u v h => ?_⟩
  · exact runChecked_failed (s := { s with errFirst := 0, overrun := false }) (by simp [compressStmts])
      (compressStmts_dropLast_bytes s.cfg flag) h herr rfl
  · exact runChecked_failed (s := { s with errFirst := 0, overrun := false }) (by simp [decompressStmts])
      decompressStmts_dropLast_bytes h herr rfl
  · refine Stmt.run_bytes ?_ h
    rcases List.mem_append.mp hst with hst | hst
    · exact compressStmts_dropLast_bytes s.cfg flag st hst
    · exact decompressStmts_dropLast_bytes st hst

end Sys2Proof.Machine
end

section
/-! PROOF. A command neither reads nor writes the model's record of the host: issued through the port, in phase BUSY, it
does what it does in phase IDLE (R101, R301). -/

namespace Sys2Proof.Machine

/-- The pieces of state that belong to the environment of the block: the host's accesses and the latencies to come, the
latency left, the value of the last read and the draw counter (log 2, 3, 4, 10). -/
structure HostRecord where
  host : List HostOp
  latency : List Nat
  busyLeft : Nat
  rdata : Word
  draws : Nat

/-- The block of `s` beside another host. -/
def State.beside (s : State) (r : HostRecord) : State :=
  { s with host := r.host, latency := r.latency, busyLeft := r.busyLeft, rdata := r.rdata, draws := r.draws }

/-- The block of `s`, in phase IDLE. -/
def State.inIdle (s : State) : State := { s with phase := .idle }

/-- The block of `s` in phase BUSY with the word `w` accepted (R101). -/
def State.inBusy (s : State) (w : Word) : State := { s with phase := .busy w s.opa s.opb s.opc }

/-- Where `x` answers a next state, `y` answers it beside another host. -/
def EndsAlike (r : HostRecord) (x y : Result) : Prop := ∀ u, x = .next u → y = .next (u.beside r)

namespace EndsAlike

variable {r : HostRecord} {s s' : State} {e : ErrKind} {x x' y y' : Result}

theorem of_ret (h : s'.commit = s.commit.beside r := by rfl) : EndsAlike r (ret s) (ret s') := by
  intro u hu
  rw [ret_next.mp hu, ret_next, h]

theorem of_raise (h : s'.recordError e = (s.recordError e).beside r := by rfl) :
    EndsAlike r (raise e s) (raise e s') := by
  intro u hu
  rw [raise_next.mp hu, raise_next, h]

theorem of_ite {c : Prop} [Decidable c] (h : EndsAlike r x y) (h' : EndsAlike r x' y') :
    EndsAlike r (if c then x else x') (if c then y else y') := by
  split
  · exact h
  · exact h'

theorem of_withItem {α : Type} {buf : List α} {n : Nat} {k k' : α → Result} (hk : ∀ a, EndsAlike r (k a) (k' a))
    (h : s'.recordError .badOperand = (s.recordError .badOperand).beside r := by rfl) :
    EndsAlike r (withItem s buf n k) (withItem s' buf n k') := by
  unfold withItem
  split
  · exact hk _
  · exact of_raise h

end EndsAlike

open EndsAlike

section
variable (s : State) (w : Word) (r : HostRecord)

/-! ### The commands that match on an answer -/

theorem execCtGet_alike : EndsAlike r (execCtGet s.inIdle) (execCtGet ((s.inBusy w).beside r)) := by
  refine of_ite ?_ of_raise
  dsimp only [State.inIdle, State.inBusy, State.beside, State.argA]
  split
  · exact of_ret
  · exact of_ret

theorem execEncLetter_alike : EndsAlike r (execEncLetter s.inIdle) (execEncLetter ((s.inBusy w).beside r)) := by
  refine of_ite ?_ of_raise
  dsimp only [State.inIdle, State.inBusy, State.beside, State.argA]
  split
  · exact of_raise
  · exact of_ite of_raise of_ret

theorem execEncText_alike : EndsAlike r (execEncText s.inIdle) (execEncText ((s.inBusy w).beside r)) := by
  unfold execEncText
  dsimp only [State.inIdle, State.inBusy, State.beside]
  split
  · exact of_raise
  · exact of_ite of_raise of_ret

theorem execUnpackTable_alike : EndsAlike r (execUnpackTable s.inIdle) (execUnpackTable ((s.inBusy w).beside r)) := by
  unfold execUnpackTable
  dsimp only [State.inIdle, State.inBusy, State.beside]
  split
  · exact of_raise
  · exact of_ite of_raise of_ret

theorem execTrieInsert_alike : EndsAlike r (execTrieInsert s.inIdle) (execTrieInsert ((s.inBusy w).beside r)) := by
  refine of_ite of_raise (of_ite (of_ite of_raise ?_) of_raise)
  dsimp only [State.inIdle, State.inBusy, State.beside, State.argA, State.argB, State.argC]
  split
  · exact of_raise
  · exact of_ite of_raise of_ret

theorem execTrieBuild_alike : EndsAlike r (execTrieBuild s.inIdle) (execTrieBuild ((s.inBusy w).beside r)) := by
  unfold execTrieBuild
  dsimp only [State.inIdle, State.inBusy, State.beside]
  split
  · exact of_raise
  · exact of_ite of_raise (of_ite of_raise of_ret)

theorem execDecodeOne_alike : EndsAlike r (execDecodeOne s.inIdle) (execDecodeOne ((s.inBusy w).beside r)) := by
  unfold execDecodeOne
  dsimp only [State.inIdle, State.inBusy, State.beside]
  split
  · exact of_raise
  · exact of_ret

theorem execDecodeAll_alike : EndsAlike r (execDecodeAll s.inIdle) (execDecodeAll ((s.inBusy w).beside r)) := by
  unfold execDecodeAll
  dsimp only [State.inIdle, State.inBusy, State.beside]
  split
  · exact of_raise
  · exact of_ite of_raise of_ret

theorem execUnaryDec_alike : EndsAlike r (execUnaryDec s.inIdle) (execUnaryDec ((s.inBusy w).beside r)) := by
  unfold execUnaryDec
  dsimp only [State.inIdle, State.inBusy, State.beside]
  split
  · exact of_raise
  · exact of_ret

theorem execGammaDec_alike : EndsAlike r (execGammaDec s.inIdle) (execGammaDec ((s.inBusy w).beside r)) := by
  unfold execGammaDec
  dsimp only [State.inIdle, State.inBusy, State.beside]
  split
  · exact of_raise
  · exact of_ite of_raise of_ret

theorem execUnpad_alike : EndsAlike r (execUnpad s.inIdle) (execUnpad ((s.inBusy w).beside r)) := by
  unfold execUnpad
  dsimp only [State.inIdle, State.inBusy, State.beside]
  split
  · exact of_raise
  · exact of_ret

theorem execUnpackBytes_alike : EndsAlike r (execUnpackBytes s.inIdle) (execUnpackBytes ((s.inBusy w).beside r)) := by
  unfold execUnpackBytes
  dsimp only [State.inIdle, State.inBusy, State.beside]
  split
  · exact of_raise
  · exact of_ret

/-- Every command does in phase BUSY, beside any host, what it does in phase IDLE; each case follows the command's own
sequence of checks. -/
theorem exec_alike (i : Instr) : EndsAlike r (exec i s.inIdle) (exec i ((s.inBusy w).beside r)) := by
  cases i with
  | nop => exact of_ret
  | clear => exact of_ret
  | obufClr => exact of_ret
  | obufPut => exact of_ite (of_ite of_raise of_ret) of_raise
  | obufGet => exact of_ite (of_ite of_raise of_ret) of_raise
  | ibufClr => exact of_ret
  | ibufPut => exact of_ite (of_ite of_raise of_ret) of_raise
  | ibufGet => exact of_ite (of_ite of_raise of_ret) of_raise
  | seek => exact of_ite of_ret of_raise
  | xfer => exact of_ret
  | byteClr => exact of_ret
  | bytePut => exact of_ite (of_ite of_raise of_ret) of_raise
  | byteGet => exact of_withItem fun _ => of_ret
  | unaryEnc => exact of_ite of_raise (of_ite of_raise of_ret)
  | unaryDec => exact execUnaryDec_alike s w r
  | gammaEnc => exact of_ite of_raise (of_ite of_raise of_ret)
  | gammaDec => exact execGammaDec_alike s w r
  | txtClr => exact of_ret
  | txtPut => exact of_ite (of_ite of_raise of_ret) of_raise
  | txtGet => exact of_withItem fun _ => of_ret
  | bytesToText => exact of_ite of_raise of_ret
  | textToBytes => exact of_ite of_raise of_ret
  | freqClr => exact of_ret
  | freqCount => exact of_ite of_raise of_ret
  | freqSet => exact of_ite of_ret of_raise
  | freqGet => exact of_ite of_ret of_raise
  | build => exact of_ite of_raise of_ret
  | ctClr => exact of_ret
  | ctSet => exact of_ite of_raise (of_ite (of_ite of_raise of_ret) of_raise)
  | ctGet => exact execCtGet_alike s w r
  | packTable => exact of_ite of_raise (of_ite of_raise of_ret)
  | unpackTable => exact execUnpackTable_alike s w r
  | encLetter => exact execEncLetter_alike s w r
  | encText => exact execEncText_alike s w r
  | trieClr => exact of_ret
  | trieInsert => exact execTrieInsert_alike s w r
  | trieBuild => exact execTrieBuild_alike s w r
  | decodeOne => exact execDecodeOne_alike s w r
  | decodeAll => exact execDecodeAll_alike s w r
  | nodeGet => exact of_withItem fun _ => of_ret
  | pad => exact of_ite of_raise of_ret
  | unpad => exact execUnpad_alike s w r
  | packBytes => exact of_ite of_raise of_ret
  | unpackBytes => exact execUnpackBytes_alike s w r

end

end Sys2Proof.Machine
end

section
/-! PROOF. The host's accesses run the commands (R330, R331, R340, R341): one access after another, then whole
statements, then checked lists of them. -/

namespace Sys2Proof.Machine

/-! ### Runs -/

/-- A run of one step more is a step and the rest of the run. -/
theorem run_succ_eq_next_iff {M : Host.Core} {k : Nat} {s u : M.State} :
    M.run (k + 1) s = .next u ↔ ∃ t, M.step s = .next t ∧ M.run k t = .next u := by
  rw [Host.Core.run]
  cases M.step s with
  | next t => simp
  | fault r => simp
  | refused r => simp

/-- The machine comes from `s` to `t` in some number of steps. -/
def Reaches (s t : State) : Prop := ∃ k, Host.Core.run core k s = .next t

theorem Reaches.refl (s : State) : Reaches s s := ⟨0, rfl⟩

theorem Reaches.head {s t u : State} (hstep : step s = .next t) (h : Reaches t u) : Reaches s u := by
  obtain ⟨k, hk⟩ := h
  exact ⟨k + 1, run_succ_eq_next_iff.mpr ⟨t, hstep, hk⟩⟩

theorem Reaches.single {s t : State} (hstep : step s = .next t) : Reaches s t := .head hstep (.refl t)

theorem Reaches.trans {s t u : State} (h : Reaches s t) (h' : Reaches t u) : Reaches s u := by
  obtain ⟨k, hk⟩ := h
  induction k generalizing s with
  | zero => cases hk; exact h'
  | succ k ih =>
    obtain ⟨s', hstep, hk⟩ := run_succ_eq_next_iff.mp hk
    exact .head hstep (ih hk)

/-! ### One access in phase IDLE -/

/-- A state in which the host's next access of a statement takes effect: legal parameters, out of reset,
in phase IDLE. -/
structure Ready (s : State) : Prop where
  legal : s.cfg.legal = true
  noReset : s.inReset = false
  idle : s.phase = .idle

theorem portRead_idle {s : State} (h : s.phase = .idle) (off : Nat) : portRead s off = (readReg s off, s) := by
  rw [portRead, if_neg (by simp [busyFlag_eq_false_iff.mpr h])]

/-- A poll in phase IDLE is the last one (R331). -/
theorem step_wait_idle {s : State} {rest : List HostOp} (h : Ready s) (hhost : s.host = .wait :: rest) :
    step s = .next { s with host := rest, rdata := readReg { s with host := rest } 0x0C } := by
  have hread := portRead_idle (s := { s with host := rest }) h.idle 0x0C
  have hbusy : ({ s with host := rest } : State).busyFlag = false := busyFlag_eq_false_iff.mpr h.idle
  rw [step_eq_hostTurn (.inr h.idle), hostTurn_cons hhost]
  simp only [serve, hread, hbusy, Bool.false_eq_true, if_false]

/-- ERR_CODE reads as 0 exactly when it is 0 (R124). -/
theorem readReg_errCode_eq_zero_iff (s : State) : readReg s 0x10 = 0 ↔ s.errCode = 0 := by
  have hread : (readReg s 0x10).toNat = s.errCode.toNat := BitVec.toNat_setWidth_of_le (by decide)
  rw [← BitVec.toNat_inj, hread, ← BitVec.toNat_inj]
  rfl

/-- A CHECK in phase IDLE drops the rest of the host's list where an error is recorded (R331). -/
theorem step_check_idle {s : State} {rest : List HostOp} (h : Ready s) (hhost : s.host = .check :: rest) :
    step s = .next { s with
      host := if s.errCode = 0 then rest else [], rdata := readReg { s with host := rest } 0x10 } := by
  have hread := portRead_idle (s := { s with host := rest }) h.idle 0x10
  rw [step_eq_hostTurn (.inr h.idle), hostTurn_cons hhost]
  simp only [serve, hread, readReg_errCode_eq_zero_iff]

/-- The write of an operand register, where the statement gives the operand (R330). -/
theorem reaches_operandWrite {s : State} {off : Nat} {v : Option Word} {rest : List HostOp} (h : Ready s)
    (hoff : off % 4 = 0) (hlt : off < 256) (hhost : s.host = operandWrite s.cfg off v ++ rest) :
    Reaches s (v.elim { s with host := rest } (writeIdle { s with host := rest } off)) := by
  cases v with
  | none => cases hhost; exact .refl s
  | some x => exact .single (step_write_idle h.legal h.noReset h.idle hoff hlt hhost)

/-- The operand writes of a statement, one after another (R330). -/
theorem reaches_operandsIn {s : State} {st : Stmt} {rest : List HostOp} (h : Ready s)
    (hhost : s.host = operandWrite s.cfg 0x18 st.a ++ (operandWrite s.cfg 0x1C st.b ++ (operandWrite s.cfg 0x20 st.c
      ++ rest))) : Reaches s { st.operandsIn s with host := rest } := by
  obtain ⟨i, a, b, c⟩ := st
  let sa : State :=
    { s with host := operandWrite s.cfg 0x1C b ++ (operandWrite s.cfg 0x20 c ++ rest), opa := a.getD s.opa }
  let sb : State := { sa with host := operandWrite s.cfg 0x20 c ++ rest, opb := b.getD s.opb }
  have ha : Reaches s sa := by
    have := reaches_operandWrite h (by decide) (by decide) hhost
    cases a <;> exact this
  have hb : Reaches sa sb := by
    have := reaches_operandWrite (s := sa) (v := b) ⟨h.legal, h.noReset, h.idle⟩ (by decide) (by decide) rfl
    cases b <;> exact this
  have hc : Reaches sb { sb with host := rest, opc := c.getD s.opc } := by
    have := reaches_operandWrite (s := sb) (v := c) ⟨h.legal, h.noReset, h.idle⟩ (by decide) (by decide) rfl
    cases c <;> exact this
  exact ha.trans (hb.trans hc)

/-! ### The wait for a command -/

/-- A poll in phase BUSY stays on the host's list (R331; log 2). -/
theorem serve_wait_busy {s : State} (h : s.busyFlag = true) :
    ∃ x d, serve .wait s = .next { s with host := .wait :: s.host, rdata := x, draws := d } := by
  obtain ⟨d, hd⟩ := portRead_eq s 0x0C
  exact ⟨(portRead s 0x0C).1, d, by simp only [serve, hd, h, if_true]⟩

/-- The polls of a WAIT use up the latency of the running command (R331, R1230; log 3). -/
theorem reaches_lastBusyStep {s : State} {r : HostRecord} {w a b c : Word} {rest : List HostOp}
    (hreset : s.inReset = false) (hphase : s.phase = .busy w a b c) (hhost : r.host = .wait :: rest) :
    ∃ r', r'.host = .wait :: rest ∧ r'.busyLeft = 0 ∧ Reaches (s.beside r) (s.beside r') := by
  induction hk : r.busyLeft generalizing r with
  | zero => exact ⟨r, hhost, hk, .refl _⟩
  | succ k ih =>
    have hbusy : (s.beside { r with busyLeft := k, host := rest }).busyFlag = true := by
      simp only [State.busyFlag, State.beside, hphase]
    obtain ⟨x, d, hserve⟩ := serve_wait_busy hbusy
    have hturn : step (s.beside r) = hostTurn (s.beside { r with busyLeft := k }) := by
      simp only [step, advance, State.beside, hreset, hphase, hk, Bool.false_eq_true, if_false]
    have hstep := hturn.trans ((hostTurn_cons hhost).trans hserve)
    obtain ⟨r', hhost', hleft, hrun⟩ := ih (r := ⟨.wait :: rest, r.latency, k, x, d⟩) rfl rfl
    exact ⟨r', hhost', hleft, .head hstep hrun⟩

/-! ### Statements -/

theorem exec_idle {i : Instr} {s t : State} (h : exec i s = .next t) : t.phase = .idle := by
  obtain ⟨s', -, hret⟩ | ⟨e, -, s', -, hraise⟩ := exec_ends i s
  · obtain rfl := ret_next.mp (hret ▸ h)
    rfl
  · obtain rfl := raise_next.mp (hraise ▸ h)
    rfl

theorem inReset_not_mem_writesOf (i : Instr) : .inReset ∉ writesOf i := by
  cases i <;> decide

theorem Stmt.run_cfg {st : Stmt} {s u : State} (h : st.run s = .next u) : u.cfg = s.cfg := (exec_cfg h :)

/-- After a statement the host's next access takes effect again. -/
theorem Ready.run {st : Stmt} {s u : State} (hs : Ready s) (h : st.run s = .next u) : Ready u where
  legal := Stmt.run_cfg h ▸ hs.legal
  noReset := (exec_frame h .inReset (by simp [inReset_not_mem_writesOf])).trans hs.noReset
  idle := exec_idle h

theorem Ready.beside {s : State} (h : Ready s) (r : HostRecord) : Ready (s.beside r) := ⟨h.legal, h.noReset, h.idle⟩

theorem inIdle_of_idle {s : State} (h : s.phase = .idle) : s.inIdle = s := by
  rw [State.inIdle, ← h]

/-- The block as a statement's command finds it, but for the phase: the operands written, the word in LAST_CMD (R213,
R330). -/
def Stmt.issuedIn (st : Stmt) (s : State) : State := { st.operandsIn s with lastCmd := encode st.instr }

theorem Stmt.run_eq (st : Stmt) (s : State) : st.run s = exec st.instr (st.issuedIn s) := rfl

/-- The operand writes and the CMD write of a statement (R330). -/
theorem reaches_issue {st : Stmt} {s : State} {r : HostRecord} {rest : List HostOp} (hs : Ready s)
    (hhost : r.host = st.accesses s.cfg ++ rest) :
    ∃ r', r'.host = .wait :: rest ∧ Reaches (s.beside r) (((st.issuedIn s).inBusy (encode st.instr)).beside r') := by
  simp only [Stmt.accesses, List.append_assoc] at hhost
  refine ⟨⟨.wait :: rest, r.latency.tail, r.latency.headD 0, r.rdata, r.draws⟩, rfl,
    (reaches_operandsIn (hs.beside r) hhost).trans (.single ?_)⟩
  exact step_write_idle (s := (st.operandsIn s).beside { r with host := _ }) (off := 0x08) hs.legal hs.noReset hs.idle
    (by decide) (by decide) rfl

/-- With no latency left the step does, beside any host, what the statement's command does in phase IDLE (R101). -/
theorem step_completes {st : Stmt} {s u : State} {r : HostRecord} (hs : Ready s) (hleft : r.busyLeft = 0)
    (hrun : st.run s = .next u) :
    step (((st.issuedIn s).inBusy (encode st.instr)).beside r) = .next (u.beside r) := by
  have hdecode : decode (encode st.instr) = .ok st.instr := (decodeInvertsEncode _ st.instr).mpr rfl
  have hidle : (st.issuedIn s).inIdle = st.issuedIn s := inIdle_of_idle hs.idle
  rw [stepRunsTheDecodedCommand (((st.issuedIn s).inBusy (encode st.instr)).beside r) _ _ _ _ st.instr hs.noReset rfl
    hleft hdecode]
  rw [Stmt.run_eq, ← hidle] at hrun
  exact exec_alike _ _ r st.instr u hrun

/-- The accesses of a statement run its command: the operand and CMD writes, the polls while the command runs, its
completion and the last poll (R330). -/
theorem reaches_run {st : Stmt} {s u : State} {r : HostRecord} {rest : List HostOp} (hs : Ready s)
    (hhost : r.host = st.accesses s.cfg ++ rest) (hrun : st.run s = .next u) :
    ∃ r', r'.host = rest ∧ Reaches (s.beside r) (u.beside r') := by
  obtain ⟨r1, hhost1, hissue⟩ := reaches_issue hs hhost
  obtain ⟨r2, hhost2, hleft, hpolls⟩ :=
    reaches_lastBusyStep (s := (st.issuedIn s).inBusy (encode st.instr)) hs.noReset rfl hhost1
  have hlast := step_wait_idle ((hs.run hrun).beside r2) hhost2
  exact ⟨⟨rest, r2.latency, r2.busyLeft, _, r2.draws⟩, rfl,
    hissue.trans (hpolls.trans (.head (step_completes hs hleft hrun) (.single hlast)))⟩

/-- A CHECK after a statement drops the host's list where the statement failed (R331). -/
theorem reaches_check {u : State} {r : HostRecord} {rest : List HostOp} (hu : Ready u)
    (hhost : r.host = .check :: rest) :
    ∃ r', r'.host = (if u.errCode = 0 then rest else []) ∧ Reaches (u.beside r) (u.beside r') :=
  ⟨⟨_, r.latency, r.busyLeft, _, r.draws⟩, rfl, .single (step_check_idle (hu.beside r) hhost)⟩

/-! ### Checked lists of statements -/

/-- The accesses of a checked list run its commands up to the first that fails (R331, R340, R341). -/
theorem reaches_runChecked {sts : List Stmt} {s u : State} {r : HostRecord} {rest : List HostOp} (hs : Ready s)
    (hstart : sts = [] → s.errCode = 0) (hhost : r.host = checkedAccesses s.cfg sts ++ rest)
    (hrun : runChecked sts s = .next u) :
    ∃ r', r'.host = (if u.errCode = 0 then rest else []) ∧ Reaches (s.beside r) (u.beside r') := by
  induction sts generalizing s r with
  | nil =>
    cases hrun
    rw [if_pos (hstart rfl)]
    exact ⟨r, hhost, .refl _⟩
  | cons st sts ih =>
    obtain ⟨u1, hu1, hcases⟩ := runChecked_cons_cases hrun
    have hready := hs.run hu1
    have hsplit : r.host = st.accesses s.cfg ++ (.check :: (checkedAccesses s.cfg sts ++ rest)) := by
      simpa [checkedAccesses] using hhost
    obtain ⟨r1, hhost1, hreach1⟩ := reaches_run hs hsplit hu1
    obtain ⟨r2, hhost2, hreach2⟩ := reaches_check hready hhost1
    obtain ⟨hok, hrest⟩ | ⟨herr, rfl⟩ := hcases
    · rw [if_pos hok, ← Stmt.run_cfg hu1] at hhost2
      obtain ⟨r3, hhost3, hreach3⟩ := ih hready (fun _ => hok) hhost2 hrest
      exact ⟨r3, hhost3, hreach1.trans (hreach2.trans hreach3)⟩
    · rw [if_neg herr] at hhost2 ⊢
      exact ⟨r2, hhost2, hreach1.trans hreach2⟩

/-- The accesses of a pseudo-instruction run its commands, after a CLRERR (R340, R341). -/
theorem reaches_call {sts : List Stmt} {s u : State} {rest : List HostOp} (hs : Ready s) (hne : sts ≠ [])
    (hhost : s.host = clrErr s.cfg :: checkedAccesses s.cfg sts ++ rest)
    (hrun : runChecked sts { s with errFirst := 0, overrun := false } = .next u) :
    ∃ r', r'.host = (if u.errCode = 0 then rest else []) ∧ Reaches s (u.beside r') := by
  have hclear := step_write_idle hs.legal hs.noReset hs.idle (by decide) (by decide) hhost
  obtain ⟨r', hhost', hreach⟩ := reaches_runChecked (s := { s with errFirst := 0, overrun := false })
    (r := ⟨checkedAccesses s.cfg sts ++ rest, s.latency, s.busyLeft, s.rdata, s.draws⟩)
    ⟨hs.legal, hs.noReset, hs.idle⟩ (fun h => (hne h).elim) rfl hrun
  exact ⟨r', hhost', .head hclear hreach⟩

/-- A run to `u` beside another host, as the statement has it. -/
theorem exists_run_of_reaches {s u : State} {ops : List HostOp}
    (h : ∃ r', r'.host = ops ∧ Reaches s (u.beside r')) :
    ∃ k t, Host.Core.run core k s = .next t ∧ t.host = ops
      ∧ AgreeOutside [.host, .latency, .busyLeft, .rdata, .draws] u t := by
  obtain ⟨r', hhost, k, hk⟩ := h
  exact ⟨k, u.beside r', hk, hhost, by simp [agreeOutside_iff, State.beside]⟩

/-- Settles O57: each access is a step, and the command does in BUSY what it does in IDLE (R330, R331, R340, R341). -/
theorem statementAccessesRunTheCommand : Obligations.StatementAccessesRunTheCommand := by
  intro s u rest hlegal hreset hidle
  have hs : Ready s := ⟨hlegal, hreset, hidle⟩
  let r : HostRecord := ⟨s.host, s.latency, s.busyLeft, s.rdata, s.draws⟩
  refine ⟨fun st hhost hrun => ?_, fun sts hne hhost hrun => ?_, fun flag hhost hrun => ?_, fun hhost hrun => ?_⟩
  · exact exists_run_of_reaches (reaches_run (r := r) hs hhost hrun)
  · exact exists_run_of_reaches (reaches_runChecked (r := r) hs (fun h => (hne h).elim) hhost hrun)
  · exact exists_run_of_reaches (reaches_call hs (by simp [compressStmts]) hhost hrun)
  · exact exists_run_of_reaches (reaches_call hs (by simp [decompressStmts]) hhost hrun)

end Sys2Proof.Machine
end

section
/-! PROOF. The readers on their own terms: the unary and gamma codes (R500 to R504), and the header of a code table
(R810, R820). -/

namespace Sys2Proof.Machine

/-! ### The unary and gamma codes -/

/-- `UnaryRead` answers exactly where a unary code stands, with its number and the position after it (R502, R504). -/
theorem unaryRead_eq_some_iff {y : Bits} {p n next : Nat} :
    unaryRead y p = some (n, next) ↔ ∃ x, y.drop p = unary n ++ x ∧ next = p + (unary n).length := by
  constructor
  · intro h
    obtain ⟨hsplit, hhead⟩ := runLength_split true (y.drop p)
    unfold unaryRead at h
    dsimp only at h
    split at h
    · next hroom =>
      cases h
      cases hd : (y.drop p).drop (runLength true (y.drop p)) with
      | nil =>
        simp only [List.drop_drop, List.drop_eq_nil_iff] at hd
        omega
      | cons b x =>
        obtain rfl : b = false := by simpa [hd] using hhead
        rw [hd] at hsplit
        exact ⟨x, by rw [unary, List.append_assoc]; exact hsplit, by rw [length_unary, Nat.add_assoc]⟩
    · cases h
  · rintro ⟨x, hx, rfl⟩
    have hrun : runLength true (y.drop p) = n := by
      rw [hx, unary, List.append_assoc]
      exact runLength_replicate true false n x (by decide)
    have hlen := congrArg List.length hx
    rw [List.length_drop, List.length_append, length_unary] at hlen
    simp only [unaryRead, hrun, length_unary]
    rw [if_pos (by omega), Nat.add_assoc]

/-- The top digit of a positive number is a one (R32). -/
theorem binBits_bitLen_eq_cons {n : Nat} (hn : 1 ≤ n) : ∃ s, binBits (bitLen n) n = true :: s := by
  refine ⟨binBits (Nat.log2 n) n, ?_⟩
  rw [bitLen, binBits, Nat.testBit_log2 (by omega)]

/-- A number of `k` digits that begins with a one has bit length `k` (R32). -/
theorem bitLen_bitsVal_cons (s : Bits) : bitLen (bitsVal (true :: s)) = s.length + 1 := by
  have hlt := bitsVal_lt s
  have hlog : Nat.log2 (bitsVal (true :: s)) = s.length := by
    rw [bitsVal_cons, Bool.toNat_true, Nat.one_mul, Nat.log2_eq_iff (by positivity), Nat.pow_succ]
    omega
  rw [bitLen, hlog]

theorem bitsVal_binBits_bitLen (n : Nat) : bitsVal (binBits (bitLen n) n) = n := by
  rw [bitsVal_binBits, bitLen, Nat.mod_eq_of_lt Nat.lt_log2_self]

/-- What follows a part of a sequence stands where the part ends. -/
theorem drop_add_of_drop_eq {y a b : Bits} {q : Nat} (h : y.drop q = a ++ b) : y.drop (q + a.length) = b := by
  rw [← List.drop_drop, h, List.drop_left]

/-- A part of a sequence within its bounds is what stands there. -/
theorem exists_slice_of_le {y : Bits} {q n : Nat} (h : q + n ≤ y.length) :
    ∃ c x, y.drop q = c ++ x ∧ c.length = n ∧ slice y q (q + n) = c ∧ y.drop (q + n) = x := by
  refine ⟨slice y q (q + n), y.drop (q + n), ?_, ?_, rfl, rfl⟩
  · rw [slice, Nat.add_sub_cancel_left, ← List.drop_drop, List.take_append_drop]
  · rw [length_slice]
    omega

/-- Where `GammaRead` answers, a gamma code stands (R503). -/
theorem gamma_of_gammaRead {y : Bits} {p n k next : Nat} (h : gammaRead y p = some (n, k, next)) :
    1 ≤ n ∧ k = bitLen n ∧ ∃ x, y.drop p = gamma n ++ x ∧ next = p + (gamma n).length := by
  obtain ⟨-, -, hn⟩ := gammaRead_range h
  obtain ⟨hsplit, hhead⟩ := runLength_split false (y.drop p)
  unfold gammaRead at h
  dsimp only at h
  generalize runLength false (y.drop p) = z at h hsplit hhead
  rw [List.drop_drop] at hsplit hhead
  split at h
  · cases h
  · next hroom =>
    obtain ⟨c, x, hx, hlen, hslice, -⟩ := exists_slice_of_le (y := y) (q := p + z) (n := z + 1) (by omega)
    obtain ⟨s, hs⟩ := slice_gamma_eq_cons (k := z + 1) (by omega) (by omega) hhead
    obtain rfl : c = true :: s := hslice.symm.trans hs
    rw [hslice] at h
    cases h
    obtain rfl : s.length = z := Nat.succ.inj hlen
    have hbits := bitLen_bitsVal_cons s
    have hgamma : gamma (bitsVal (true :: s)) = List.replicate s.length false ++ true :: s := by
      have hdigits := binBits_bitsVal (true :: s)
      rw [List.length_cons] at hdigits
      rw [gamma, hbits, hdigits, Nat.add_sub_cancel]
    refine ⟨hn, hbits.symm, x, ?_, ?_⟩
    · rw [hsplit, hx, hgamma, List.append_assoc]
    · rw [length_gamma, hbits]
      omega

/-- Where a gamma code stands, `GammaRead` answers (R504). -/
theorem gammaRead_of_gamma {y x : Bits} {p n : Nat} (hn : 1 ≤ n) (hx : y.drop p = gamma n ++ x) :
    gammaRead y p = some (n, bitLen n, p + (gamma n).length) := by
  obtain ⟨s, hs⟩ := binBits_bitLen_eq_cons hn
  have hz : runLength false (y.drop p) = bitLen n - 1 := by
    rw [hx, gamma, hs, List.append_assoc, List.cons_append]
    exact runLength_replicate false true _ _ (by decide)
  have hpos : 1 ≤ bitLen n := Nat.le_add_left 1 _
  have hlen := congrArg List.length hx
  rw [List.length_drop, List.length_append, length_gamma] at hlen
  have hslice : slice y (p + (bitLen n - 1)) (p + (bitLen n - 1) + bitLen n) = binBits (bitLen n) n := by
    rw [slice, ← List.drop_drop, hx, gamma, List.append_assoc, Nat.add_sub_cancel_left,
      List.drop_left' List.length_replicate, List.take_left' (length_binBits _ _)]
  simp only [gammaRead, hz, Nat.sub_add_cancel hpos]
  rw [if_neg (by omega), hslice, bitsVal_binBits_bitLen, length_gamma]
  congr 3
  omega

/-! ### The header -/

/-- Entries a header can carry after the letter `base - 1`: letters strictly ascending from `base` on, no empty codeword
(R810, R820). -/
def EntriesFrom (base : Nat) (es : List (Nat × Bits)) : Prop :=
  keysRising es = true ∧ ∀ e ∈ es, base ≤ e.1 ∧ e.2 ≠ []

theorem entriesFrom_nil (base : Nat) : EntriesFrom base [] := ⟨keysRising_nil, by simp⟩

theorem entriesFrom_cons {base l : Nat} {c : Bits} {es : List (Nat × Bits)} :
    EntriesFrom base ((l, c) :: es) ↔ base ≤ l ∧ c ≠ [] ∧ EntriesFrom (l + 1) es := by
  simp only [EntriesFrom, keysRising_cons, List.forall_mem_cons]
  constructor
  · rintro ⟨⟨hlt, hrising⟩, ⟨hl, hc⟩, hes⟩
    exact ⟨hl, hc, hrising, fun e he => ⟨hlt e he, (hes e he).2⟩⟩
  · rintro ⟨hl, hc, hrising, hes⟩
    exact ⟨⟨fun e he => (hes e he).1, hrising⟩, ⟨hl, hc⟩, fun e he =>
      ⟨hl.trans (Nat.le_of_succ_le (hes e he).1), (hes e he).2⟩⟩

/-- One turn of the entry loop (R820). -/
theorem unpackEntries_succ_eq_ok_iff {y : Bits} {n base q next : Nat} {es : List (Nat × Bits)} :
    unpackEntries y (n + 1) base q = .ok (es, next) ↔
      ∃ d k q1 len k' q2 es', gammaRead y q = some (d, k, q1) ∧ gammaRead y q1 = some (len, k', q2)
        ∧ q2 + len ≤ y.length ∧ unpackEntries y n (base + d) (q2 + len) = .ok (es', next)
        ∧ es = (base + d - 1, slice y q2 (q2 + len)) :: es' := by
  have hletter {d k q1 : Nat} (hd : gammaRead y q = some (d, k, q1)) : base + d - 1 + 1 = base + d := by
    have := (gammaRead_range hd).2.2
    omega
  have hroom {q1 len k q2 : Nat} (hlen : gammaRead y q1 = some (len, k, q2)) :
      y.length - q2 < len ↔ ¬ q2 + len ≤ y.length := by
    have := (gammaRead_range hlen).2.1
    omega
  constructor
  · intro h
    unfold unpackEntries at h
    split at h
    · cases h
    · next d k q1 hd =>
      split at h
      · cases h
      · next len k' q2 hlen =>
        split at h
        · cases h
        · next hfull =>
          rw [hroom hlen, not_not] at hfull
          dsimp only at h
          split at h
          · cases h
          · next es' q3 hrest =>
            cases h
            exact ⟨d, k, q1, len, k', q2, es', hd, hlen, hfull, hletter hd ▸ hrest, rfl⟩
  · rintro ⟨d, k, q1, len, k', q2, es', hd, hlen, hfull, hrest, rfl⟩
    simp only [unpackEntries, hd, hlen, hroom hlen, hfull, not_true_eq_false, if_false, hletter hd, hrest]

/-- The entry loop answers exactly where the entries stand as R810 writes them (R820). -/
theorem unpackEntries_eq_ok_iff {y : Bits} {n base q next : Nat} {es : List (Nat × Bits)} :
    unpackEntries y n base q = .ok (es, next) ↔
      es.length = n ∧ EntriesFrom base es
      ∧ ∃ x, y.drop q = packEntries base es ++ x ∧ next = q + (packEntries base es).length := by
  induction n generalizing base q es with
  | zero =>
    rw [unpackEntries, Except.ok.injEq, Prod.mk.injEq, List.length_eq_zero_iff]
    constructor
    · rintro ⟨rfl, rfl⟩
      exact ⟨rfl, entriesFrom_nil base, y.drop q, rfl, rfl⟩
    · rintro ⟨rfl, -, x, -, rfl⟩
      exact ⟨rfl, rfl⟩
  | succ n ih =>
    rw [unpackEntries_succ_eq_ok_iff]
    constructor
    · rintro ⟨d, k, q1, len, k', q2, es', hd, hlen, hfull, hrest, rfl⟩
      obtain ⟨rfl, hentries, x, hx, rfl⟩ := ih.mp hrest
      obtain ⟨hdpos, -, x1, hx1, rfl⟩ := gamma_of_gammaRead hd
      obtain ⟨hlenpos, -, x2, hx2, rfl⟩ := gamma_of_gammaRead hlen
      obtain ⟨c, x3, hx3, rfl, hc, hx4⟩ := exists_slice_of_le hfull
      obtain rfl := (drop_add_of_drop_eq hx1).symm.trans hx2
      obtain rfl := (drop_add_of_drop_eq hx2).symm.trans hx3
      obtain rfl := hx4.symm.trans hx
      have hletter : base + d - 1 + 1 = base + d := by omega
      rw [hc, entriesFrom_cons, packEntries, hletter, Nat.add_sub_cancel_left]
      refine ⟨rfl, ⟨by omega, List.ne_nil_of_length_pos hlenpos, hentries⟩, x, ?_, ?_⟩
      · simp only [hx1, List.append_assoc]
      · simp only [List.length_append]
        omega
    · rintro ⟨hn, hentries, x, hx, rfl⟩
      cases es with
      | nil => cases hn
      | cons e es =>
        obtain ⟨l, c⟩ := e
        obtain ⟨hl, hc, hes⟩ := entriesFrom_cons.mp hentries
        simp only [packEntries, List.append_assoc] at hx
        have hlen := drop_add_of_drop_eq hx
        have hcw := drop_add_of_drop_eq hlen
        have hrest := drop_add_of_drop_eq hcw
        have hroom := congrArg List.length hcw
        rw [List.length_drop, List.length_append] at hroom
        have hcpos : 1 ≤ c.length := List.length_pos_of_ne_nil hc
        refine ⟨l + 1 - base, _, _, c.length, _, _, es, gammaRead_of_gamma (by omega) hx, gammaRead_of_gamma hcpos hlen,
          by omega, ?_, ?_⟩
        · rw [show base + (l + 1 - base) = l + 1 by omega]
          refine ih.mpr ⟨Nat.succ.inj hn, hes, x, hrest, ?_⟩
          simp only [packEntries, List.length_append]
          omega
        · rw [slice, hcw, Nat.add_sub_cancel_left, List.take_left, show base + (l + 1 - base) - 1 = l by omega]

/-- The parser answers exactly where a packed header stands, with its entries and the position after it (R810, R820). -/
theorem unpackTable_eq_ok_iff {y : Bits} {p next : Nat} {es : List (Nat × Bits)} :
    unpackTable y p = .ok (es, next) ↔
      EntriesFrom 0 es ∧ ∃ x, y.drop p = packTable es ++ x ∧ next = p + (packTable es).length := by
  constructor
  · intro h
    unfold unpackTable at h
    split at h
    · cases h
    · next c k q hc =>
      obtain ⟨hcpos, -, x1, hx1, rfl⟩ := gamma_of_gammaRead hc
      obtain ⟨hn, hentries, x, hx, rfl⟩ := unpackEntries_eq_ok_iff.mp h
      rw [drop_add_of_drop_eq hx1] at hx
      rw [packTable, hn, Nat.sub_add_cancel hcpos]
      exact ⟨hentries, x, by rw [hx1, hx, List.append_assoc], by rw [List.length_append, Nat.add_assoc]⟩
  · rintro ⟨hentries, x, hx, rfl⟩
    rw [packTable, List.append_assoc] at hx
    have hc := gammaRead_of_gamma (Nat.le_add_left 1 _) hx
    simp only [unpackTable, hc, Nat.add_sub_cancel]
    refine unpackEntries_eq_ok_iff.mpr ⟨rfl, hentries, x, drop_add_of_drop_eq hx, ?_⟩
    rw [packTable, List.length_append, Nat.add_assoc]

end Sys2Proof.Machine
end

section
/-! PROOF. The builder's table is the leaves of a full binary tree (R703, R704, R707): no codeword begins another, and
there is one inner node less than there are codewords. -/

namespace Sys2Proof.Machine

/-! ### Full binary trees -/

/-- The table lists the leaves of a full binary tree, each with the path to it: a leaf alone, or two trees under a
root, as a merge makes them (R701, R703). -/
inductive FullTree : List (Nat × Bits) → Prop where
  | leaf (l : Nat) : FullTree [(l, [])]
  | fork {t u : List (Nat × Bits)} : FullTree t → FullTree u → FullTree (prefixBit false t ++ prefixBit true u)

theorem mem_prefixBit {b : Bool} {t : List (Nat × Bits)} {e : Nat × Bits} :
    e ∈ prefixBit b t ↔ ∃ d ∈ t, e = (d.1, b :: d.2) := by
  simp [prefixBit, eq_comm]

@[simp] theorem length_prefixBit (b : Bool) (t : List (Nat × Bits)) : (prefixBit b t).length = t.length :=
  List.length_map ..

@[simp] theorem map_fst_prefixBit (b : Bool) (t : List (Nat × Bits)) :
    (prefixBit b t).map Prod.fst = t.map Prod.fst := by
  simp [prefixBit]

theorem FullTree.ne_nil {t : List (Nat × Bits)} (h : FullTree t) : t ≠ [] := by
  induction h with
  | leaf l => simp
  | fork _ _ ih _ => simpa [prefixBit] using fun h _ => ih h

/-- The entries of a fork, each in its side. -/
theorem mem_fork {t u : List (Nat × Bits)} {e : Nat × Bits} :
    e ∈ prefixBit false t ++ prefixBit true u ↔ ∃ b, ∃ d ∈ (if b then u else t), e = (d.1, b :: d.2) := by
  simp [mem_prefixBit]

/-- No codeword of a full tree begins another (R707). -/
theorem FullTree.eq_of_prefix {t : List (Nat × Bits)} (h : FullTree t) {e d : Nat × Bits} (he : e ∈ t) (hd : d ∈ t)
    (hpre : e.2 <+: d.2) : e = d := by
  induction h generalizing e d with
  | leaf l => rw [List.mem_singleton.mp he, List.mem_singleton.mp hd]
  | fork _ _ iht ihu =>
    obtain ⟨b, e', he', rfl⟩ := mem_fork.mp he
    obtain ⟨b', d', hd', rfl⟩ := mem_fork.mp hd
    obtain ⟨rfl, hpre'⟩ := List.cons_prefix_cons.mp hpre
    cases b with
    | false => rw [iht he' hd' hpre']
    | true => rw [ihu he' hd' hpre']

/-- The inner nodes of a full tree, one less than its leaves, are the proper prefixes of the paths (R703, R704). -/
theorem FullTree.exists_inner {t : List (Nat × Bits)} (h : FullTree t) :
    ∃ ps : List Bits, ps.length + 1 = t.length ∧ ∀ e ∈ t, ∀ q, q <+: e.2 → q ≠ e.2 → q ∈ ps := by
  induction h with
  | leaf l => exact ⟨[], rfl, by simp +contextual⟩
  | @fork t u _ _ iht ihu =>
    obtain ⟨ps, hps, hinner⟩ := iht
    obtain ⟨ps', hps', hinner'⟩ := ihu
    refine ⟨[] :: (ps.map (false :: ·) ++ ps'.map (true :: ·)), ?_, fun e he q hq hne => ?_⟩
    · simp only [List.length_cons, List.length_append, List.length_map, length_prefixBit]
      omega
    · obtain ⟨b, d, hd, rfl⟩ := mem_fork.mp he
      cases q with
      | nil => exact List.mem_cons_self
      | cons b' q =>
        obtain ⟨rfl, hq'⟩ := List.cons_prefix_cons.mp hq
        have hne' : q ≠ d.2 := fun h => hne (h ▸ rfl)
        cases b' with
        | false => simp [hinner d hd q hq' hne']
        | true => simp [hinner' d hd q hq' hne']

/-! ### The merge loop -/

/-- The merge loop makes a full tree of full trees (R703, R704). -/
theorem mergeLoop_fullTree {k next : Nat} {q : List MergeNode} (hne : q ≠ []) (hk : q.length ≤ k + 1)
    (hq : ∀ x ∈ q, FullTree x.table) : FullTree (mergeLoop k next q) := by
  induction k generalizing next q with
  | zero =>
    obtain ⟨x, rfl⟩ := List.length_eq_one_iff.mp (Nat.le_antisymm hk (List.length_pos_of_ne_nil hne))
    simpa [mergeLoop] using hq x (by simp)
  | succ k ih =>
    rw [mergeLoop]
    split
    · next hnone => exact (hne (takeMin_eq_none_iff.mp hnone)).elim
    · next x q1 hx =>
      have hperm := takeMin_perm hx
      split
      · exact hq x (hperm.mem_iff.mpr List.mem_cons_self)
      · next y q2 hy =>
        have hperm2 := hperm.trans ((takeMin_perm hy).cons x)
        have hlen := hperm2.length_eq
        simp only [List.length_cons] at hlen
        refine ih (List.cons_ne_nil _ _) (by rw [List.length_cons]; omega) ?_
        have hq2 : ∀ z ∈ x :: y :: q2, FullTree z.table := fun z hz => hq z (hperm2.mem_iff.mpr hz)
        simp only [List.forall_mem_cons] at hq2 ⊢
        obtain ⟨hx, hy, hq2⟩ := hq2
        exact ⟨.fork hx hy, hq2⟩

/-- The merge loop keeps the letters of the queue, each as often as it stands there (R703). -/
theorem mergeLoop_letters {k next : Nat} {q : List MergeNode} (hk : q.length ≤ k + 1) :
    ((mergeLoop k next q).map Prod.fst).Perm (q.flatMap (fun x => x.table.map Prod.fst)) := by
  induction k generalizing next q with
  | zero => rw [mergeLoop, List.map_flatMap]
  | succ k ih =>
    rw [mergeLoop]
    split
    · next hnone => rw [takeMin_eq_none_iff.mp hnone]; exact .refl _
    · next x q1 hx =>
      have hperm := takeMin_perm hx
      split
      · next hnone =>
        rw [takeMin_eq_none_iff.mp hnone] at hperm
        simpa using (hperm.flatMap_right (fun x => x.table.map Prod.fst)).symm
      · next y q2 hy =>
        have hperm2 := hperm.trans ((takeMin_perm hy).cons x)
        have hlen := hperm2.length_eq
        simp only [List.length_cons] at hlen
        refine (ih (by rw [List.length_cons]; omega)).trans (.trans ?_ (hperm2.flatMap_right _).symm)
        simp [mergeNodes]

/-! ### The builder -/

theorem flatMap_seedNodes (i : Nat) (ps : List (Nat × Nat)) :
    (seedNodes i ps).flatMap (fun x => x.table.map Prod.fst) = ps.map Prod.fst := by
  induction ps generalizing i with
  | nil => rfl
  | cons a ps ih => simp [seedNodes, ih]

/-- The builder gives each participating letter one entry (R707). -/
theorem huffman_letters (f : Table Nat) : ((huffman f).map Prod.fst).Perm ((participants f).map Prod.fst) := by
  unfold huffman
  split
  · next hps => rw [hps]; exact .refl _
  · next l c hps => rw [hps]; exact .refl _
  · next p ps _ hps =>
    rw [hps]
    exact (mergeLoop_letters (by simp [length_seedNodes])).trans (by rw [flatMap_seedNodes])

/-- The builder's table is empty, one letter with the codeword `0`, or a full tree (R703, R705, R706). -/
theorem huffman_cases (f : Table Nat) :
    huffman f = [] ∨ (∃ l, huffman f = [(l, [false])]) ∨ FullTree (huffman f) := by
  unfold huffman
  split
  · exact .inl rfl
  · next l c _ => exact .inr (.inl ⟨l, rfl⟩)
  · next p ps _ _ =>
    refine .inr (.inr (mergeLoop_fullTree (by simp [seedNodes]) (by simp [length_seedNodes]) fun x hx => ?_))
    obtain ⟨e, -, htable⟩ := mem_seedNodes hx
    exact htable ▸ .leaf e.1

/-- No codeword of the builder's table begins another (R707). -/
theorem huffman_eq_of_prefix {f : Table Nat} {e d : Nat × Bits} (he : e ∈ huffman f) (hd : d ∈ huffman f)
    (hpre : e.2 <+: d.2) : e = d := by
  obtain h | ⟨l, h⟩ | h := huffman_cases f
  · rw [h] at he; cases he
  · rw [h, List.mem_singleton] at he hd
    rw [he, hd]
  · exact h.eq_of_prefix he hd hpre

/-- The empty sequence and the proper prefixes of the builder's codewords are fewer than the codewords, or
one (R704). -/
theorem huffman_inner_le {f : Table Nat} {ps : List Bits} (hps : ps.Nodup)
    (h : ∀ q ∈ ps, q = [] ∨ ∃ e ∈ huffman f, q <+: e.2 ∧ q ≠ e.2) : ps.length ≤ max 1 ((huffman f).length - 1) := by
  have of_subset {ps' : List Bits} (hsub : ps ⊆ ps') : ps.length ≤ ps'.length := (hps.subperm hsub).length_le
  obtain hf | ⟨l, hf⟩ | hf := huffman_cases f
  · have := of_subset (ps' := [[]]) fun q hq => by simpa [hf] using h q hq
    exact this.trans (Nat.le_max_left ..)
  · have := of_subset (ps' := [[]]) fun q hq => by
      obtain rfl | ⟨e, he, hpre, hne⟩ := h q hq
      · simp
      · rw [hf, List.mem_singleton] at he
        subst he
        cases q with
        | nil => simp
        | cons b q => simp_all
    exact this.trans (Nat.le_max_left ..)
  · obtain ⟨inner, hlen, hinner⟩ := hf.exists_inner
    have := of_subset (ps' := inner) fun q hq => by
      obtain rfl | ⟨e, he, hpre, hne⟩ := h q hq
      · obtain ⟨e, he⟩ := List.exists_mem_of_ne_nil _ hf.ne_nil
        have hpos := (mem_huffman he).2
        exact hinner e he [] (List.nil_prefix) fun h => by simp [← h] at hpos
      · exact hinner e he q hpre hne
    omega

end Sys2Proof.Machine
end

section
/-! PROOF. What a trie holds (R910, R911, R914): the path to each node, and the codewords inserted so far. -/

namespace Sys2Proof.Machine

/-! ### Slots after a write -/

theorem pickSlot_putSlot (nd : Slot × Slot) (b b' : Bool) (x : Slot) :
    pickSlot (putSlot nd b x) b' = if b' = b then x else pickSlot nd b' := by
  cases b <;> cases b' <;> rfl

/-- Read after write of a slot (R902). -/
theorem trieSlot_setTrieSlot {t : Trie} {n : Nat} (hn : n < t.length) (b : Bool) (x : Slot) (n' : Nat) (b' : Bool) :
    trieSlot (setTrieSlot t n b x) n' b' = if n' = n ∧ b' = b then x else trieSlot t n' b' := by
  by_cases h : n' = n
  · subst h
    simp [trieSlot, setTrieSlot, List.getElem?_eq_getElem hn, pickSlot_putSlot]
  · simp [trieSlot, setTrieSlot, Ne.symm h, h]

/-- The slots after growth: the linked slot, the empty new node, and the others as they were (R911). -/
theorem trieSlot_growTrie {t : Trie} {n : Nat} (hn : n < t.length) (b : Bool) {n' : Nat} (hn' : n' < t.length)
    (b' : Bool) :
    trieSlot (growTrie t n b) n' b' = if n' = n ∧ b' = b then .child t.length else trieSlot t n' b' := by
  rw [← trieSlot_setTrieSlot hn, growTrie, trieSlot, List.getElem?_append_left (by simpa using hn'), trieSlot]

/-! ### What a trie holds -/

/-- The trie `t` holds the entries `es`: node `n` stands at the path `ps[n]` from the root, a slot links to the node one
bit further where there is one and holds the letter whose codeword ends there, and every part of a codeword or of
a path is a path (R910, R911). -/
structure TrieHolds (t : Trie) (ps : List Bits) (es : List (Nat × Bits)) : Prop where
  length : ps.length = t.length
  root : ps[0]? = some []
  nodup : ps.Nodup
  child : ∀ {n q}, ps[n]? = some q → ∀ b m, trieSlot t n b = .child m ↔ ps[m]? = some (q ++ [b])
  leaf : ∀ {n q}, ps[n]? = some q → ∀ b l, trieSlot t n b = .leaf l ↔ (l, q ++ [b]) ∈ es
  noReserved : ∀ {n q}, ps[n]? = some q → ∀ b raw, trieSlot t n b ≠ .reserved raw
  pathParent : ∀ {q b}, q ++ [b] ∈ ps → q ∈ ps
  leafParent : ∀ {l q b}, (l, q ++ [b]) ∈ es → q ∈ ps

theorem getElem?_concat_eq_some_iff {α : Type} {xs : List α} {x y : α} {n : Nat} :
    (xs ++ [x])[n]? = some y ↔ xs[n]? = some y ∨ (n = xs.length ∧ y = x) := by
  rw [List.getElem?_append]
  split
  · next h => simp [h.ne]
  · next h =>
    rw [List.getElem?_eq_none (by omega : xs.length ≤ n), List.getElem?_singleton]
    simp only [reduceCtorEq, false_or, eq_comm (a := y)]
    split
    · next h0 => simp [show n = xs.length by omega]
    · next h0 => simp [show n ≠ xs.length by omega]

theorem trieHolds_emptyTrie : TrieHolds emptyTrie [[]] [] := by
  have hslot {n : Nat} {q : Bits} (h : [([] : Bits)][n]? = some q) (b : Bool) : trieSlot emptyTrie n b = .empty := by
    obtain ⟨rfl, -⟩ : n = 0 ∧ [] = q := by simpa [List.getElem?_singleton] using h
    cases b <;> rfl
  refine ⟨rfl, rfl, by simp, fun h b m => ?_, fun h b l => ?_, fun h b raw => ?_, fun h => ?_, fun h => ?_⟩
  · simp [hslot h, List.getElem?_singleton]
  · simp [hslot h]
  · simp [hslot h]
  · simp at h
  · simp at h

section
variable {t : Trie} {ps : List Bits} {es : List (Nat × Bits)} (h : TrieHolds t ps es)
include h

theorem TrieHolds.lt_length {n : Nat} {q : Bits} (hn : ps[n]? = some q) : n < t.length := by
  rw [← h.length]
  exact (List.getElem?_eq_some_iff.mp hn).1

/-- Each path leads to one node. -/
theorem TrieHolds.node_unique {n n' : Nat} {q : Bits} (hn : ps[n]? = some q) (hn' : ps[n']? = some q) : n = n' :=
  (List.getElem?_inj (List.getElem?_eq_some_iff.mp hn).1 h.nodup).mp (hn.trans hn'.symm)

/-- The same bit after the paths of two nodes is the same slot. -/
theorem TrieHolds.slot_unique {n n' : Nat} {q q' : Bits} {b b' : Bool} (hn : ps[n]? = some q) (hn' : ps[n']? = some q')
    (heq : q' ++ [b'] = q ++ [b]) : n' = n ∧ b' = b := by
  obtain ⟨rfl, hb⟩ := List.append_inj' heq rfl
  exact ⟨h.node_unique hn' hn, List.singleton_inj.mp hb⟩

theorem TrieHolds.empty_not_path {n : Nat} {q : Bits} {b : Bool} (hn : ps[n]? = some q)
    (hempty : trieSlot t n b = .empty) : q ++ [b] ∉ ps := by
  intro hmem
  obtain ⟨m, hm⟩ := List.mem_iff_getElem?.mp hmem
  have := (h.child hn b m).mpr hm
  simp [hempty] at this

theorem TrieHolds.empty_not_leaf {n : Nat} {q : Bits} {b : Bool} (hn : ps[n]? = some q)
    (hempty : trieSlot t n b = .empty) (l : Nat) : (l, q ++ [b]) ∉ es := by
  intro hmem
  have := (h.leaf hn b l).mpr hmem
  simp [hempty] at this

theorem TrieHolds.path_of_prefix {q x : Bits} (hmem : q ++ x ∈ ps) : q ∈ ps := by
  induction x using List.reverseRecOn with
  | nil => simpa using hmem
  | append_singleton x b ih => exact ih (h.pathParent (by rwa [← List.append_assoc] at hmem))

/-- What a codeword goes on from is a path. -/
theorem TrieHolds.path_of_codeword {l : Nat} {q c : Bits} (hc : c ≠ []) (hmem : (l, q ++ c) ∈ es) : q ∈ ps := by
  obtain ⟨x, b, rfl⟩ := (List.eq_nil_or_concat' c).resolve_left hc
  rw [← List.append_assoc] at hmem
  exact h.path_of_prefix (h.leafParent hmem)

/-! ### Insertion -/

section
variable {n : Nat} {q : Bits} {b : Bool} (hn : ps[n]? = some q) (hempty : trieSlot t n b = .empty)
include hn

/-- The slots after an empty one is filled: that slot, and the others as they were. -/
theorem TrieHolds.slot_setLeaf (l : Nat) {n' : Nat} {q' : Bits} (hn' : ps[n']? = some q') (b' : Bool) :
    (q' = q ∧ b' = b ∧ n' = n ∧ trieSlot (setTrieSlot t n b (.leaf l)) n' b' = .leaf l)
    ∨ (q' ++ [b'] ≠ q ++ [b] ∧ trieSlot (setTrieSlot t n b (.leaf l)) n' b' = trieSlot t n' b') := by
  rw [trieSlot_setTrieSlot (h.lt_length hn)]
  by_cases hsame : n' = n ∧ b' = b
  · obtain ⟨rfl, rfl⟩ := hsame
    exact .inl ⟨Option.some.inj (hn'.symm.trans hn), rfl, rfl, by simp⟩
  · exact .inr ⟨fun heq => hsame (h.slot_unique hn hn' heq), by rw [if_neg hsame]⟩

/-- The slots after growth: the linked slot, the empty ones of the new node, and the others as they were. -/
theorem TrieHolds.slot_grow {n' : Nat} {q' : Bits} (hn' : (ps ++ [q ++ [b]])[n']? = some q') (b' : Bool) :
    (q' = q ∧ b' = b ∧ trieSlot (growTrie t n b) n' b' = .child t.length)
    ∨ (q' = q ++ [b] ∧ trieSlot (growTrie t n b) n' b' = .empty)
    ∨ (ps[n']? = some q' ∧ q' ++ [b'] ≠ q ++ [b] ∧ trieSlot (growTrie t n b) n' b' = trieSlot t n' b') := by
  obtain hold | ⟨rfl, rfl⟩ := getElem?_concat_eq_some_iff.mp hn'
  · rw [trieSlot_growTrie (h.lt_length hn) b (h.lt_length hold)]
    by_cases hsame : n' = n ∧ b' = b
    · obtain ⟨rfl, rfl⟩ := hsame
      exact .inl ⟨Option.some.inj (hold.symm.trans hn), rfl, by simp⟩
    · exact .inr (.inr ⟨hold, fun heq => hsame (h.slot_unique hn hold heq), by rw [if_neg hsame]⟩)
  · exact .inr (.inl ⟨rfl, by rw [h.length, trieSlot_growTrie_new]⟩)

include hempty

/-- Filling an empty slot adds the codeword that ends there. -/
theorem TrieHolds.setLeaf (l : Nat) : TrieHolds (setTrieSlot t n b (.leaf l)) ps (es ++ [(l, q ++ [b])]) := by
  refine ⟨by simpa using h.length, h.root, h.nodup, fun {n' q'} hn' b' m => ?_, fun {n' q'} hn' b' l' => ?_,
    fun {n' q'} hn' b' raw => ?_, h.pathParent, fun {l' q' b'} hmem => ?_⟩
  · obtain ⟨rfl, rfl, rfl, hslot⟩ | ⟨-, hslot⟩ := h.slot_setLeaf (b := b) hn l hn' b'
    · rw [hslot, ← h.child hn', hempty]
      simp
    · rw [hslot, h.child hn']
  · rw [List.mem_append, List.mem_singleton, Prod.mk.injEq]
    obtain ⟨rfl, rfl, rfl, hslot⟩ | ⟨hne, hslot⟩ := h.slot_setLeaf (b := b) hn l hn' b'
    · simp [hslot, h.empty_not_leaf hn hempty, eq_comm]
    · simp [hslot, h.leaf hn', hne]
  · obtain ⟨-, -, -, hslot⟩ | ⟨-, hslot⟩ := h.slot_setLeaf (b := b) hn l hn' b'
    · simp [hslot]
    · exact hslot ▸ h.noReserved hn' b' raw
  · rcases List.mem_append.mp hmem with hmem | hmem
    · exact h.leafParent hmem
    · obtain ⟨-, heq⟩ := Prod.mk.inj (List.mem_singleton.mp hmem)
      obtain ⟨rfl, -⟩ := List.append_inj' heq rfl
      exact List.mem_of_getElem? hn

/-- Linking an empty slot to a new node adds the path to it. -/
theorem TrieHolds.grow : TrieHolds (growTrie t n b) (ps ++ [q ++ [b]]) es := by
  have hnew := h.empty_not_path hn hempty
  refine ⟨by simp [h.length], getElem?_concat_eq_some_iff.mpr (.inl h.root), by simpa using h.nodup.concat hnew,
    fun {n' q'} hn' b' m => ?_, fun {n' q'} hn' b' l' => ?_, fun {n' q'} hn' b' raw => ?_, fun {q' b'} hmem => ?_,
    fun hmem => List.mem_append_left _ (h.leafParent hmem)⟩
  · rw [getElem?_concat_eq_some_iff]
    obtain ⟨rfl, rfl, hslot⟩ | ⟨rfl, hslot⟩ | ⟨hold, hne, hslot⟩ := h.slot_grow hn hn' b' <;> rw [hslot]
    · have : ps[m]? ≠ some (q' ++ [b']) := fun hm => hnew (List.mem_of_getElem? hm)
      simp [this, h.length, eq_comm]
    · have : ps[m]? ≠ some (q ++ [b] ++ [b']) := fun hm => hnew (h.pathParent (List.mem_of_getElem? hm))
      simpa using this
    · simp [h.child hold, hne]
  · obtain ⟨rfl, rfl, hslot⟩ | ⟨rfl, hslot⟩ | ⟨hold, -, hslot⟩ := h.slot_grow hn hn' b' <;> rw [hslot]
    · simp [h.empty_not_leaf hn hempty]
    · simp only [reduceCtorEq, false_iff]
      exact fun hmem => hnew (h.leafParent hmem)
    · exact h.leaf hold b' l'
  · obtain ⟨-, -, hslot⟩ | ⟨-, hslot⟩ | ⟨hold, -, hslot⟩ := h.slot_grow hn hn' b' <;> rw [hslot]
    · simp
    · simp
    · exact h.noReserved hold b' raw
  · rcases List.mem_append.mp hmem with hmem | hmem
    · exact List.mem_append_left _ (h.pathParent hmem)
    · obtain ⟨rfl, -⟩ := List.append_inj' (List.mem_singleton.mp hmem) rfl
      exact List.mem_append_left _ (List.mem_of_getElem? hn)

end

end

/-- The extension of R911 adds the codeword, and its proper prefixes as paths. -/
theorem TrieHolds.extend {t : Trie} {ps : List Bits} {es : List (Nat × Bits)} (h : TrieHolds t ps es) {n l : Nat}
    {q c : Bits} (hn : ps[n]? = some q) (hc : c ≠ []) (hempty : ∀ b ∈ c.head?, trieSlot t n b = .empty) :
    ∃ ps', TrieHolds (extendTrie l t n c) ps' (es ++ [(l, q ++ c)])
      ∧ ∀ x ∈ ps', x ∈ ps ∨ (x <+: q ++ c ∧ x ≠ q ++ c) := by
  induction t, n, c using extendTrie.induct generalizing ps q with
  | case1 t n => exact (hc rfl).elim
  | case2 t n b => exact ⟨ps, h.setLeaf hn (hempty b rfl) l, fun x hx => .inl hx⟩
  | case3 t n b b' bs ih =>
    have hnew : (ps ++ [q ++ [b]])[t.length]? = some (q ++ [b]) :=
      getElem?_concat_eq_some_iff.mpr (.inr ⟨h.length.symm, rfl⟩)
    obtain ⟨ps', hholds, hps'⟩ := ih (h.grow hn (hempty b rfl)) hnew (by simp) fun x _ => trieSlot_growTrie_new t n b x
    rw [List.append_assoc] at hholds hps'
    refine ⟨ps', hholds, fun x hx => ?_⟩
    obtain hx | hx := hps' x hx
    · rcases List.mem_append.mp hx with hx | hx
      · exact .inl hx
      · rw [List.mem_singleton.mp hx]
        exact .inr ⟨⟨b' :: bs, by simp⟩, by simp⟩
    · exact .inr hx

/-- Every path is empty or a codeword goes on from it: the trie has no node beside those the codewords need. -/
def PathsNeeded (ps : List Bits) (es : List (Nat × Bits)) : Prop := ∀ x ∈ ps, x = [] ∨ ∃ e ∈ es, x <+: e.2 ∧ x ≠ e.2

theorem PathsNeeded.add {ps ps' : List Bits} {es : List (Nat × Bits)} (h : PathsNeeded ps es) {e : Nat × Bits}
    (hps' : ∀ x ∈ ps', x ∈ ps ∨ (x <+: e.2 ∧ x ≠ e.2)) : PathsNeeded ps' (es ++ [e]) := by
  intro x hx
  obtain hx | hx := hps' x hx
  · exact (h x hx).imp_right fun ⟨d, hd, hpre⟩ => ⟨d, List.mem_append_left _ hd, hpre⟩
  · exact .inr ⟨e, List.mem_append_right _ (List.mem_singleton_self e), hx⟩

/-- A codeword that begins no other and that no other begins is inserted (R911). -/
theorem TrieHolds.insertWalk {t : Trie} {ps : List Bits} {es : List (Nat × Bits)} (h : TrieHolds t ps es)
    (hneeded : PathsNeeded ps es) {n l : Nat} {q c : Bits} (hn : ps[n]? = some q) (hc : c ≠ [])
    (hfree : ∀ e ∈ es, ¬ e.2 <+: q ++ c ∧ ¬ q ++ c <+: e.2) :
    ∃ t' ps', insertWalk t l n c = .ok t' ∧ TrieHolds t' ps' (es ++ [(l, q ++ c)])
      ∧ PathsNeeded ps' (es ++ [(l, q ++ c)]) := by
  induction n, c using insertWalk.induct t generalizing q with
  | case1 n => exact (hc rfl).elim
  | case2 n b hempty =>
    exact ⟨_, ps, by rw [Machine.insertWalk, hempty], h.setLeaf hn hempty l, hneeded.add fun x hx => .inl hx⟩
  | case3 n b m hslot =>
    obtain hx | ⟨e, he, hpre, -⟩ := hneeded _ (List.mem_of_getElem? ((h.child hn b m).mp hslot))
    · simp at hx
    · exact ((hfree e he).2 hpre).elim
  | case4 n b l' hslot => exact ((hfree _ ((h.leaf hn b l').mp hslot)).1 (List.prefix_refl _)).elim
  | case5 n b raw hslot => exact (h.noReserved hn b raw hslot).elim
  | case6 n b b' bs m hslot ih =>
    have happend : q ++ b :: b' :: bs = q ++ [b] ++ b' :: bs := by simp
    rw [Machine.insertWalk, hslot]
    rw [happend] at hfree ⊢
    exact ih ((h.child hn b m).mp hslot) (by simp) hfree
  | case7 n b b' bs l' hslot => exact ((hfree _ ((h.leaf hn b l').mp hslot)).1 ⟨b' :: bs, by simp⟩).elim
  | case8 n b b' bs raw hslot => exact (h.noReserved hn b raw hslot).elim
  | case9 n b b' bs hempty =>
    obtain ⟨ps', hholds, hps'⟩ := h.extend (l := l) hn hc fun x hx => by cases hx; exact hempty
    exact ⟨_, ps', by rw [Machine.insertWalk, hempty], hholds, hneeded.add hps'⟩

/-- Neither codeword begins the other (R40). -/
def Incomparable (e d : Nat × Bits) : Prop := ¬ e.2 <+: d.2 ∧ ¬ d.2 <+: e.2

/-- Entries with non-empty codewords, of which none begins another, and letters in range are all inserted (R914). -/
theorem TrieHolds.insertAll {p : Params} {rest : List (Nat × Bits)} {t : Trie} {ps : List Bits}
    {es : List (Nat × Bits)} (h : TrieHolds t ps es) (hneeded : PathsNeeded ps es)
    (hrest : ∀ e ∈ rest, e.2 ≠ [] ∧ e.1 ≤ p.maxLetter) (hfree : (es ++ rest).Pairwise Incomparable) :
    ∃ t' ps', insertAll p t rest = .ok t' ∧ TrieHolds t' ps' (es ++ rest) ∧ PathsNeeded ps' (es ++ rest) := by
  induction rest generalizing t ps es with
  | nil => exact ⟨t, ps, rfl, by simpa using h, by simpa using hneeded⟩
  | cons e rest ih =>
    obtain ⟨l, c⟩ := e
    obtain ⟨⟨hc, hl⟩, hrest⟩ := List.forall_mem_cons.mp hrest
    have hnew : ∀ d ∈ es, Incomparable d (l, c) := fun d hd =>
      (List.pairwise_append.mp hfree).2.2 d hd _ List.mem_cons_self
    obtain ⟨t1, ps1, hins, hholds, hneeded1⟩ := h.insertWalk (l := l) hneeded h.root hc hnew
    have happend : es ++ (l, c) :: rest = es ++ [(l, c)] ++ rest := by simp
    rw [happend] at hfree ⊢
    have hstep : trieInsert p t c l = .ok t1 := by rw [trieInsert, if_neg hc, if_neg (by omega), hins]
    simp only [Machine.insertAll, hstep]
    exact ih hholds hneeded1 hrest hfree

/-- From the empty root (R914, R915). -/
theorem insertAll_emptyTrie {p : Params} {es : List (Nat × Bits)} (hes : ∀ e ∈ es, e.2 ≠ [] ∧ e.1 ≤ p.maxLetter)
    (hfree : es.Pairwise Incomparable) :
    ∃ t ps, insertAll p emptyTrie es = .ok t ∧ TrieHolds t ps es ∧ PathsNeeded ps es :=
  trieHolds_emptyTrie.insertAll (fun _ hx => .inl (List.mem_singleton.mp hx)) hes hfree

/-! ### Decode walks -/

section
variable {t : Trie} {ps : List Bits} {es : List (Nat × Bits)} (h : TrieHolds t ps es)
include h

/-- A walk that meets the rest of a codeword gives its letter (R914, R920). -/
theorem TrieHolds.walkBits_codeword {n l : Nat} {q c : Bits} (hn : ps[n]? = some q) (hc : c ≠ [])
    (hmem : (l, q ++ c) ∈ es) (j : Nat) (x : Bits) : walkBits t n j (c ++ x) = some (l, j + c.length) := by
  induction c generalizing n q j with
  | nil => exact (hc rfl).elim
  | cons b c ih =>
    by_cases hlast : c = []
    · subst hlast
      have hslot := (h.leaf hn b l).mpr hmem
      simp only [List.cons_append, walkBits, hslot, List.length_singleton]
    · have happend : q ++ b :: c = q ++ [b] ++ c := by simp
      rw [happend] at hmem
      obtain ⟨m, hm⟩ := List.mem_iff_getElem?.mp (h.path_of_codeword hlast hmem)
      have hslot := (h.child hn b m).mpr hm
      simp only [List.cons_append, walkBits, hslot, ih hm hlast hmem]
      simp only [List.length_cons, Nat.add_assoc, Nat.add_comm 1]

/-- A walk that succeeds has read the rest of a codeword (R920). -/
theorem TrieHolds.codeword_of_walkBits {n l j j' : Nat} {q bs : Bits} (hn : ps[n]? = some q)
    (hwalk : walkBits t n j bs = some (l, j')) :
    ∃ c x, bs = c ++ x ∧ (l, q ++ c) ∈ es ∧ j' = j + c.length ∧ c ≠ [] := by
  induction bs generalizing n q j with
  | nil => cases hwalk
  | cons b bs ih =>
    rw [walkBits] at hwalk
    split at hwalk
    · next m hslot =>
      obtain ⟨c, x, rfl, hmem, rfl, -⟩ := ih ((h.child hn b m).mp hslot) hwalk
      refine ⟨b :: c, x, rfl, by simpa using hmem, by simp only [List.length_cons]; omega, by simp⟩
    · next l' hslot =>
      cases hwalk
      exact ⟨[b], bs, rfl, (h.leaf hn b l).mp hslot, rfl, by simp⟩
    · cases hwalk
    · cases hwalk

end

end Sys2Proof.Machine
end

section
/-! PROOF. The payload (R841, R930): a trie that holds a table decodes exactly the texts the table encodes, and a
shorter payload is that of a shorter text. -/

namespace Sys2Proof.Machine

theorem encodeText_cons_eq_some_iff {ct : Table Bits} {l : Nat} {ls : List Nat} {w : Bits} :
    encodeText ct (l :: ls) = some w ↔ ∃ c w', tableGet ct l = some c ∧ encodeText ct ls = some w' ∧ w = c ++ w' := by
  rw [encodeText]
  cases tableGet ct l <;> cases encodeText ct ls <;> simp [eq_comm]

theorem encodeText_append {ct : Table Bits} {ls ls' : List Nat} {w w' : Bits} (h : encodeText ct ls = some w)
    (h' : encodeText ct ls' = some w') : encodeText ct (ls ++ ls') = some (w ++ w') := by
  induction ls generalizing w with
  | nil => cases h; exact h'
  | cons l ls ih =>
    obtain ⟨c, v, hc, hv, rfl⟩ := encodeText_cons_eq_some_iff.mp h
    exact encodeText_cons_eq_some_iff.mpr ⟨c, v ++ w', hc, ih hv, by rw [List.append_assoc]⟩

/-- Of a table whose codewords begin no other, a payload that begins another is the payload of the beginning of its
text. -/
theorem encodeText_prefix {ct : Table Bits} (hrising : keysRising ct = true) (hne : ∀ e ∈ ct, e.2 ≠ [])
    (hfree : ∀ e ∈ ct, ∀ d ∈ ct, e.2 <+: d.2 → e = d) {out txt : List Nat} {v w : Bits}
    (hout : encodeText ct out = some v) (htxt : encodeText ct txt = some w) (hpre : v <+: w) :
    ∃ rest y, txt = out ++ rest ∧ encodeText ct rest = some y ∧ w = v ++ y := by
  induction out generalizing txt v w with
  | nil => cases hout; exact ⟨txt, w, rfl, htxt, rfl⟩
  | cons l out ih =>
    obtain ⟨c, v, hc, hv, rfl⟩ := encodeText_cons_eq_some_iff.mp hout
    have hmem := (tableGet_eq_some_iff ct hrising l c).mp hc
    cases txt with
    | nil =>
      cases htxt
      exact (hne _ hmem (List.append_eq_nil_iff.mp (List.prefix_nil.mp hpre)).1).elim
    | cons l' txt =>
      obtain ⟨c', w, hc', hw, rfl⟩ := encodeText_cons_eq_some_iff.mp htxt
      have hmem' := (tableGet_eq_some_iff ct hrising l' c').mp hc'
      have hcw : c <+: c' ++ w := (List.prefix_append c v).trans hpre
      have hsame : ((l, c) : Nat × Bits) = (l', c') := by
        obtain h | h := List.prefix_or_prefix_of_prefix hcw (List.prefix_append c' w)
        · exact hfree _ hmem _ hmem' h
        · exact (hfree _ hmem' _ hmem h).symm
      obtain ⟨rfl, rfl⟩ := Prod.mk.inj hsame
      obtain ⟨rest, y, rfl, hy, rfl⟩ := ih hv hw ((List.prefix_append_right_inj c).mp hpre)
      exact ⟨rest, y, rfl, hy, by rw [List.append_assoc]⟩

/-- Only the empty text has the empty payload, where no codeword is empty. -/
theorem encodeText_eq_nil_iff {ct : Table Bits} (hrising : keysRising ct = true) (hne : ∀ e ∈ ct, e.2 ≠ [])
    {txt : List Nat} : encodeText ct txt = some [] ↔ txt = [] := by
  cases txt with
  | nil => simp [encodeText]
  | cons l ls =>
    simp only [reduceCtorEq, iff_false]
    intro h
    obtain ⟨c, w, hc, -, hnil⟩ := encodeText_cons_eq_some_iff.mp h
    exact hne _ ((tableGet_eq_some_iff ct hrising l c).mp hc) (List.append_eq_nil_iff.mp hnil.symm).1

/-- A codeword of the table that stands at `p` takes at least one bit and ends within IBUF. -/
theorem codeword_room {ct : Table Bits} (hrising : keysRising ct = true) (hne : ∀ e ∈ ct, e.2 ≠ []) {ibuf c x : Bits}
    {l p : Nat} (hc : tableGet ct l = some c) (hx : ibuf.drop p = c ++ x) :
    1 ≤ c.length ∧ p + c.length ≤ ibuf.length := by
  have hpos : 1 ≤ c.length := List.length_pos_of_ne_nil (hne _ ((tableGet_eq_some_iff ct hrising l c).mp hc))
  have hlen := congrArg List.length hx
  rw [List.length_drop, List.length_append] at hlen
  exact ⟨hpos, by omega⟩

/-- At the end of IBUF the loop of DECODE_ALL is done (R930). -/
theorem decodeLoop_end (t : Trie) (ibuf : Bits) (k : Nat) :
    decodeLoop t ibuf k ibuf.length = some ([], ibuf.length) := by
  cases k <;> simp [decodeLoop]

section
variable {t : Trie} {ps : List Bits} {ct : Table Bits} (h : TrieHolds t ps ct) (hrising : keysRising ct = true)
include h hrising

/-- A decode walk answers exactly where a codeword of the table stands (R920). -/
theorem TrieHolds.decodeWalk_eq_some_iff (hne : ∀ e ∈ ct, e.2 ≠ []) {ibuf : Bits} {p l j : Nat} :
    decodeWalk t ibuf p = some (l, j) ↔
      ∃ c x, tableGet ct l = some c ∧ ibuf.drop p = c ++ x ∧ j = p + c.length := by
  constructor
  · intro hwalk
    obtain ⟨c, x, hx, hmem, rfl, -⟩ := h.codeword_of_walkBits h.root hwalk
    exact ⟨c, x, (tableGet_eq_some_iff ct hrising l c).mpr hmem, hx, rfl⟩
  · rintro ⟨c, x, hc, hx, rfl⟩
    have hmem := (tableGet_eq_some_iff ct hrising l c).mp hc
    rw [decodeWalk, hx]
    exact h.walkBits_codeword h.root (hne _ hmem) hmem p x

/-- One turn of the loop of DECODE_ALL (R930). -/
theorem TrieHolds.decodeLoop_succ_eq_some_iff (hne : ∀ e ∈ ct, e.2 ≠ []) {ibuf : Bits} {k p e : Nat} {out : List Nat}
    (hp : p < ibuf.length) :
    decodeLoop t ibuf (k + 1) p = some (out, e) ↔
      ∃ l c x ls, tableGet ct l = some c ∧ ibuf.drop p = c ++ x ∧ decodeLoop t ibuf k (p + c.length) = some (ls, e)
        ∧ out = l :: ls := by
  rw [decodeLoop, if_pos hp]
  constructor
  · intro hloop
    split at hloop
    · cases hloop
    · next l j hwalk =>
      obtain ⟨c, x, hc, hx, rfl⟩ := (h.decodeWalk_eq_some_iff hrising hne).mp hwalk
      split at hloop
      · cases hloop
      · next ls e' hrest =>
        cases hloop
        exact ⟨l, c, x, ls, hc, hx, hrest, rfl⟩
  · rintro ⟨l, c, x, ls, hc, hx, hrest, rfl⟩
    have hwalk := (h.decodeWalk_eq_some_iff hrising hne).mpr ⟨c, x, hc, hx, rfl⟩
    simp only [hwalk, hrest]

/-- The loop of DECODE_ALL answers exactly the text whose payload is what is left of IBUF (R930). -/
theorem TrieHolds.decodeLoop_eq_some_iff (hne : ∀ e ∈ ct, e.2 ≠ []) {ibuf : Bits} {k p e : Nat} {out : List Nat}
    (hp : p ≤ ibuf.length) (hk : ibuf.length - p ≤ k) :
    decodeLoop t ibuf k p = some (out, e) ↔ encodeText ct out = some (ibuf.drop p) ∧ e = ibuf.length := by
  have hend (k : Nat) (out : List Nat) : decodeLoop t ibuf k ibuf.length = some (out, e)
      ↔ encodeText ct out = some (ibuf.drop ibuf.length) ∧ e = ibuf.length := by
    rw [decodeLoop_end, List.drop_length, encodeText_eq_nil_iff hrising hne]
    simp [eq_comm]
  induction k generalizing p out with
  | zero =>
    obtain rfl : p = ibuf.length := by omega
    exact hend 0 out
  | succ k ih =>
    obtain rfl | hlt := Nat.eq_or_lt_of_le hp
    · exact hend (k + 1) out
    · rw [h.decodeLoop_succ_eq_some_iff hrising hne hlt]
      constructor
      · rintro ⟨l, c, x, ls, hc, hx, hrest, rfl⟩
        obtain ⟨hpos, hroom⟩ := codeword_room hrising hne hc hx
        obtain ⟨hls, rfl⟩ := (ih hroom (by omega)).mp hrest
        rw [drop_add_of_drop_eq hx] at hls
        exact ⟨encodeText_cons_eq_some_iff.mpr ⟨c, x, hc, hls, hx⟩, rfl⟩
      · rintro ⟨hout, rfl⟩
        cases out with
        | nil =>
          have := List.drop_eq_nil_iff.mp (Option.some.inj hout).symm
          omega
        | cons l ls =>
          obtain ⟨c, x, hc, hls, hx⟩ := encodeText_cons_eq_some_iff.mp hout
          obtain ⟨hpos, hroom⟩ := codeword_room hrising hne hc hx
          have hrest := (ih hroom (by omega)).mpr ⟨by rw [drop_add_of_drop_eq hx, hls], rfl⟩
          exact ⟨l, c, x, ls, hc, hx, hrest, rfl⟩

/-- DECODE_ALL answers exactly the text whose payload is what is left of IBUF (R930). -/
theorem TrieHolds.decodeAll_eq_some_iff (hne : ∀ e ∈ ct, e.2 ≠ []) {ibuf : Bits} {p e : Nat} {out : List Nat}
    (hp : p ≤ ibuf.length) :
    decodeAll t ibuf p = some (out, e) ↔ encodeText ct out = some (ibuf.drop p) ∧ e = ibuf.length :=
  h.decodeLoop_eq_some_iff hrising hne hp (Nat.le_refl _)

end

end Sys2Proof.Machine
end

section
/-! PROOF. The code table COMPRESS makes of a text (R340): what the header, the trie and the decoder need of it. -/

namespace Sys2Proof.Machine

/-! ### Tables in canonical form -/

theorem tableSet_of_gt {α : Type} {t : Table α} {l : Nat} {x : α} (h : ∀ e ∈ t, e.1 < l) :
    tableSet t l x = t ++ [(l, x)] := by
  induction t with
  | nil => rfl
  | cons e t ih =>
    obtain ⟨hlt, ht⟩ := List.forall_mem_cons.mp h
    rw [tableSet, if_neg (by omega), if_neg (by omega), ih ht, List.cons_append]

/-- A table in canonical form is the table of its entries. -/
theorem tableOf_of_rising {α : Type} {t : Table α} (h : keysRising t = true) : tableOf t = t := by
  have hfold (es acc : Table α) (hes : keysRising es = true) (hacc : ∀ d ∈ acc, ∀ e ∈ es, d.1 < e.1) :
      es.foldl (fun t e => tableSet t e.1 e.2) acc = acc ++ es := by
    induction es generalizing acc with
    | nil => simp
    | cons e es ih =>
      obtain ⟨hlt, hes⟩ := (keysRising_cons e.1 e.2 es).mp hes
      rw [List.foldl_cons, tableSet_of_gt fun d hd => hacc d hd e List.mem_cons_self, ih _ hes, List.append_assoc,
        List.singleton_append]
      intro d hd e' he'
      rcases List.mem_append.mp hd with hd | hd
      · exact hacc d hd e' (List.mem_cons_of_mem e he')
      · rw [List.mem_singleton.mp hd]
        exact hlt e' he'
  exact hfold t [] h (by simp)

/-! ### What decompression needs of a table -/

/-- A table whose header can be written, read and stored with the parameters `p`, and whose codewords can all be
inserted in a trie. -/
structure Decodable (p : Params) (ct : Table Bits) : Prop where
  rising : keysRising ct = true
  codeword_ne : ∀ e ∈ ct, e.2 ≠ []
  fits : ∀ e ∈ ct, e.1 ≤ p.maxLetter ∧ e.2.length ≤ p.maxCwLen
  eq_of_prefix : ∀ e ∈ ct, ∀ d ∈ ct, e.2 <+: d.2 → e = d
  nodes : ∀ ps : List Bits, ps.Nodup → PathsNeeded ps ct → ps.length ≤ p.nodeCap

section
variable {p : Params} {ct : Table Bits} (h : Decodable p ct)
include h

theorem Decodable.entriesFrom : EntriesFrom 0 ct :=
  ⟨h.rising, fun e he => ⟨Nat.zero_le _, h.codeword_ne e he⟩⟩

theorem Decodable.incomparable : ct.Pairwise Incomparable := by
  have hkeys : ct.Pairwise (fun e d => e.1 ≠ d.1) := List.pairwise_map.mp (keys_nodup h.rising)
  refine hkeys.imp_of_mem fun he hd hne => ⟨fun hpre => ?_, fun hpre => ?_⟩
  · exact hne (congrArg Prod.fst (h.eq_of_prefix _ he _ hd hpre))
  · exact hne (congrArg Prod.fst (h.eq_of_prefix _ hd _ he hpre)).symm

/-- TRIE_BUILD's insertion succeeds, within NODE_CAP (R914, R915). -/
theorem Decodable.exists_trie :
    ∃ t ps, insertAll p emptyTrie ct = .ok t ∧ TrieHolds t ps ct ∧ t.length ≤ p.nodeCap := by
  obtain ⟨t, ps, hins, hholds, hneeded⟩ :=
    insertAll_emptyTrie (fun e he => ⟨h.codeword_ne e he, (h.fits e he).1⟩) h.incomparable
  exact ⟨t, ps, hins, hholds, hholds.length ▸ h.nodes ps hholds.nodup hneeded⟩

end

/-! ### The table of a text -/

/-- The table that FREQ_CLR, FREQ_COUNT and BUILD make of a text (R611, R720). -/
def codeTable (txt : List Nat) : Table Bits := tableOf (huffman (countText [] txt))

theorem mem_codeTable {txt : List Nat} {e : Nat × Bits} (h : e ∈ codeTable txt) :
    e ∈ huffman (countText [] txt) ∧ e.1 ∈ txt ∧ e.2 ≠ [] := by
  have hmem := mem_tableOf h
  obtain ⟨⟨e', he', hl⟩, hpos⟩ := mem_huffman hmem
  refine ⟨hmem, ?_, List.ne_nil_of_length_pos hpos⟩
  obtain htxt | ⟨d, hd, -⟩ := mem_countText he'
  · exact hl ▸ htxt
  · cases hd

/-- A text of bytes and one more letter has at most 257 letters to code (R600, R611). -/
theorem length_huffman_le {txt : List Nat} {sentinel : Nat} (h : ∀ l ∈ txt, l < 256 ∨ l = sentinel) :
    (huffman (countText [] txt)).length ≤ 257 := by
  have hwf : countsWf (countText [] txt) = true := countText_keepsWf [] txt rfl
  have hrising : keysRising (countText [] txt) = true := by
    simp only [countsWf, Bool.and_eq_true] at hwf
    exact hwf.1
  have hsub : (countText [] txt).map Prod.fst ⊆ sentinel :: List.range 256 := by
    intro l hl
    obtain ⟨e, he, rfl⟩ := List.mem_map.mp hl
    obtain htxt | ⟨d, hd, -⟩ := mem_countText he
    · simpa [or_comm] using h _ htxt
    · cases hd
  calc (huffman (countText [] txt)).length
    _ = (participants (countText [] txt)).length := by simpa using (huffman_letters _).length_eq
    _ ≤ (countText [] txt).length := List.length_filter_le ..
    _ ≤ 257 := by simpa using ((keys_nodup hrising).subperm hsub).length_le

/-- The table of a text of bytes and the sentinel is decodable, with 256 nodes (R340, R341). -/
theorem codeTable_decodable {p : Params} {txt : List Nat} (hletters : ∀ l ∈ txt, l < 256 ∨ l = p.sentinel)
    (hmax : ∀ l ∈ txt, l ≤ p.maxLetter) (hlen : longest (huffman (countText [] txt)) ≤ p.maxCwLen)
    (hnodes : 256 ≤ p.nodeCap) : Decodable p (codeTable txt) where
  rising := tableOf_rising _
  codeword_ne := fun _ he => (mem_codeTable he).2.2
  fits := fun _ he => ⟨hmax _ (mem_codeTable he).2.1, (length_le_longest (mem_codeTable he).1).trans hlen⟩
  eq_of_prefix := fun _ he _ hd => huffman_eq_of_prefix (mem_codeTable he).1 (mem_codeTable hd).1
  nodes := fun ps hps hneeded => by
    have hinner := huffman_inner_le hps fun q hq =>
      (hneeded q hq).imp_right fun ⟨e, he, hpre⟩ => ⟨e, (mem_codeTable he).1, hpre⟩
    have hcount := length_huffman_le hletters
    omega

/-! ### The text of a buffer -/

/-- The text COMPRESS encodes: the letters of the bytes, and the sentinel with the policy flag (R340). -/
def textOf (flag : Bool) (sentinel : Nat) (bytes : List Byte) : List Nat :=
  bytes.map letterOf ++ (if flag then [sentinel] else [])

theorem mem_textOf {flag : Bool} {sentinel l : Nat} {bytes : List Byte} (h : l ∈ textOf flag sentinel bytes) :
    l < 256 ∨ l = sentinel := by
  rcases List.mem_append.mp h with h | h
  · obtain ⟨b, -, rfl⟩ := List.mem_map.mp h
    exact .inl b.isLt
  · cases flag
    · cases h
    · exact .inr (List.mem_singleton.mp h)

theorem bytesOfText_append (p : Params) (txt txt' : List Nat) :
    bytesOfText p (txt ++ txt') = bytesOfText p txt ++ bytesOfText p txt' := by
  simp [bytesOfText]

/-- The bytes of a buffer's letters are the buffer (R600, R605, R606). -/
theorem bytesOfText_letters (p : Params) (bytes : List Byte) : bytesOfText p (bytes.map letterOf) = bytes := by
  induction bytes with
  | nil => rfl
  | cons b bytes ih =>
    have hb : isByte p (letterOf b) = true := decide_eq_true (Nat.le_of_lt_succ b.isLt)
    have hback : byteOf (letterOf b) = b := by simp [byteOf, letterOf]
    rw [bytesOfText] at ih ⊢
    rw [List.map_cons, List.filter_cons_of_pos hb, List.map_cons, hback, ih]

/-- The sentinel is dropped (R606). -/
theorem bytesOfText_sentinel {p : Params} (hp : p.legal = true) : bytesOfText p [p.sentinel] = [] := by
  have hsentinel := (legal_ranges hp).sentinel.1
  have : isByte p p.sentinel = false := decide_eq_false (Nat.not_le.mpr hsentinel)
  simp [bytesOfText, this]

theorem bytesOfText_textOf {p : Params} (hp : p.legal = true) (flag : Bool) (bytes : List Byte) :
    bytesOfText p (textOf flag p.sentinel bytes) = bytes := by
  rw [textOf, bytesOfText_append, bytesOfText_letters]
  cases flag
  · exact List.append_nil bytes
  · rw [if_pos rfl, bytesOfText_sentinel hp, List.append_nil]

end Sys2Proof.Machine
end

section
/-! PROOF. What COMPRESS leaves when it succeeds (R340), command by command. -/

namespace Sys2Proof.Machine

/-! ### Successful commands -/

/-- A check that raises was passed, where the command ends without an error. -/
theorem ok_of_ite_raise {c : Prop} [Decidable c] {e : ErrKind} {s u : State} {r : Result}
    (h : (if c then raise e s else r) = .next u) (hok : u.errCode = 0) : ¬ c ∧ r = .next u := by
  split at h
  · obtain rfl := raise_next.mp h
    exact ((code_range e).1 hok).elim
  · next hc => exact ⟨hc, h⟩

/-- A command that ends with a check and a return has returned, where it ends without an error. -/
theorem commit_of_ite_raise {c : Prop} [Decidable c] {e : ErrKind} {s s' u : State}
    (h : (if c then raise e s else ret s') = .next u) (hok : u.errCode = 0) : ¬ c ∧ u = s'.commit :=
  (ok_of_ite_raise h hok).imp_right ret_next.mp

/-- A checked list that ends without an error has run its first command without one. -/
theorem runChecked_cons_ok {st : Stmt} {sts : List Stmt} {s t : State} (h : runChecked (st :: sts) s = .next t)
    (hok : t.errCode = 0) : ∃ u, st.run s = .next u ∧ u.errCode = 0 ∧ runChecked sts u = .next t := by
  obtain ⟨u, hu, ⟨hu', hrest⟩ | ⟨herr, rfl⟩⟩ := runChecked_cons_cases h
  · exact ⟨u, hu, hu', hrest⟩
  · exact (herr hok).elim

theorem not_ok_recordError {e : ErrKind} {s : State} : (s.recordError e).errCode ≠ 0 := (code_range e).1

/-! What each command of COMPRESS and its successful end leave, as far as the commands after it read it. -/

section
variable {s u : State}

theorem run_bytesToText_ok (h : Stmt.run { instr := .bytesToText } s = .next u) (hok : u.errCode = 0) :
    u.cfg = s.cfg ∧ u.phase = .idle ∧ u.txt = s.bytes.map letterOf ∧ s.bytes.length ≤ s.cfg.textCap := by
  obtain ⟨hroom, rfl⟩ := commit_of_ite_raise h hok
  exact ⟨rfl, rfl, rfl, Nat.not_lt.mp hroom⟩

theorem run_txtPut_ok {l : Word} (hidle : s.phase = .idle) (h : Stmt.run { instr := .txtPut, a := some l } s = .next u)
    (hok : u.errCode = 0) : u.cfg = s.cfg ∧ u.txt = s.txt ++ [l.toNat] ∧ s.txt.length < s.cfg.textCap := by
  have harg : State.argA { s with opa := l, lastCmd := encode .txtPut } = l := by
    simp only [State.argA, hidle]
  change execTxtPut { s with opa := l, lastCmd := encode .txtPut } = .next u at h
  rw [execTxtPut, harg] at h
  obtain ⟨-, rfl⟩ | ⟨-, h⟩ := withLetter_next h
  · exact (not_ok_recordError hok).elim
  · obtain ⟨hroom, rfl⟩ := commit_of_ite_raise h hok
    exact ⟨rfl, rfl, Nat.not_le.mp hroom⟩

theorem run_freqClr_ok (h : Stmt.run { instr := .freqClr } s = .next u) :
    u.cfg = s.cfg ∧ u.txt = s.txt ∧ u.freq = [] := by
  obtain rfl := ret_next.mp h
  exact ⟨rfl, rfl, rfl⟩

theorem run_freqCount_ok (h : Stmt.run { instr := .freqCount } s = .next u) (hok : u.errCode = 0) :
    u.cfg = s.cfg ∧ u.txt = s.txt ∧ u.freq = countText s.freq s.txt := by
  obtain ⟨-, rfl⟩ := commit_of_ite_raise h hok
  exact ⟨rfl, rfl, rfl⟩

theorem run_build_ok (h : Stmt.run { instr := .build } s = .next u) (hok : u.errCode = 0) :
    u.txt = s.txt ∧ u.ct = tableOf (huffman s.freq) ∧ longest (huffman s.freq) ≤ s.cfg.maxCwLen := by
  obtain ⟨hlongest, rfl⟩ := commit_of_ite_raise h hok
  exact ⟨rfl, rfl, Nat.not_lt.mp hlongest⟩

theorem run_obufClr_ok (h : Stmt.run { instr := .obufClr } s = .next u) :
    u.txt = s.txt ∧ u.ct = s.ct ∧ u.obuf = [] := by
  obtain rfl := ret_next.mp h
  exact ⟨rfl, rfl, rfl⟩

theorem run_packTable_ok (h : Stmt.run { instr := .packTable } s = .next u) (hok : u.errCode = 0) :
    u.txt = s.txt ∧ u.ct = s.ct ∧ u.obuf = s.obuf ++ packTable s.ct := by
  obtain ⟨-, h⟩ := ok_of_ite_raise h hok
  obtain ⟨-, rfl⟩ | ⟨-, h⟩ := oAppend_next h
  · exact (not_ok_recordError hok).elim
  · obtain rfl := ret_next.mp h
    exact ⟨rfl, rfl, rfl⟩

theorem run_encText_ok (h : Stmt.run { instr := .encText } s = .next u) (hok : u.errCode = 0) :
    ∃ w, encodeText s.ct s.txt = some w ∧ u.ct = s.ct ∧ u.obuf = s.obuf ++ w := by
  change execEncText _ = _ at h
  unfold execEncText at h
  split at h
  · obtain rfl := raise_next.mp h
    exact (not_ok_recordError hok).elim
  · next w hw =>
    obtain ⟨-, rfl⟩ | ⟨-, h⟩ := oAppend_next h
    · exact (not_ok_recordError hok).elim
    · obtain rfl := ret_next.mp h
      exact ⟨w, hw, rfl, rfl⟩

theorem run_packBytes_ok (h : Stmt.run { instr := .packBytes } s = .next u) (hok : u.errCode = 0) :
    u.ct = s.ct ∧ u.bytes = groupBytes (padBits s.obuf) := by
  obtain ⟨-, rfl⟩ := commit_of_ite_raise h hok
  exact ⟨rfl, rfl⟩

end

/-! ### COMPRESS -/

/-- The commands of COMPRESS after the text stands in TXT (R340). -/
def encodeStmts : List Stmt :=
  [{ instr := .freqClr }, { instr := .freqCount }, { instr := .build }, { instr := .obufClr }, { instr := .packTable },
    { instr := .encText }, { instr := .packBytes }]

/-- The state `t` holds the compressed form of a text: its table in CT, and in BYTES the padded header and payload
(R340). -/
structure Compressed (p : Params) (txt : List Nat) (t : State) : Prop where
  ct : t.ct = codeTable txt
  longestFits : longest (huffman (countText [] txt)) ≤ p.maxCwLen
  bytes : ∃ w, encodeText (codeTable txt) txt = some w
    ∧ t.bytes = groupBytes (padBits (packTable (codeTable txt) ++ w))

theorem runChecked_encodeStmts {s t : State} (h : runChecked encodeStmts s = .next t) (hok : t.errCode = 0) :
    Compressed s.cfg s.txt t := by
  obtain ⟨u1, h1, hok1, h⟩ := runChecked_cons_ok h hok
  obtain ⟨hcfg1, htxt1, hfreq1⟩ := run_freqClr_ok h1
  obtain ⟨u2, h2, hok2, h⟩ := runChecked_cons_ok h hok
  obtain ⟨hcfg2, htxt2, hfreq2⟩ := run_freqCount_ok h2 hok2
  obtain ⟨u3, h3, hok3, h⟩ := runChecked_cons_ok h hok
  obtain ⟨htxt3, hct3, hlongest⟩ := run_build_ok h3 hok3
  obtain ⟨u4, h4, hok4, h⟩ := runChecked_cons_ok h hok
  obtain ⟨htxt4, hct4, hobuf4⟩ := run_obufClr_ok h4
  obtain ⟨u5, h5, hok5, h⟩ := runChecked_cons_ok h hok
  obtain ⟨htxt5, hct5, hobuf5⟩ := run_packTable_ok h5 hok5
  obtain ⟨u6, h6, hok6, h⟩ := runChecked_cons_ok h hok
  obtain ⟨w, hw, hct6, hobuf6⟩ := run_encText_ok h6 hok6
  obtain ⟨u7, h7, hok7, h⟩ := runChecked_cons_ok h hok
  obtain ⟨hct7, hbytes⟩ := run_packBytes_ok h7 hok7
  cases h
  have htxt : u5.txt = s.txt := by rw [htxt5, htxt4, htxt3, htxt2, htxt1]
  have hfreq : u2.freq = countText [] s.txt := by rw [hfreq2, hfreq1, htxt1]
  have hct : u4.ct = codeTable s.txt := by rw [hct4, hct3, hfreq, codeTable]
  rw [hcfg2, hcfg1, hfreq] at hlongest
  rw [hct5, hct, htxt] at hw
  rw [hobuf4, List.nil_append, hct] at hobuf5
  rw [hobuf6, hobuf5] at hbytes
  exact ⟨by rw [hct7, hct6, hct5, hct], hlongest, w, hw, hbytes⟩

/-- COMPRESS, when it succeeds, leaves the compressed form of the buffer's text (R340). -/
theorem compress_ok {flag : Bool} {s t : State} (hp : s.cfg.legal = true) (h : compress flag s = .next t)
    (hok : t.errCode = 0) :
    Compressed s.cfg (textOf flag s.cfg.sentinel s.bytes) t
      ∧ (textOf flag s.cfg.sentinel s.bytes).length ≤ s.cfg.textCap := by
  obtain ⟨u, hu, huok, h⟩ := runChecked_cons_ok h hok
  obtain ⟨hcfg, hidle, htxt, hroom⟩ := run_bytesToText_ok hu huok
  cases flag with
  | false =>
    have hfinal := runChecked_encodeStmts h hok
    rw [hcfg, htxt] at hfinal
    simpa [textOf] using ⟨hfinal, hroom⟩
  | true =>
    obtain ⟨v, hv, hvok, h⟩ := runChecked_cons_ok h hok
    obtain ⟨hcfg', htxt', hroom'⟩ := run_txtPut_ok hidle hv hvok
    have hsentinel : (toWord s.cfg.sentinel).toNat = s.cfg.sentinel := by
      have hrange := (legal_ranges hp).sentinel.2
      have hmid := mid_range hp
      rw [Params.maxLetter] at hrange
      exact toNat_toWord (by omega)
    have hfinal := runChecked_encodeStmts h hok
    rw [hcfg', hcfg, htxt', htxt, hsentinel] at hfinal
    rw [hcfg, htxt] at hroom'
    exact ⟨hfinal, by simpa [textOf] using hroom'⟩

end Sys2Proof.Machine
end

section
/-! PROOF. What DECOMPRESS does with a buffer, command by command (R341), and the two theorems on compressed buffers:
the round trip (T-PROP-1) and truncation (R343). -/

namespace Sys2Proof.Machine

/-! ### The commands of DECOMPRESS, on the answers of the functions behind them -/

section
variable {s : State}

theorem execUnpackBytes_of_some {n p : Nat} (h : unaryRead (expandBytes s.bytes) 0 = some (n, p)) :
    execUnpackBytes s = ret { s with ibuf := expandBytes s.bytes, icur := p, result := toWord n } := by
  simp only [execUnpackBytes, h]

theorem execUnpackBytes_of_none (h : unaryRead (expandBytes s.bytes) 0 = none) :
    execUnpackBytes s = failAt .truncatedCode (expandBytes s.bytes).length { s with ibuf := expandBytes s.bytes } := by
  simp only [execUnpackBytes, h]
  rfl

theorem execUnpackTable_of_ok {es : List (Nat × Bits)} {next : Nat} (h : unpackTable s.ibuf s.icur = .ok (es, next))
    (hfits : ∀ e ∈ es, e.1 ≤ s.cfg.maxLetter ∧ e.2.length ≤ s.cfg.maxCwLen) :
    execUnpackTable s = ret { s with
      ct := tableOf es, ctOor := false, icur := next
      result := toWord (next - s.icur), result2 := toWord es.length } := by
  have hkept : storable s.cfg es = es := List.filter_eq_self.mpr fun e he => decide_eq_true (hfits e he).1
  have hlen : es.any (fun e => decide (s.cfg.maxCwLen < e.2.length)) = false := by
    simpa using fun l c he => (hfits (l, c) he).2
  have hoor : es.any (fun e => decide (s.cfg.maxLetter < e.1)) = false := by
    simpa using fun l c he => (hfits (l, c) he).1
  simp only [execUnpackTable, h, hkept, hlen, hoor, Bool.false_eq_true, if_false]

theorem execUnpackTable_of_error {e : ErrKind} (h : unpackTable s.ibuf s.icur = .error e) :
    execUnpackTable s = raise e s := by
  simp only [execUnpackTable, h]

theorem execTrieBuild_of_ok {t : Trie} (h : insertAll s.cfg emptyTrie s.ct = .ok t) (hoor : s.ctOor = false)
    (hfits : t.length ≤ s.cfg.nodeCap) :
    execTrieBuild s = ret { s with node := packTrie s.cfg t, result := toWord t.length } := by
  simp only [execTrieBuild, h, hoor, Bool.false_eq_true, if_false, storeTrie, Nat.not_lt.mpr hfits]

theorem execDecodeAll_of_some {out : List Nat} {j : Nat}
    (h : decodeAll (trieOf s.cfg s.node) s.ibuf s.icur = some (out, j)) (hfits : out.length ≤ s.cfg.textCap) :
    execDecodeAll s = ret { s with txt := out, icur := j, result := toWord out.length } := by
  simp only [execDecodeAll, h, Nat.not_lt.mpr hfits, if_false]

theorem execDecodeAll_of_none (h : decodeAll (trieOf s.cfg s.node) s.ibuf s.icur = none) :
    execDecodeAll s = raise .decodeFailure s := by
  simp only [execDecodeAll, h]

theorem execTextToBytes_of_fits (h : (bytesOfText s.cfg s.txt).length ≤ s.cfg.byteCap) :
    execTextToBytes s = ret { s with
      bytes := bytesOfText s.cfg s.txt
      result := toWord (bytesOfText s.cfg s.txt).length
      result2 := toWord (s.txt.length - (bytesOfText s.cfg s.txt).length) } := by
  simp only [execTextToBytes, Nat.not_lt.mpr h, if_false]

end

theorem runChecked_cons_of_ok {st : Stmt} {sts : List Stmt} {s u : State} (h : st.run s = .next u)
    (hok : u.errCode = 0) : runChecked (st :: sts) s = runChecked sts u := by
  simp only [runChecked, h, hok, if_true]

theorem runChecked_cons_of_failed {st : Stmt} {sts : List Stmt} {s u : State} (h : st.run s = .next u)
    (herr : u.errCode ≠ 0) : runChecked (st :: sts) s = .next u := by
  simp only [runChecked, h, herr, if_false]

/-! ### DECOMPRESS, stage by stage -/

/-- The commands of DECOMPRESS after UNPACK_BYTES (R341). -/
def parseStmts : List Stmt :=
  [{ instr := .unpackTable }, { instr := .trieBuild }, { instr := .decodeAll }, { instr := .textToBytes }]

/-- The commands of DECOMPRESS after TRIE_BUILD (R341). -/
def decodeStmts : List Stmt := [{ instr := .decodeAll }, { instr := .textToBytes }]

theorem decompress_of_no_marker {s : State} (h : unaryRead (expandBytes s.bytes) 0 = none) :
    ∃ v, decompress s = .next v ∧ v.errCode = 1 ∧ v.lastCmd = 0x63 :=
  ⟨_, runChecked_cons_of_failed (execUnpackBytes_of_none h) not_ok_recordError, rfl, rfl⟩

theorem decompress_of_marker {s : State} {n p : Nat} (h : unaryRead (expandBytes s.bytes) 0 = some (n, p)) :
    ∃ u, decompress s = runChecked parseStmts u ∧ u.cfg = s.cfg ∧ u.ibuf = expandBytes s.bytes ∧ u.icur = p :=
  ⟨_, runChecked_cons_of_ok (execUnpackBytes_of_some h) rfl, rfl, rfl, rfl⟩

section
variable {s : State}

theorem parseStmts_of_error {e : ErrKind} (h : unpackTable s.ibuf s.icur = .error e) :
    ∃ v, runChecked parseStmts s = .next v ∧ v.errCode = e.code ∧ v.lastCmd = 0x44 :=
  ⟨_, runChecked_cons_of_failed (execUnpackTable_of_error h) not_ok_recordError, rfl, rfl⟩

/-- Where the header of a decodable table is read, the trie that holds it is built (R341). -/
theorem parseStmts_of_ok {ct : Table Bits} {next : Nat} (hp : s.cfg.legal = true) (hct : Decodable s.cfg ct)
    (h : unpackTable s.ibuf s.icur = .ok (ct, next)) :
    ∃ u ps, runChecked parseStmts s = runChecked decodeStmts u ∧ u.cfg = s.cfg ∧ u.ibuf = s.ibuf ∧ u.icur = next
      ∧ TrieHolds (trieOf u.cfg u.node) ps ct := by
  obtain ⟨t, ps, hins, hholds, hfits⟩ := hct.exists_trie
  obtain ⟨v, hv, hok, hcfg, hibuf, hicur, hvct, hoor⟩ : ∃ v, Stmt.run { instr := .unpackTable } s = .next v
      ∧ v.errCode = 0 ∧ v.cfg = s.cfg ∧ v.ibuf = s.ibuf ∧ v.icur = next ∧ v.ct = ct ∧ v.ctOor = false :=
    ⟨_, execUnpackTable_of_ok h hct.fits, rfl, rfl, rfl, rfl, tableOf_of_rising hct.rising, rfl⟩
  rw [← hcfg] at hins hfits hp
  rw [← hvct] at hins
  refine ⟨_, ps, (runChecked_cons_of_ok hv hok).trans
    (runChecked_cons_of_ok (execTrieBuild_of_ok hins hoor hfits) rfl), hcfg, hibuf, hicur, ?_⟩
  have hback := trieOf_packTrie hp ((trieWf_emptyTrie _).insertAll hins) hfits
  exact hback.symm ▸ hholds

theorem decodeStmts_of_none (h : decodeAll (trieOf s.cfg s.node) s.ibuf s.icur = none) :
    ∃ v, runChecked decodeStmts s = .next v ∧ v.errCode = 7 ∧ v.lastCmd = 0x54 :=
  ⟨_, runChecked_cons_of_failed (execDecodeAll_of_none h) not_ok_recordError, rfl, rfl⟩

theorem decodeStmts_of_some {out : List Nat} {j : Nat}
    (h : decodeAll (trieOf s.cfg s.node) s.ibuf s.icur = some (out, j)) (htxt : out.length ≤ s.cfg.textCap)
    (hbytes : (bytesOfText s.cfg out).length ≤ s.cfg.byteCap) :
    ∃ v, runChecked decodeStmts s = .next v ∧ v.errCode = 0 ∧ v.bytes = bytesOfText s.cfg out := by
  obtain ⟨u, hu, hok, hcfg, hout⟩ : ∃ u, Stmt.run { instr := .decodeAll } s = .next u
      ∧ u.errCode = 0 ∧ u.cfg = s.cfg ∧ u.txt = out := ⟨_, execDecodeAll_of_some h htxt, rfl, rfl, rfl⟩
  rw [← hcfg, ← hout] at hbytes ⊢
  exact ⟨_, (runChecked_cons_of_ok hu hok).trans (runChecked_cons_of_ok (execTextToBytes_of_fits hbytes) rfl), rfl, rfl⟩

end

/-! ### Compressed buffers, whole or cut -/

/-- The errors a cut buffer can end with, each at its command (R343). -/
def CutError (v : State) : Prop :=
  (v.errCode = 1 ∧ (v.lastCmd = 0x63 ∨ v.lastCmd = 0x44)) ∨ (v.errCode = 2 ∧ v.lastCmd = 0x44)
    ∨ (v.errCode = 7 ∧ v.lastCmd = 0x54)

/-- A sequence begins with one unary code at most. -/
theorem unary_append_inj {m n : Nat} {x y : Bits} (h : unary m ++ x = unary n ++ y) : m = n ∧ x = y := by
  have hm := unaryRead_eq_some_iff.mpr ⟨x, List.drop_zero (l := unary m ++ x), rfl⟩
  have hn := unaryRead_eq_some_iff.mpr ⟨y, List.drop_zero (l := unary n ++ y), rfl⟩
  rw [h, hn] at hm
  obtain rfl : n = m := (Prod.mk.inj (Option.some.inj hm)).1
  exact ⟨rfl, List.append_cancel_left h⟩

/-- A sequence begins with one header at most (R821). -/
theorem packTable_append_inj {es es' : List (Nat × Bits)} {x y : Bits} (hes : EntriesFrom 0 es)
    (hes' : EntriesFrom 0 es') (h : packTable es ++ x = packTable es' ++ y) : es = es' ∧ x = y := by
  have hx := unpackTable_eq_ok_iff.mpr ⟨hes, x, List.drop_zero (l := packTable es ++ x), rfl⟩
  have hy := unpackTable_eq_ok_iff.mpr ⟨hes', y, List.drop_zero (l := packTable es' ++ y), rfl⟩
  rw [h, hy] at hx
  obtain rfl : es' = es := (Prod.mk.inj (Except.ok.inj hx)).1
  exact ⟨rfl, List.append_cancel_left h⟩

section
variable {s : State} {ct : Table Bits} {n : Nat} (hp : s.cfg.legal = true) (hct : Decodable s.cfg ct)
include hp hct

/-- A buffer that holds the marker and the header of a table is parsed up to what follows (R341). -/
theorem decompress_of_header {y : Bits} (hbuf : expandBytes s.bytes = unary n ++ (packTable ct ++ y)) :
    ∃ u ps, decompress s = runChecked decodeStmts u ∧ u.cfg = s.cfg ∧ TrieHolds (trieOf u.cfg u.node) ps ct
      ∧ u.icur ≤ u.ibuf.length ∧ u.ibuf.drop u.icur = y := by
  obtain ⟨v, hv, hcfg, hibuf, hicur⟩ := decompress_of_marker (unaryRead_eq_some_iff.mpr ⟨_, hbuf, rfl⟩)
  have hheader : v.ibuf.drop v.icur = packTable ct ++ y := by rw [hibuf, hicur]; exact drop_add_of_drop_eq hbuf
  rw [← hcfg] at hp hct
  obtain ⟨u, ps, hu, hcfg', hibuf', hicur', hholds⟩ :=
    parseStmts_of_ok hp hct (unpackTable_eq_ok_iff.mpr ⟨hct.entriesFrom, y, hheader, rfl⟩)
  refine ⟨u, ps, hv.trans hu, hcfg'.trans hcfg, hholds, ?_, ?_⟩
  · rw [hicur', hibuf', hibuf, hicur, hbuf]
    simp only [List.length_append]
    omega
  · rw [hibuf', hicur']
    exact drop_add_of_drop_eq hheader

/-- A buffer that holds the marker, the header of a table and the payload of a text decompresses to the bytes of the
text (R341). -/
theorem decompress_of_payload {out : List Nat} {y : Bits}
    (hbuf : expandBytes s.bytes = unary n ++ (packTable ct ++ y)) (hout : encodeText ct out = some y)
    (htxt : out.length ≤ s.cfg.textCap) (hbytes : (bytesOfText s.cfg out).length ≤ s.cfg.byteCap) :
    ∃ v, decompress s = .next v ∧ v.errCode = 0 ∧ v.bytes = bytesOfText s.cfg out := by
  obtain ⟨u, ps, hu, hcfg, hholds, hend, rfl⟩ := decompress_of_header hp hct hbuf
  have hdecode := (hholds.decodeAll_eq_some_iff hct.rising hct.codeword_ne hend).mpr ⟨hout, rfl⟩
  rw [← hcfg] at htxt hbytes ⊢
  rw [hu]
  exact decodeStmts_of_some hdecode htxt hbytes

/-- A beginning of a buffer that holds the marker, the header of a table and a payload ends with one of the errors of
R343, or holds the marker, the header and the payload of a text. -/
theorem decompress_of_cut {w rest : Bits} (hbuf : expandBytes s.bytes ++ rest = unary n ++ (packTable ct ++ w)) :
    (∃ v, decompress s = .next v ∧ CutError v)
    ∨ ∃ y out, expandBytes s.bytes = unary n ++ (packTable ct ++ y) ∧ encodeText ct out = some y := by
  cases hmarker : unaryRead (expandBytes s.bytes) 0 with
  | none =>
    obtain ⟨v, hv, herr, hcmd⟩ := decompress_of_no_marker hmarker
    exact .inl ⟨v, hv, .inl ⟨herr, .inl hcmd⟩⟩
  | some r =>
    obtain ⟨v, hv, -, hibuf, hicur⟩ := decompress_of_marker hmarker
    obtain ⟨x, hx, hnext⟩ := unaryRead_eq_some_iff.mp hmarker
    rw [List.drop_zero] at hx
    rw [hx, List.append_assoc] at hbuf
    obtain ⟨hn, hrest⟩ := unary_append_inj hbuf
    have hdrop : v.ibuf.drop v.icur = x := by
      rw [hibuf, hicur, hnext]
      exact drop_add_of_drop_eq hx
    cases hheader : unpackTable v.ibuf v.icur with
    | error e =>
      obtain ⟨u, hu, herr, hcmd⟩ := parseStmts_of_error hheader
      refine .inl ⟨u, hv.trans hu, ?_⟩
      obtain rfl | rfl := unpackTable_error hheader
      · exact .inl ⟨herr, .inr hcmd⟩
      · exact .inr (.inl ⟨herr, hcmd⟩)
    | ok r' =>
      obtain ⟨hentries, y, hy, -⟩ := unpackTable_eq_ok_iff.mp hheader
      rw [← hdrop, hy, List.append_assoc] at hrest
      obtain ⟨hct', -⟩ := packTable_append_inj hentries hct.entriesFrom hrest
      have hwhole : expandBytes s.bytes = unary n ++ (packTable ct ++ y) := by rw [hx, hn, ← hdrop, hy, hct']
      obtain ⟨u, ps, hu, -, hholds, hend, rfl⟩ := decompress_of_header hp hct hwhole
      cases hdecode : decodeAll (trieOf u.cfg u.node) u.ibuf u.icur with
      | none =>
        obtain ⟨v', hv', herr, hcmd⟩ := decodeStmts_of_none hdecode
        exact .inl ⟨v', hu.trans hv', .inr (.inr ⟨herr, hcmd⟩)⟩
      | some r'' =>
        have hout := ((hholds.decodeAll_eq_some_iff hct.rising hct.codeword_ne hend).mp hdecode).1
        exact .inr ⟨_, r''.1, hwhole, hout⟩

end

/-! ### The theorems on compressed buffers -/

theorem expandBytes_append (bs bs' : List Byte) : expandBytes (bs ++ bs') = expandBytes bs ++ expandBytes bs' :=
  List.flatMap_append

/-- The bytes of a padded sequence are its bits (R1001, R1002). -/
theorem expandBytes_groupBytes_padBits (x : Bits) : expandBytes (groupBytes (padBits x)) = padBits x := by
  have hlen := length_padBits x
  rw [padAmount] at hlen
  exact expandBytes_groupBytes (n := (padBits x).length / 8) (by omega)

/-- What COMPRESS leaves: the marker, the header of a decodable table and the payload of the text (R340). -/
theorem compress_decodable {flag : Bool} {s t : State} (hs : s.Inv) (hnodes : 256 ≤ s.cfg.nodeCap)
    (h : compress flag s = .next t) (hok : t.errCode = 0) :
    ∃ n w, Decodable s.cfg t.ct ∧ encodeText t.ct (textOf flag s.cfg.sentinel s.bytes) = some w
      ∧ expandBytes t.bytes = unary n ++ (packTable t.ct ++ w)
      ∧ (textOf flag s.cfg.sentinel s.bytes).length ≤ s.cfg.textCap := by
  obtain ⟨⟨hct, hlongest, w, hw, hbytes⟩, htxt⟩ := compress_ok hs.cfgLegal h hok
  have hsentinel := (legal_ranges hs.cfgLegal).sentinel
  have hdecodable := codeTable_decodable (fun _ hl => mem_textOf hl)
    (fun l hl => by have := mem_textOf hl; omega) hlongest hnodes
  rw [hct, hbytes, expandBytes_groupBytes_padBits]
  exact ⟨_, w, hdecodable, hw, rfl, htxt⟩

/-- Settles O59: the buffer holds the marker, the header and the payload of the text, and the text's bytes are the input
(R340, R341, T-PROP-1). -/
theorem decompressOfCompressGivesTheBytesBack : Obligations.DecompressOfCompressGivesTheBytesBack := by
  intro flag s t u hs _ hnodes h hok hu _ hcfg hbytes
  obtain ⟨n, w, hct, hw, hbuf, htxt⟩ := compress_decodable hs hnodes h hok
  have hback := bytesOfText_textOf hs.cfgLegal flag s.bytes
  rw [← hbytes] at hbuf
  rw [← hcfg] at hct hback htxt hw
  have hroom : s.bytes.length ≤ u.cfg.byteCap := hcfg ▸ hs.bytesFit
  obtain ⟨v, hv, hvok, hvbytes⟩ := decompress_of_payload hu.cfgLegal hct hbuf hw htxt (by rwa [hback])
  exact ⟨v, hv, hvok, hvbytes.trans hback⟩

/-- A text's ending without a byte is empty or the sentinel alone (R340, R606). -/
theorem textOf_suffix_without_bytes {p : Params} {flag : Bool} {bytes : List Byte} {out rest : List Nat}
    (h : textOf flag p.sentinel bytes = out ++ rest) (hne : rest ≠ []) (hrest : bytesOfText p rest = []) :
    flag = true ∧ rest = [p.sentinel] := by
  have hsuffix : rest <:+ (if flag then [p.sentinel] else []) := by
    obtain ⟨a, -, htail⟩ | ⟨c, hc, rfl⟩ := List.append_eq_append_iff.mp h
    · exact ⟨a, htail.symm⟩
    · obtain ⟨b, b', -, -, rfl⟩ := List.map_eq_append_iff.mp hc
      rw [bytesOfText_append, bytesOfText_letters, List.append_eq_nil_iff] at hrest
      rw [hrest.1]
      exact List.suffix_refl _
  cases flag with
  | false => exact (hne (List.suffix_nil.mp hsuffix)).elim
  | true =>
    obtain hnil | hrest := List.suffix_cons_iff.mp hsuffix
    · exact ⟨rfl, hnil⟩
    · exact (hne (List.suffix_nil.mp hrest)).elim

/-- The payload of one letter is its codeword. -/
theorem encodeText_singleton {ct : Table Bits} {l : Nat} {w : Bits} (h : encodeText ct [l] = some w) :
    tableGet ct l = some w := by
  obtain ⟨c, w', hc, hnil, rfl⟩ := encodeText_cons_eq_some_iff.mp h
  cases hnil
  rw [hc, List.append_nil]

/-- Settles O60: a cut buffer ends with an error or holds the payload of a text that begins the input's; what was cut
off is then the payload of the rest of that text (R343). -/
theorem truncatedBuffersGiveAnErrorOrAPrefix : Obligations.TruncatedBuffersGiveAnErrorOrAPrefix := by
  intro flag s t u k hs _ hnodes h hok hk hkt hu _ hcfg hbytes
  obtain ⟨n, w, hct, hw, hbuf, htxt⟩ := compress_decodable hs hnodes h hok
  have hback := bytesOfText_textOf hs.cfgLegal flag s.bytes
  rw [← List.take_append_drop (t.bytes.length - k) t.bytes, ← hbytes, expandBytes_append] at hbuf
  generalize hlost : expandBytes (t.bytes.drop (t.bytes.length - k)) = lost at hbuf
  have hlen : lost.length = 8 * k := by
    rw [← hlost, length_expandBytes, List.length_drop]
    omega
  rw [← hcfg] at hct hback htxt hw ⊢
  obtain ⟨v, hv, herr⟩ | ⟨y, out, hy, hout⟩ := decompress_of_cut hu.cfgLegal hct hbuf
  · refine ⟨v, hv, ?_⟩
    obtain herr | herr | herr := herr
    · exact .inl herr
    · exact .inr (.inl herr)
    · exact .inr (.inr (.inl herr))
  · rw [hy, List.append_assoc, List.append_assoc] at hbuf
    obtain rfl := List.append_cancel_left (List.append_cancel_left hbuf)
    obtain ⟨rest, z, hsplit, hz, hlost'⟩ := encodeText_prefix hct.rising hct.codeword_ne hct.eq_of_prefix hout hw
      (List.prefix_append y lost)
    obtain rfl := List.append_cancel_left hlost'
    have hne : rest ≠ [] := by
      rintro rfl
      cases hz
      rw [List.length_nil] at hlen
      omega
    have hsplit' : s.bytes = bytesOfText u.cfg out ++ bytesOfText u.cfg rest := by
      rw [← bytesOfText_append, ← hsplit, hback]
    have hroom : s.bytes.length ≤ u.cfg.byteCap := hcfg ▸ hs.bytesFit
    rw [hsplit, List.length_append] at htxt
    rw [hsplit', List.length_append] at hroom
    obtain ⟨v, hv, hvok, hvbytes⟩ :=
      decompress_of_payload hu.cfgLegal hct hy hout (Nat.le_of_add_right_le htxt) (Nat.le_of_add_right_le hroom)
    have hwhole (heq : v.bytes = s.bytes) : flag = true ∧ rest = [u.cfg.sentinel] := by
      refine textOf_suffix_without_bytes hsplit hne ?_
      rw [hvbytes, hsplit'] at heq
      exact List.self_eq_append_right.mp heq
    refine ⟨v, hv, .inr (.inr (.inr ⟨hvok, ⟨_, hvbytes ▸ hsplit'.symm⟩, fun hflag heq => ?_, fun _ heq => ?_⟩))⟩
    · rw [(hwhole heq).1] at hflag
      cases hflag
    · rw [(hwhole heq).2] at hz
      exact ⟨_, encodeText_singleton hz, hlen⟩

end Sys2Proof.Machine
end

section
/-! PROOF. The control and host-buffer commands, and the text, table and trie commands of the same shape (R410 to R422, R602
to R604, R610, R800, R910, R940): each runs its checks in order, then returns its staged writes. -/

namespace Sys2Proof.Machine

/-! ### The operand and capacity checks: where each raises, and where the rest of the command runs (R302, R36) -/

section
variable {s : State} {n l : Nat}

theorem withNbits_of_le {k : Nat → Result} (h : n ≤ 32) : withNbits s n k = k n := if_pos (decide_eq_true h)

theorem withNbits_of_gt {k : Nat → Result} (h : 32 < n) : withNbits s n k = raise .badOperand s :=
  if_neg (by simpa [nbitsOk] using h)

theorem withLetter_of_le {k : Nat → Result} (h : l ≤ s.cfg.maxLetter) : withLetter s l k = k l :=
  if_pos (decide_eq_true h)

theorem withLetter_of_gt {k : Nat → Result} (h : s.cfg.maxLetter < l) : withLetter s l k = raise .letterOutOfRange s :=
  if_neg (by simpa [letterInRange] using h)

theorem withItem_of_some {α : Type} {buf : List α} {x : α} {k : α → Result} (h : buf[n]? = some x) :
    withItem s buf n k = k x := by
  simp only [withItem, h]

theorem withItem_of_length_le {α : Type} {buf : List α} {k : α → Result} (h : buf.length ≤ n) :
    withItem s buf n k = raise .badOperand s := by
  simp only [withItem, List.getElem?_eq_none h]

theorem oAppend_of_fits {x : Bits} {k : State → Result} (h : s.obuf.length + x.length ≤ s.cfg.bitCap) :
    oAppend x s k = k { s with obuf := s.obuf ++ x } := if_neg (Nat.not_lt.mpr h)

theorem oAppend_of_full {x : Bits} {k : State → Result} (h : s.cfg.bitCap < s.obuf.length + x.length) :
    oAppend x s k = raise .capacityExceeded s := if_pos h

end

/-- `succeeds_of_ret`, with the frame of the staged writes evaluated on the spot. -/
theorem Succeeds.of_ret {i : Instr} {s s' : State} {fs : List Field} {P : State → Prop} (h : exec i s = ret s')
    (hP : P s'.commit) (hframe : AgreeOutside fs s s' := by simp [agreeOutside_iff]) : Succeeds i s fs P :=
  succeeds_of_ret h hframe hP

/-! ### Bits through the register port (R36, R206) -/

/-- Bits read into a register: the last one read is bit 0, and the register's other bits are 0 (R414, R417). -/
theorem getLsbD_toWord_slice {x : Bits} {p n : Nat} (hn : n ≤ 32) (hroom : n ≤ x.length - p) (i : Nat) :
    (toWord (bitsVal (slice x p (p + n)))).getLsbD i = (decide (i < n) && x.getD (p + (n - 1 - i)) false) := by
  have hlen : (slice x p (p + n)).length = n := by
    rw [length_slice]
    omega
  rw [toWord, BitVec.getLsbD_ofNat]
  by_cases hi : i < n
  · have hbit := testBit_bitsVal (x := slice x p (p + n)) (j := n - 1 - i) (by omega)
    rw [hlen, getD_slice x p (by omega), Nat.sub_sub_self (by omega)] at hbit
    simp [hbit, hi, hi.trans_le hn]
  · have hlt : bitsVal (slice x p (p + n)) < 2 ^ i :=
      (bitsVal_lt _).trans_le (Nat.pow_le_pow_right (by omega) (by omega))
    simp [Nat.testBit_lt_two_pow hlt, hi]

/-! ### The statements

Each clause follows its command's own text: the checks passed, then the one that raises or the return. The equation
`execX s = _` names the command that `exec` selects. -/

/-- Settles O3: what is appended is `BitsOf(OPA, n)`, after the check of `n` and the check of the room (R413, R416). -/
theorem bitPutsAppendLowBitsHighestFirst : Obligations.BitPutsAppendLowBitsHighestFirst := by
  refine ⟨by decide, by decide, fun s => ⟨?_, ?_, ?_, ?_, ?_⟩⟩
  · exact fun hn => ⟨failsWith_of_raise (withNbits_of_gt hn : execObufPut s = _),
      failsWith_of_raise (withNbits_of_gt hn : execIbufPut s = _)⟩
  · exact fun hn hfull => failsWith_of_raise
      ((withNbits_of_le hn).trans (oAppend_of_full (by rwa [length_bitsOf])) : execObufPut s = _)
  · exact fun hn hfits => .of_ret
      ((withNbits_of_le hn).trans (oAppend_of_fits (by rwa [length_bitsOf])) : execObufPut s = _)
      ⟨bitsOf s.argA s.argB.toNat, rfl, length_bitsOf _ _, getElem?_bitsOf _ _⟩
  · exact fun hn hfull => failsWith_of_raise ((withNbits_of_le hn).trans (if_pos hfull) : execIbufPut s = _)
  · exact fun hn hfits => .of_ret ((withNbits_of_le hn).trans (if_neg (Nat.not_lt.mpr hfits)) : execIbufPut s = _)
      ⟨bitsOf s.argA s.argB.toNat, rfl, length_bitsOf _ _, getElem?_bitsOf _ _⟩

/-- Settles O4: past both checks RESULT is the value of the slice, whose bits are those of OBUF (R414). -/
theorem obufGetReadsMsbFirst : Obligations.ObufGetReadsMsbFirst := by
  refine ⟨by decide, fun s => ⟨?_, ?_, ?_⟩⟩
  · exact fun hn => failsWith_of_raise (withNbits_of_gt hn : execObufGet s = _)
  · exact fun hn hend => failsWith_of_raise ((withNbits_of_le hn).trans (if_pos hend) : execObufGet s = _)
  · exact fun hn hroom => .of_ret ((withNbits_of_le hn).trans (if_neg (Nat.not_lt.mpr hroom)) : execObufGet s = _)
      (getLsbD_toWord_slice hn (Nat.le_sub_of_add_le' hroom))

/-- Settles O5: IBUF_GET reads the slice at the cursor as OBUF_GET does, SEEK checks the position before it sets the cursor,
and XFER checks nothing (R417, R418, R419). -/
theorem cursorCommands : Obligations.CursorCommands := by
  refine ⟨by decide, by decide, by decide, fun s => ⟨?_, ?_, ?_, ?_, ?_, ?_⟩⟩
  · exact fun hn => failsWith_of_raise (withNbits_of_gt hn : execIbufGet s = _)
  · exact fun hn hcut => failsWith_of_raise ((withNbits_of_le hn).trans (if_pos hcut) : execIbufGet s = _)
  · exact fun hn hroom => .of_ret ((withNbits_of_le hn).trans (if_neg (Nat.not_lt.mpr hroom)) : execIbufGet s = _)
      ⟨rfl, getLsbD_toWord_slice hn hroom⟩
  · exact fun hpast => failsWith_of_raise (if_neg (by simpa [posOk] using hpast) : execSeek s = _)
  · exact fun hpos => .of_ret (if_pos (decide_eq_true hpos) : execSeek s = _) rfl
  · exact .of_ret (rfl : execXfer s = _) ⟨rfl, rfl⟩

/-- Settles O1: none of these commands has a check, so each returns its staged writes from every state. -/
theorem nopAndTheClearCommands : Obligations.NopAndTheClearCommands := by
  refine ⟨by decide, by decide, by decide, by decide, by decide, by decide, by decide, by decide, fun s =>
    ⟨?nop, ?obufClr, ?ibufClr, ?byteClr, ?txtClr, ?freqClr, ?ctClr, ?trieClr⟩⟩
  case nop => exact .of_ret rfl trivial
  case obufClr => exact .of_ret rfl rfl
  case ibufClr => exact .of_ret rfl ⟨rfl, rfl⟩
  case byteClr => exact .of_ret rfl rfl
  case txtClr => exact .of_ret rfl rfl
  case freqClr => exact .of_ret rfl fun _ => rfl
  case ctClr => exact .of_ret rfl ⟨fun _ => rfl, rfl⟩
  case trieClr => exact .of_ret rfl rfl

/-- Settles O6: the operand's check stands first, the check of the room second, and what is appended is the operand
(R421, R603). -/
theorem bytePutAndTxtPutAppendOneItem : Obligations.BytePutAndTxtPutAppendOneItem := by
  refine ⟨by decide, by decide, fun s => ⟨?_, ?_, ?_, ?_, ?_, ?_⟩⟩
  · exact fun hbyte => failsWith_of_raise (if_neg (by simpa [byteOk] using hbyte) : execBytePut s = _)
  · exact fun hbyte hfull => failsWith_of_raise
      ((if_pos (decide_eq_true hbyte)).trans (if_pos hfull.ge) : execBytePut s = _)
  · exact fun hbyte hroom => .of_ret
      ((if_pos (decide_eq_true hbyte)).trans (if_neg (Nat.not_le.mpr hroom)) : execBytePut s = _)
      ⟨BitVec.ofNat 8 s.argA.toNat, (BitVec.toNat_ofNat ..).trans (Nat.mod_eq_of_lt (Nat.lt_succ_of_le hbyte)), rfl⟩
  · exact fun hletter => failsWith_of_raise (withLetter_of_gt hletter : execTxtPut s = _)
  · exact fun hletter hfull => failsWith_of_raise
      ((withLetter_of_le hletter).trans (if_pos hfull.ge) : execTxtPut s = _)
  · exact fun hletter hroom => .of_ret
      ((withLetter_of_le hletter).trans (if_neg (Nat.not_le.mpr hroom)) : execTxtPut s = _) rfl

/-- Settles O7: an index within the length finds its item, which goes to the result registers (R422, R604, R940). -/
theorem indexedReads : Obligations.IndexedReads := by
  refine ⟨by decide, by decide, by decide, fun s => ⟨?_, ?_, ?_, ?_, ?_, ?_⟩⟩
  · exact fun hpast => failsWith_of_raise (withItem_of_length_le hpast : execByteGet s = _)
  · exact fun b hb => .of_ret (withItem_of_some hb : execByteGet s = _) (toNat_toWord (b.isLt.trans (by decide)))
  · exact fun hpast => failsWith_of_raise (withItem_of_length_le hpast : execTxtGet s = _)
  · exact fun l hl => .of_ret (withItem_of_some hl : execTxtGet s = _) rfl
  · exact fun hpast => failsWith_of_raise (withItem_of_length_le hpast : execNodeGet s = _)
  · exact fun n hn => .of_ret (withItem_of_some hn : execNodeGet s = _) ⟨rfl, rfl⟩

end Sys2Proof.Machine
end

section
/-! PROOF. The universal integer codec (R504, R510 to R513) and UNPAD (R1011): the encoders append the codes, and the
decoders answer by what stands at the cursor. -/

namespace Sys2Proof.Machine

/-! ### The codes -/

/-- A number of `k` binary digits has bit length `k` (R32). -/
theorem bitLen_eq_of_range {n k : Nat} (hk : 1 ≤ k) (hlow : 2 ^ (k - 1) ≤ n) (hhigh : n < 2 ^ k) : bitLen n = k := by
  have hn : n ≠ 0 := (Nat.two_pow_pos _).trans_le hlow |>.ne'
  have hlog : Nat.log2 n = k - 1 := (Nat.log2_eq_iff hn).mpr ⟨hlow, by rwa [Nat.sub_add_cancel hk]⟩
  rw [bitLen, hlog, Nat.sub_add_cancel hk]

theorem bitsVal_cons_pos (x : Bits) : 1 ≤ bitsVal (true :: x) := by
  rw [bitsVal_cons, Bool.toNat_true, Nat.one_mul]
  exact (Nat.two_pow_pos _).trans_le (Nat.le_add_right _ _)

/-- The gamma code of a number that is given by its digits (R501). -/
theorem gamma_bitsVal_cons (x : Bits) : gamma (bitsVal (true :: x)) = List.replicate x.length false ++ true :: x := by
  have hdigits := binBits_bitsVal (true :: x)
  rw [List.length_cons] at hdigits
  rw [gamma, bitLen_bitsVal_cons, hdigits, Nat.add_sub_cancel]

/-! ### The readers -/

section
variable {y x : Bits} {p z : Nat}

/-- Ones to the end of the sequence hold no unary code (R502). -/
theorem unaryRead_of_ones (h : y.drop p = List.replicate z true) : unaryRead y p = none := by
  have hrun : runLength true (y.drop p) = z := h ▸ runLength_replicate_all true z
  have hlen := congrArg List.length h
  rw [List.length_drop, List.length_replicate] at hlen
  simp only [unaryRead, hrun]
  exact if_neg (by omega)

/-- Zeros, then as many digits as the zeros announce, are read as the value of the digits (R503). -/
theorem gammaRead_of_digits {rest : Bits} (h : y.drop p = List.replicate x.length false ++ (true :: x ++ rest)) :
    gammaRead y p = some (bitsVal (true :: x), x.length + 1, p + (2 * x.length + 1)) := by
  rw [← List.append_assoc, ← gamma_bitsVal_cons] at h
  rw [gammaRead_of_gamma (bitsVal_cons_pos x) h, length_gamma, bitLen_bitsVal_cons]
  rfl

/-- Zeros, then fewer digits than the zeros announce, are no gamma code (R503). -/
theorem gammaRead_of_short (h : y.drop p = List.replicate z false ++ x) (hhead : x.head? ≠ some false)
    (hshort : x.length ≤ z) : gammaRead y p = none := by
  have hrun : runLength false (y.drop p) = z := by
    rw [h]
    cases x with
    | nil => rw [List.append_nil, runLength_replicate_all]
    | cons b x => exact runLength_replicate false b z x (by simpa using hhead)
  have hlen := congrArg List.length h
  rw [List.length_drop, List.length_append, List.length_replicate] at hlen
  simp only [gammaRead, hrun]
  exact if_pos (by omega)

end

/-- Settles O11: the readers answer where a code stands, and it stands after what comes before it (R504). -/
theorem universalCodesAreSelfDelimiting : Obligations.UniversalCodesAreSelfDelimiting := by
  have hdrop (q c t : Bits) : (q ++ c ++ t).drop q.length = c ++ t := by rw [List.append_assoc, List.drop_left]
  refine ⟨fun q t n => ?_, fun q t n hn => ?_⟩
  · exact unaryRead_eq_some_iff.mpr ⟨t, hdrop q _ t, by rw [length_unary, Nat.add_assoc]⟩
  · have hpos : 1 ≤ bitLen n := Nat.le_add_left 1 _
    rw [gammaRead_of_gamma hn (hdrop q _ t), length_gamma, Nat.add_sub_assoc (by omega)]

/-! ### The commands, on the answers of the readers -/

section
variable {s : State} {n v k next : Nat}

/-- The check that stands first in UNARY_ENC is implied by the check of the room (R510). -/
theorem execUnaryEnc_eq (s : State) : execUnaryEnc s = oAppend (unary s.argA.toNat) s ret := by
  by_cases hn : s.cfg.bitCap ≤ s.argA.toNat
  · rw [oAppend_of_full (by rw [length_unary]; omega)]
    exact if_pos hn
  · exact if_neg hn

theorem execGammaEnc_of_ne_zero (h : s.argA.toNat ≠ 0) : execGammaEnc s = oAppend (gamma s.argA.toNat) s ret := if_neg h

theorem execUnaryDec_of_some (h : unaryRead s.ibuf s.icur = some (n, next)) :
    execUnaryDec s = ret { s with result := toWord n, icur := next } := by
  simp only [execUnaryDec, h]

theorem execUnaryDec_of_none (h : unaryRead s.ibuf s.icur = none) :
    execUnaryDec s = failAt .truncatedCode s.ibuf.length s := by
  simp only [execUnaryDec, h]

/-- UNPAD reads the marker as UNARY_DEC reads a code (R1011). -/
theorem execUnpad_eq (s : State) : execUnpad s = execUnaryDec s := rfl

theorem execGammaDec_of_some (h : gammaRead s.ibuf s.icur = some (v, k, next)) :
    execGammaDec s =
      if 32 < k then raise .capacityExceeded s else ret { s with result := toWord v, icur := next } := by
  simp only [execGammaDec, h]

theorem execGammaDec_of_none (h : gammaRead s.ibuf s.icur = none) : execGammaDec s = raise .truncatedCode s := by
  simp only [execGammaDec, h]

end

/-- A command that fails with `ICUR <- p` keeps everything else (R34, R1111). -/
theorem failsKeeping_of_failAt {i : Instr} {s : State} {e : ErrKind} {p : Nat} (h : exec i s = failAt e p s) :
    FailsKeeping i s e [.icur] fun t => t.icur = p :=
  failsKeeping_of_raise (s' := { s with icur := p }) h (by simp [agreeOutside_iff]) rfl rfl

/-- The digits of a value in a register: the last one is bit 0, and the register's other bits are 0 (R32, R36). -/
theorem getLsbD_toWord_bitsVal {x : Bits} (h : x.length ≤ 32) (i : Nat) :
    (toWord (bitsVal x)).getLsbD i = (decide (i < x.length) && x.getD (x.length - 1 - i) false) := by
  have hslice := getLsbD_toWord_slice (x := x) (p := 0) h (Nat.le_refl _) i
  rwa [Nat.zero_add, Nat.zero_add, slice, List.drop_zero, Nat.sub_zero, List.take_length] at hslice

/-- Settles O8: both encoders append the code after the check of the room; GAMMA_ENC checks its operand first, and the code
of a number of `k` digits has `2k - 1` bits (R510, R512). -/
theorem unaryEncAndGammaEncAppendTheCode : Obligations.UnaryEncAndGammaEncAppendTheCode := by
  refine ⟨by decide, by decide, fun s => ⟨?_, ?_, ?_, fun k hk hlow hhigh => ?_⟩⟩
  · exact fun hfull => failsWith_of_raise
      ((execUnaryEnc_eq s).trans (oAppend_of_full (by rwa [length_unary, ← Nat.add_assoc])))
  · exact fun hfits => .of_ret
      ((execUnaryEnc_eq s).trans (oAppend_of_fits (by rwa [length_unary, ← Nat.add_assoc]))) rfl
  · exact fun hzero => failsWith_of_raise (if_pos hzero : execGammaEnc s = _)
  · have hne : s.argA.toNat ≠ 0 := (Nat.two_pow_pos _).trans_le hlow |>.ne'
    have hbits : bitLen s.argA.toNat = k := bitLen_eq_of_range hk hlow hhigh
    refine ⟨fun hfull => ?_, fun hfits => ?_⟩
    · exact failsWith_of_raise
        ((execGammaEnc_of_ne_zero hne).trans (oAppend_of_full (by rwa [length_gamma, hbits])))
    · refine .of_ret ((execGammaEnc_of_ne_zero hne).trans (oAppend_of_fits (by rwa [length_gamma, hbits])))
        ⟨bitsOf s.argA k, ?_, length_bitsOf _ _, getElem?_bitsOf _ _⟩
      rw [bitsOf, ← hbits]
      rfl

/-- Settles O9: the reader answers exactly where a unary code stands, and a code that lies within IBUF has a number that
fits a register (R511, R1011). -/
theorem unaryDecAndUnpadReadAtTheCursor : Obligations.UnaryDecAndUnpadReadAtTheCursor := by
  refine ⟨by decide, by decide, fun s => ⟨fun n rest hcode => ?_, fun n hones => ?_⟩⟩
  · have hread : unaryRead s.ibuf s.icur = some (n, s.icur + n + 1) :=
      unaryRead_eq_some_iff.mpr ⟨rest, by rw [hcode, unary, List.append_assoc, List.singleton_append],
        by rw [length_unary, Nat.add_assoc]⟩
    have hdec := execUnaryDec_of_some hread
    have hfits (hs : s.Inv) : n < 2 ^ 32 := by
      have hend := (unaryRead_range hread).2
      have hroom := hs.ibufFits
      have hcap := (legal_ranges hs.cfgLegal).bitCap
      omega
    exact ⟨.of_ret hdec ⟨rfl, fun hs => toNat_toWord (hfits hs), rfl⟩,
      .of_ret ((execUnpad_eq s).trans hdec) ⟨rfl, rfl⟩⟩
  · have hdec := execUnaryDec_of_none (unaryRead_of_ones hones)
    exact ⟨failsKeeping_of_failAt hdec, failsKeeping_of_failAt ((execUnpad_eq s).trans hdec)⟩

/-- Settles O10: the reader answers where the digits are whole, whatever their number; the check of 32 bits comes after it
(R503, R513). -/
theorem gammaDecReadsAtTheCursor : Obligations.GammaDecReadsAtTheCursor := by
  refine ⟨by decide, fun s => ⟨?_, fun z hzeros => ?_, fun z x hcut hshort => ?_⟩⟩
  · rintro _ x rest hcode rfl
    have hdec := execGammaDec_of_some (gammaRead_of_digits hcode)
    refine ⟨fun hwidth => ?_, fun hwide => ?_⟩
    · refine .of_ret (hdec.trans (if_neg (Nat.not_lt.mpr hwidth))) ⟨rfl, fun i => ?_⟩
      have hdigit := getLsbD_toWord_bitsVal (x := true :: x) hwidth i
      rwa [List.length_cons, Nat.add_sub_cancel, decide_eq_decide.mpr Nat.lt_succ_iff] at hdigit
    · exact failsWith_of_raise (hdec.trans (if_pos hwide))
  · rw [← List.append_nil (List.replicate z false)] at hzeros
    exact failsWith_of_raise (execGammaDec_of_none (gammaRead_of_short hzeros (by simp) (Nat.zero_le z)))
  · exact failsWith_of_raise (execGammaDec_of_none (gammaRead_of_short hcut (by simp) hshort))

end Sys2Proof.Machine
end

section
/-! PROOF. The alphabet mapping and the frequency counter (R600, R605, R606, R611 to R613): the letters of a text up to 255
are its bytes, and a table of counts in canonical form is told by what `countGet` reads. -/

namespace Sys2Proof.Machine

/-! ### The bytes of a text -/

/-- The bytes of a text are its letters up to 255, in order (R600, R606). -/
theorem map_toNat_bytesOfText (p : Params) (txt : List Nat) :
    (bytesOfText p txt).map BitVec.toNat = txt.filter (· ≤ 255) := by
  have hback : ∀ l ∈ txt.filter (· ≤ 255), (byteOf l).toNat = l := fun l hl =>
    have hle : l ≤ 255 := by simpa using (List.mem_filter.mp hl).2
    (BitVec.toNat_ofNat ..).trans (Nat.mod_eq_of_lt (Nat.lt_succ_of_le hle))
  calc (bytesOfText p txt).map BitVec.toNat
    _ = (txt.filter (· ≤ 255)).map fun l => (byteOf l).toNat := List.map_map
    _ = txt.filter (· ≤ 255) := (List.map_congr_left hback).trans (List.map_id' _)

theorem length_bytesOfText (p : Params) (txt : List Nat) :
    (bytesOfText p txt).length = (txt.filter (· ≤ 255)).length := by
  rw [← map_toNat_bytesOfText p, List.length_map]

/-- The letters that are no bytes are the ones dropped (R606). -/
theorem length_sub_length_bytesOfText (p : Params) (txt : List Nat) :
    txt.length - (bytesOfText p txt).length = (txt.filter (255 < ·)).length := by
  have hsplit := List.length_eq_length_filter_add (l := txt) (· ≤ 255)
  simp only [← decide_not, Nat.not_le] at hsplit
  rw [length_bytesOfText, hsplit, Nat.add_sub_cancel_left]

/-- Settles O16: each command checks the room and then stores the converted items; the bytes of a text are its letters up
to 255, so the letters beyond them are what is left of its length (R605, R606). -/
theorem bytesAndTextConversions : Obligations.BytesAndTextConversions := by
  refine ⟨by decide, by decide, fun s => ⟨?_, ?_, ?_, ?_⟩⟩
  · exact fun hfull => failsWith_of_raise (if_pos hfull : execBytesToText s = _)
  · exact fun hfits => .of_ret (if_neg (Nat.not_lt.mpr hfits) : execBytesToText s = _) ⟨rfl, rfl⟩
  · intro hfull
    rw [← length_bytesOfText s.cfg] at hfull
    exact failsWith_of_raise (if_pos hfull : execTextToBytes s = _)
  · intro hfits
    rw [← length_bytesOfText s.cfg] at hfits
    exact .of_ret (execTextToBytes_of_fits hfits) ⟨map_toNat_bytesOfText s.cfg s.txt,
      congrArg toWord (length_bytesOfText s.cfg s.txt), congrArg toWord (length_sub_length_bytesOfText s.cfg s.txt)⟩

/-! ### Tables of counts in canonical form -/

section
variable {f : Table Nat}

theorem countsWf_iff : countsWf f = true ↔ keysRising f = true ∧ ∀ e ∈ f, 0 < e.2 := by simp [countsWf]

/-- A table of counts lists exactly the letters with a non-zero count, each with its count (R155). -/
theorem mem_iff_countGet (h : countsWf f = true) {l c : Nat} : (l, c) ∈ f ↔ 0 < c ∧ countGet f l = c := by
  obtain ⟨hrising, hpos⟩ := countsWf_iff.mp h
  have hentry := tableGet_eq_some_iff f hrising l
  rw [countGet]
  cases hget : tableGet f l with
  | none =>
    have hunlisted : (l, c) ∉ f := fun hmem => by simpa [hget] using (hentry c).mpr hmem
    exact iff_of_false hunlisted fun ⟨hc, hzero⟩ => hc.ne hzero
  | some d =>
    have hd : 0 < d := hpos _ ((hentry d).mp hget)
    rw [← hentry, hget, Option.some_inj, Option.getD_some]
    exact ⟨fun hdc => ⟨hdc ▸ hd, hdc⟩, fun hdc => hdc.2⟩

theorem mem_keys_iff_countGet_pos (h : countsWf f = true) {l : Nat} : l ∈ f.map Prod.fst ↔ 0 < countGet f l := by
  simp [mem_iff_countGet h]

/-- A table of counts lists a count above a bound exactly when some letter's count is above it. -/
theorem any_gt_iff_countGet_gt (h : countsWf f = true) {m : Nat} :
    f.any (fun e => decide (m < e.2)) = true ↔ ∃ l, m < countGet f l := by
  simp only [List.any_eq_true, decide_eq_true_eq]
  constructor
  · rintro ⟨⟨l, c⟩, hmem, hgt⟩
    exact ⟨l, ((mem_iff_countGet h).mp hmem).2.symm ▸ hgt⟩
  · rintro ⟨l, hgt⟩
    exact ⟨(l, countGet f l), (mem_iff_countGet h).mpr ⟨Nat.zero_lt_of_lt hgt, rfl⟩, hgt⟩

theorem countP_pos_eq_length (h : countsWf f = true) : f.countP (fun e => decide (0 < e.2)) = f.length :=
  List.countP_eq_length.mpr fun e he => decide_eq_true ((countsWf_iff.mp h).2 e he)

/-- Counting a text adds to each count the number of times its letter stands in the text (R611). -/
theorem countGet_countText (h : countsWf f = true) (txt : List Nat) (l : Nat) :
    countGet (countText f txt) l = countGet f l + txt.count l := by
  induction txt generalizing f with
  | nil => rfl
  | cons a txt ih =>
    have hstep : countText f (a :: txt) = countText (countSet f a (countGet f a + 1)) txt := rfl
    rw [hstep, ih (countSet_keepsWf f a _ h)]
    obtain rfl | hl := eq_or_ne l a
    · rw [countGet_countSet_self f l _ h, List.count_cons_self]
      omega
    · rw [countGet_countSet_other f a l _ hl, List.count_cons_of_ne hl.symm]

end

/-! ### The commands of the frequency counter -/

/-- Settles O17: the letter's check stands first; past it FREQ_SET writes one count of a table in canonical form, and
FREQ_GET reads one (R612, R613). -/
theorem freqSetAndGetOneCount : Obligations.FreqSetAndGetOneCount := by
  refine ⟨by decide, by decide, fun s hwf => ⟨fun hletter => ⟨?_, ?_⟩, fun hletter => ⟨?_, ?_⟩⟩⟩
  · exact failsWith_of_raise (withLetter_of_gt hletter : execFreqSet s = _)
  · exact failsWith_of_raise (withLetter_of_gt hletter : execFreqGet s = _)
  · exact .of_ret (withLetter_of_le hletter : execFreqSet s = _)
      ⟨countGet_countSet_self _ _ _ ((memory_wf_iff s).mp hwf).1, fun l hl => countGet_countSet_other _ _ l _ hl⟩
  · exact .of_ret (withLetter_of_le hletter : execFreqGet s = _) rfl

/-- Settles O18: the counted table is in canonical form and reads as the sums, so the check of its entries is a check of
every letter's sum, and its length is the number of letters with a non-zero count (R611). -/
theorem freqCountAddsTheOccurrences : Obligations.FreqCountAddsTheOccurrences := by
  refine ⟨by decide, fun s hwf => ?_⟩
  have hfreq : countsWf s.freq = true := ((memory_wf_iff s).mp hwf).1
  have hcounted : countsWf (countText s.freq s.txt) = true := countText_keepsWf _ _ hfreq
  have hsums := countGet_countText hfreq s.txt
  have hover := any_gt_iff_countGet_gt hcounted (m := s.cfg.maxCount)
  simp only [hsums] at hover
  refine ⟨fun hgt => ?_, fun hle => ?_⟩
  · exact failsWith_of_raise (if_pos (hover.mpr hgt) : execFreqCount s = _)
  · have hfits : ¬ ∃ l, s.cfg.maxCount < countGet s.freq l + s.txt.count l :=
      not_exists.mpr fun l => Nat.not_lt.mpr (hle l)
    refine .of_ret (if_neg (mt hover.mp hfits) : execFreqCount s = _)
      ⟨hsums, (countText s.freq s.txt).map Prod.fst, ?_, fun l => mem_keys_iff_countGet_pos hcounted, ?_⟩
    · exact keys_nodup (countsWf_iff.mp hcounted).1
    · rw [List.length_map, ← countP_pos_eq_length hcounted]
      rfl

end Sys2Proof.Machine
end

section
/-! PROOF. The Huffman tree builder (R700 to R707, R709, R710) and BUILD (R720): what its table guarantees, how it is
stored, and how it is made. -/

namespace Sys2Proof.Machine

/-! ### Full trees: branches, lengths and the Kraft equality -/

section
variable {t : List (Nat × Bits)} (h : FullTree t)
include h

/-- Beside each branch of a path stands the other branch of its node (R704). -/
theorem FullTree.exists_sibling {e : Nat × Bits} (he : e ∈ t) {x : Bits} {b : Bool} (hpre : x ++ [b] <+: e.2) :
    ∃ d ∈ t, x ++ [!b] <+: d.2 := by
  induction h generalizing e x with
  | leaf l =>
    obtain rfl := List.mem_singleton.mp he
    simp at hpre
  | @fork t u ht hu iht ihu =>
    obtain ⟨a, e', he', rfl⟩ := mem_fork.mp he
    simp only [mem_fork]
    cases x with
    | nil =>
      have hne : (if !b then u else t) ≠ [] := by
        cases b with
        | false => exact hu.ne_nil
        | true => exact ht.ne_nil
      obtain ⟨d, hd⟩ := List.exists_mem_of_ne_nil _ hne
      exact ⟨_, ⟨!b, d, hd, rfl⟩, by simp⟩
    | cons a' x =>
      obtain ⟨rfl, hpre'⟩ := List.cons_prefix_cons.mp hpre
      have hside : ∃ d ∈ if a' then u else t, x ++ [!b] <+: d.2 := by
        cases a' with
        | false => exact iht he' hpre'
        | true => exact ihu he' hpre'
      obtain ⟨d, hd, hsib⟩ := hside
      exact ⟨_, ⟨a', d, hd, rfl⟩, List.cons_prefix_cons.mpr ⟨rfl, hsib⟩⟩

/-- A path is shorter than the tree has leaves (R709). -/
theorem FullTree.length_lt {e : Nat × Bits} (he : e ∈ t) : e.2.length < t.length := by
  induction h generalizing e with
  | leaf l => simp [List.mem_singleton.mp he]
  | fork ht hu iht ihu =>
    have htpos := List.length_pos_of_ne_nil ht.ne_nil
    have hupos := List.length_pos_of_ne_nil hu.ne_nil
    obtain ⟨b, d, hd, rfl⟩ := mem_fork.mp he
    rw [List.length_append, length_prefixBit, length_prefixBit, List.length_cons]
    cases b with
    | false =>
      have := iht hd
      omega
    | true =>
      have := ihu hd
      omega

/-- The Kraft equality, scaled by a power of two with an exponent from the number of leaves on: both halves of a fork
fill half of it (R704). -/
theorem FullTree.kraft {n : Nat} (hn : t.length ≤ n) : (t.map fun e => 2 ^ (n - e.2.length)).sum = 2 ^ n := by
  induction h generalizing n with
  | leaf l => simp
  | @fork t u ht hu iht ihu =>
    have htpos := List.length_pos_of_ne_nil ht.ne_nil
    have hupos := List.length_pos_of_ne_nil hu.ne_nil
    rw [List.length_append, length_prefixBit, length_prefixBit] at hn
    obtain ⟨m, rfl⟩ : ∃ m, n = m + 1 := ⟨n - 1, by omega⟩
    have hhalf (b : Bool) (v : List (Nat × Bits)) :
        ((prefixBit b v).map fun e => 2 ^ (m + 1 - e.2.length)).sum = (v.map fun e => 2 ^ (m - e.2.length)).sum := by
      simp [prefixBit, Function.comp_def]
    rw [List.map_append, List.sum_append, hhalf, hhalf, iht (by omega), ihu (by omega), pow_succ, Nat.mul_two]

end

/-! ### The guarantees of the builder's table -/

/-- The participating letters stand in ascending order (R700). -/
theorem participants_rising {f : Table Nat} (h : keysRising f = true) : keysRising (participants f) = true := by
  rw [keysRising, decide_eq_true_eq] at h ⊢
  exact h.sublist (List.filter_sublist.map Prod.fst)

/-- No letter has two entries in the builder's table (R707). -/
theorem huffman_letters_nodup {f : Table Nat} (h : keysRising f = true) : ((huffman f).map Prod.fst).Nodup :=
  (huffman_letters f).nodup_iff.mpr (keys_nodup (participants_rising h))

theorem huffman_prefixFree {f : Table Nat} (h : keysRising f = true) : PrefixFree ((huffman f).map Prod.snd) := by
  have hkeys : (huffman f).Pairwise (fun e d => e.1 ≠ d.1) := List.pairwise_map.mp (huffman_letters_nodup h)
  refine List.pairwise_map.mpr (hkeys.imp_of_mem fun he hd hne => ⟨fun hpre => ?_, fun hpre => ?_⟩)
  · exact hne (congrArg Prod.fst (huffman_eq_of_prefix he hd hpre))
  · exact hne (congrArg Prod.fst (huffman_eq_of_prefix hd he hpre)).symm

/-- From two letters on the builder's table is a full tree (R704). -/
theorem huffman_fullTree {f : Table Nat} (h : 2 ≤ (huffman f).length) : FullTree (huffman f) := by
  obtain hf | ⟨l, hf⟩ | hf := huffman_cases f
  · simp [hf] at h
  · simp [hf] at h
  · exact hf

/-- A full tree of one leaf has the empty path, which the builder's table has not: one letter is coded by `0` (R706). -/
theorem huffman_singleton {f : Table Nat} (h : (huffman f).length = 1) : ∃ l, huffman f = [(l, [false])] := by
  obtain hf | hf | hf := huffman_cases f
  · simp [hf] at h
  · exact hf
  · obtain ⟨e, he⟩ := List.exists_mem_of_ne_nil _ hf.ne_nil
    have hshort := hf.length_lt he
    have hpos := (mem_huffman he).2
    omega

/-- Settles O21: the table holds each participating letter once, and from two letters on it is a full tree
(R704 to R707, R709). -/
theorem huffmanTableIsCompleteAndPrefixFree : Obligations.HuffmanTableIsCompleteAndPrefixFree := by
  intro f hf
  refine ⟨huffman_letters f, fun e he => List.ne_nil_of_length_pos (mem_huffman he).2, huffman_prefixFree hf,
    fun hmany => ?_, huffman_singleton⟩
  have htree := huffman_fullTree hmany
  exact ⟨fun e he x b hpre => htree.exists_sibling he hpre, fun e he => Nat.le_pred_of_lt (htree.length_lt he),
    htree.kraft le_rfl⟩

/-! ### The table as BUILD stores it -/

/-- A list of entries with no letter twice is stored whole. -/
theorem tableGet_tableOf_of_mem {α : Type} {es : List (Nat × α)} (h : (es.map Prod.fst).Nodup) {e : Nat × α}
    (he : e ∈ es) : tableGet (tableOf es) e.1 = some e.2 := by
  induction es using List.reverseRecOn with
  | nil => cases he
  | append_singleton es a ih =>
    have hstep : tableOf (es ++ [a]) = tableSet (tableOf es) a.1 a.2 := List.foldl_concat ..
    rw [List.map_append, List.nodup_append] at h
    obtain ⟨hes, -, hnew⟩ := h
    rw [hstep]
    rcases List.mem_append.mp he with he | he
    · have hne : e.1 ≠ a.1 := hnew _ (List.mem_map_of_mem he) _ (by simp)
      rw [tableGet_tableSet_other _ _ _ _ hne, ih hes he]
    · rw [List.mem_singleton.mp he, tableGet_tableSet_self]

theorem tableGet_tableOf_eq_some_iff {α : Type} {es : List (Nat × α)} (h : (es.map Prod.fst).Nodup) {l : Nat} {x : α} :
    tableGet (tableOf es) l = some x ↔ (l, x) ∈ es :=
  ⟨fun hget => mem_tableOf ((tableGet_eq_some_iff _ (tableOf_rising es) l x).mp hget),
    fun hmem => tableGet_tableOf_of_mem h hmem⟩

/-- The longest length is 0 or the length of an entry. -/
theorem longest_attained (t : List (Nat × Bits)) : longest t = 0 ∨ ∃ e ∈ t, e.2.length = longest t := by
  induction t using List.reverseRecOn with
  | nil => exact .inl rfl
  | append_singleton t a ih =>
    have hstep : longest (t ++ [a]) = max (longest t) a.2.length := List.foldl_concat ..
    rw [hstep]
    rcases Nat.le_total a.2.length (longest t) with hle | hle
    · rw [Nat.max_eq_left hle]
      exact ih.imp_right fun ⟨e, he, hlen⟩ => ⟨e, List.mem_append_left _ he, hlen⟩
    · rw [Nat.max_eq_right hle]
      exact .inr ⟨a, by simp, rfl⟩

theorem lt_longest_iff {t : List (Nat × Bits)} {m : Nat} : m < longest t ↔ ∃ e ∈ t, m < e.2.length := by
  constructor
  · intro hlt
    obtain ⟨e, he, hlen⟩ := (longest_attained t).resolve_left (by omega)
    exact ⟨e, he, hlen ▸ hlt⟩
  · rintro ⟨e, he, hlt⟩
    exact hlt.trans_le (length_le_longest he)

/-- Settles O19: the check of the longest codeword is a check of every codeword, and the stored table reads as the
builder's entries, since no letter has two (R720). -/
theorem buildStoresTheHuffmanTable : Obligations.BuildStoresTheHuffmanTable := by
  refine ⟨by decide, fun s hwf => ⟨fun hlong => ?_, fun hfits => ?_⟩⟩
  · exact failsWith_of_raise (if_pos (lt_longest_iff.mpr hlong) : execBuild s = _)
  · have hrising : keysRising s.freq = true := (countsWf_iff.mp ((memory_wf_iff s).mp hwf).1).1
    have hshort : ¬ s.cfg.maxCwLen < longest (huffman s.freq) := fun hlt =>
      have ⟨e, he, hlong⟩ := lt_longest_iff.mp hlt
      absurd (hfits e he) (Nat.not_le.mpr hlong)
    exact .of_ret (if_neg hshort : execBuild s = _)
      ⟨rfl, fun l c => tableGet_tableOf_eq_some_iff (huffman_letters_nodup hrising), rfl,
        longest (huffman s.freq), rfl, fun e he => length_le_longest he, longest_attained _⟩

/-! ### The selection (R702) -/

/-- What `takeMin` takes is not after what it leaves, by weight and then sequence number (R702, R710). -/
theorem takeMin_le {q q' : List MergeNode} {m : MergeNode} (h : takeMin q = some (m, q')) :
    ∀ y ∈ q', m.weight < y.weight ∨ (m.weight = y.weight ∧ m.seq ≤ y.seq) := by
  induction q generalizing m q' with
  | nil => cases h
  | cons x q ih =>
    rw [takeMin] at h
    split at h
    · cases h
      simp
    · next m' q'' hsome =>
      have hleast := ih hsome
      split at h
      · next hbefore =>
        cases h
        simp only [selectedBefore, Bool.or_eq_true, Bool.and_eq_true, decide_eq_true_eq] at hbefore
        exact List.forall_mem_cons.mpr ⟨by omega, hleast⟩
      · next hbefore =>
        cases h
        simp only [selectedBefore, Bool.or_eq_true, Bool.and_eq_true, decide_eq_true_eq] at hbefore
        intro y hy
        rcases List.mem_cons.mp ((takeMin_perm hsome).mem_iff.mp hy) with rfl | hy
        · omega
        · have := hleast y hy
          omega

/-- Where no two nodes share a sequence number, what `takeMin` takes stands before all it leaves (R702). -/
theorem takeMin_lt {q q' : List MergeNode} {m : MergeNode} (h : takeMin q = some (m, q'))
    (hseq : (q.map MergeNode.seq).Nodup) :
    ∀ y ∈ q', m.weight < y.weight ∨ (m.weight = y.weight ∧ m.seq < y.seq) := by
  intro y hy
  have hnodup := ((takeMin_perm h).map MergeNode.seq).nodup_iff.mp hseq
  have hne : m.seq ≠ y.seq := fun heq => (List.nodup_cons.mp hnodup).1 (heq ▸ List.mem_map_of_mem hy)
  have := takeMin_le h y hy
  omega

/-! ### The merge run (R704, R710) -/

/-- The sequence numbers of a queue: no two nodes share one, and all are below the next (R701, R704). -/
def SeqsBelow (next : Nat) (q : List MergeNode) : Prop := (q.map MergeNode.seq).Nodup ∧ ∀ x ∈ q, x.seq < next

theorem SeqsBelow.perm {next : Nat} {q q' : List MergeNode} (h : SeqsBelow next q) (hperm : q.Perm q') :
    SeqsBelow next q' :=
  ⟨(hperm.map _).nodup_iff.mp h.1, fun x hx => h.2 x (hperm.mem_iff.mpr hx)⟩

/-- A merge, which takes the next number, keeps the numbers apart (R703, R704). -/
theorem SeqsBelow.merge {next : Nat} {x y : MergeNode} {q : List MergeNode} (h : SeqsBelow next (x :: y :: q)) :
    SeqsBelow (next + 1) (mergeNodes x y next :: q) := by
  obtain ⟨hnodup, hlt⟩ := h
  simp only [List.map_cons, List.nodup_cons, List.forall_mem_cons] at hnodup hlt
  have hfresh : next ∉ q.map MergeNode.seq := fun hmem => by
    obtain ⟨z, hz, heq⟩ := List.mem_map.mp hmem
    exact (hlt.2.2 z hz).ne heq
  exact ⟨List.nodup_cons.mpr ⟨hfresh, hnodup.2.2⟩,
    List.forall_mem_cons.mpr ⟨Nat.lt_succ_self next, fun z hz => (hlt.2.2 z hz).trans (Nat.lt_succ_self next)⟩⟩

/-- The merge loop is the merge run of its queue (R710). -/
theorem mergeLoop_mergeRun {k next : Nat} {q : List MergeNode} (hlen : q.length = k + 1) (hseq : SeqsBelow next q) :
    MergeRun next q (mergeLoop k next q) := by
  induction k generalizing next q with
  | zero =>
    obtain ⟨x, rfl⟩ := List.length_eq_one_iff.mp hlen
    simpa [mergeLoop] using MergeRun.last next x
  | succ k ih =>
    rw [mergeLoop]
    split
    · next hnone => simp [takeMin_eq_none_iff.mp hnone] at hlen
    · next x q1 hx =>
      have hperm := takeMin_perm hx
      have hlen1 := hperm.length_eq
      rw [List.length_cons] at hlen1
      split
      · next hnone =>
        rw [takeMin_eq_none_iff.mp hnone, List.length_nil] at hlen1
        omega
      · next y q2 hy =>
        have hperm1 := takeMin_perm hy
        have hlen2 := hperm1.length_eq
        rw [List.length_cons] at hlen2
        have hseq1 : (q1.map MergeNode.seq).Nodup := (List.nodup_cons.mp (hseq.perm hperm).1).2
        have hall := hperm.trans (hperm1.cons x)
        exact .merge next q q2 x y _ hall (takeMin_lt hx hseq.1 y (hperm1.mem_iff.mpr List.mem_cons_self))
          (takeMin_lt hy hseq1) (ih (by rw [List.length_cons]; omega) (hseq.perm hall).merge)

/-! ### The seeds (R700, R701) -/

theorem seedNodes_eq (i : Nat) (ps : List (Nat × Nat)) :
    seedNodes i ps = (ps.zipIdx i).map (fun x => { weight := x.1.2, seq := x.2, table := [(x.1.1, [])] }) := by
  induction ps generalizing i with
  | nil => rfl
  | cons a ps ih => rw [seedNodes, ih, List.zipIdx_cons, List.map_cons]

theorem map_seq_seedNodes (i : Nat) (ps : List (Nat × Nat)) :
    (seedNodes i ps).map MergeNode.seq = List.range' i ps.length := by
  induction ps generalizing i with
  | nil => rfl
  | cons a ps ih => rw [seedNodes, List.map_cons, ih, List.length_cons, List.range'_succ]

theorem seedNodes_seqsBelow (ps : List (Nat × Nat)) : SeqsBelow ps.length (seedNodes 0 ps) := by
  have hseqs := map_seq_seedNodes 0 ps
  refine ⟨hseqs ▸ List.nodup_range', fun x hx => ?_⟩
  have hmem : x.seq ∈ List.range' 0 ps.length := hseqs ▸ List.mem_map_of_mem hx
  simpa using hmem

theorem mem_participants_iff {f : Table Nat} (h : keysRising f = true) {l c : Nat} :
    (l, c) ∈ participants f ↔ 0 < c ∧ countGet f l = c := by
  rw [participants, List.mem_filter, ← tableGet_eq_some_iff f h, decide_eq_true_eq, and_comm, countGet]
  refine and_congr_right fun hc => ?_
  cases tableGet f l with
  | none => simpa using hc.ne
  | some d => simp

/-- Tables in canonical order with the same entries are equal. -/
theorem eq_of_keysRising {α : Type} {t u : Table α} (ht : keysRising t = true) (hu : keysRising u = true)
    (h : ∀ e, e ∈ t ↔ e ∈ u) : t = u := by
  have hperm : t.Perm u :=
    (List.perm_ext_iff_of_nodup (keys_nodup ht).of_map (keys_nodup hu).of_map).mpr h
  rw [keysRising, decide_eq_true_eq, List.pairwise_map] at ht hu
  exact hperm.eq_of_pairwise (fun _ _ _ _ hlt hgt => absurd hlt (Nat.lt_asymm hgt)) ht hu

/-- From two letters on the builder is the merge run of the seeds (R701, R704, R710). -/
theorem huffman_mergeRun {f : Table Nat} (h : 2 ≤ (participants f).length) :
    MergeRun (participants f).length (seedNodes 0 (participants f)) (huffman f) := by
  unfold huffman
  split
  · next hps => simp [hps] at h
  · next l c hps => simp [hps] at h
  · next p ps _ hps =>
    rw [hps]
    exact mergeLoop_mergeRun (length_seedNodes 0 (p :: ps)) (seedNodes_seqsBelow (p :: ps))

/-- Settles O20: the letters are the participants of FREQ, whose seeds the loop merges, and `takeMin` leaves no node
before the one it takes (R700 to R704, R710). -/
theorem selectionTakesTheLeastWeightThenSequence : Obligations.SelectionTakesTheLeastWeightThenSequence := by
  refine ⟨fun f ps hf hps hmem => ?_, fun q => ⟨takeMin_eq_none_iff, fun m q' h => ⟨takeMin_perm h, takeMin_le h⟩⟩⟩
  obtain rfl : participants f = ps :=
    eq_of_keysRising (participants_rising hf) hps fun ⟨l, c⟩ => (mem_participants_iff hf).trans (hmem l c).symm
  refine ⟨fun hnone => ?_, fun l c hone => ?_, fun hmany => ?_⟩
  · rw [huffman, hnone]
  · rw [huffman, hone]
  · exact seedNodes_eq 0 _ ▸ huffman_mergeRun hmany

end Sys2Proof.Machine
end

section
/-! PROOF. The code table commands, the header and the payload encoder (R801, R802, R810, R811, R820, R821, R830, R840,
R841): the header in R810's own terms, where the parser succeeds and where it is cut off, and the commands' checks. -/

namespace Sys2Proof.Machine

/-! ### The header (R810, R821) -/

/-- Settles O25: the parser answers where a packed header stands, and the header stands after what comes before it
(R821). -/
theorem unpackOfPackGivesTheTableBack : Obligations.UnpackOfPackGivesTheTableBack := by
  intro t q x hrising hne
  refine unpackTable_eq_ok_iff.mpr ⟨⟨hrising, fun e he => ⟨Nat.zero_le _, hne e he⟩⟩, x, ?_, rfl⟩
  rw [List.append_assoc, List.drop_left]

/-- The entry loop of PACK_TABLE in the terms of `headerBody`, with `base - 1` as the letter before the first (R810). -/
theorem packEntries_eq_flatMap (base : Nat) (es : List (Nat × Bits)) :
    packEntries base es = (es.zip (((base : Int) - 1) :: es.map (fun e => (e.1 : Int)))).flatMap
      (fun x => gamma ((x.1.1 : Int) - x.2).toNat ++ gamma x.1.2.length ++ x.1.2) := by
  induction es generalizing base with
  | nil => rfl
  | cons e es ih =>
    have hdelta : ((e.1 : Int) - ((base : Int) - 1)).toNat = e.1 + 1 - base := by omega
    have hnext : ((e.1 + 1 : Nat) : Int) - 1 = e.1 := by omega
    rw [packEntries, ih, hnext, List.map_cons, List.zip_cons_cons, List.flatMap_cons, hdelta]

theorem packEntries_zero_eq_headerBody (es : List (Nat × Bits)) : packEntries 0 es = headerBody es :=
  packEntries_eq_flatMap 0 es

theorem packTable_eq_headerBody (es : List (Nat × Bits)) : packTable es = gamma (es.length + 1) ++ headerBody es := by
  rw [packTable, packEntries_zero_eq_headerBody]

theorem entriesFrom_zero_iff {es : List (Nat × Bits)} : EntriesFrom 0 es ↔ HeaderEntries es := by
  simp [EntriesFrom, HeaderEntries]

/-- Settles O23: CT_OOR is checked first, then the room; the entry loop is `headerBody`, and a table in canonical form
lists what it reads (R810, R811). -/
theorem packTableAppendsTheHeader : Obligations.PackTableAppendsTheHeader := by
  refine ⟨by decide, fun s => ⟨fun hoor => ?_, fun hoor hfull => ?_, fun hoor hfits => ?_,
    packTable_eq_headerBody s.ct, fun hwf => ?_⟩⟩
  · exact failsWith_of_raise (if_pos hoor : execPackTable s = _)
  · exact failsWith_of_raise ((if_neg (by simp [hoor])).trans (oAppend_of_full hfull) : execPackTable s = _)
  · exact .of_ret ((if_neg (by simp [hoor])).trans (oAppend_of_fits hfits) : execPackTable s = _) ⟨rfl, rfl⟩
  · have hrising := ((memory_wf_iff s).mp hwf).2
    exact ⟨by simpa [keysRising] using hrising, fun l c => (tableGet_eq_some_iff s.ct hrising l c).symm⟩

/-! ### Where the parser fails (R820) -/

/-- `GammaRead` fails exactly where no whole gamma code stands (R503). -/
theorem gammaRead_eq_none_iff {y : Bits} {p : Nat} : gammaRead y p = none ↔ GammaCut (y.drop p) := by
  constructor
  · rintro h ⟨n, x, hn, hx⟩
    rw [gammaRead_of_gamma hn hx] at h
    cases h
  · intro hcut
    cases h : gammaRead y p with
    | none => rfl
    | some r =>
      obtain ⟨hn, -, x, hx, -⟩ := gamma_of_gammaRead (n := r.1) (k := r.2.1) (next := r.2.2) h
      exact (hcut ⟨r.1, x, hn, hx⟩).elim

/-- An entry of a header is cut off: in the gamma code of its delta, in that of its length, or in its codeword (R820). -/
def EntryCut (x : Bits) : Prop :=
  GammaCut x
    ∨ (∃ d y, 1 ≤ d ∧ x = gamma d ++ y ∧ GammaCut y)
    ∨ ∃ d len y, 1 ≤ d ∧ 1 ≤ len ∧ x = gamma d ++ gamma len ++ y ∧ y.length < len

/-- What is not cut off begins with a whole entry. -/
theorem entryCut_or_entry (x : Bits) :
    EntryCut x ∨ ∃ d c y, 1 ≤ d ∧ c ≠ [] ∧ x = gamma d ++ (gamma c.length ++ (c ++ y)) := by
  by_cases hdelta : GammaCut x
  · exact .inl (.inl hdelta)
  obtain ⟨d, y, hd, rfl⟩ := not_not.mp hdelta
  by_cases hlength : GammaCut y
  · exact .inl (.inr (.inl ⟨d, y, hd, rfl, hlength⟩))
  obtain ⟨len, z, hlen, rfl⟩ := not_not.mp hlength
  by_cases hroom : z.length < len
  · exact .inl (.inr (.inr ⟨d, len, z, hd, hlen, (List.append_assoc ..).symm, hroom⟩))
  · have htake : (z.take len).length = len := by rw [List.length_take]; omega
    refine .inr ⟨d, z.take len, z.drop len, hd, List.ne_nil_of_length_pos (by omega), ?_⟩
    rw [htake, List.take_append_drop]

section
variable {y : Bits} {n base p q : Nat}

theorem unpackEntries_succ_of_entryCut (h : EntryCut (y.drop q)) :
    unpackEntries y (n + 1) base q = .error .truncatedHeader := by
  obtain hdelta | ⟨d, x, hd, hx, hlength⟩ | ⟨d, len, x, hd, hlen, hx, hshort⟩ := h
  · simp only [unpackEntries, gammaRead_eq_none_iff.mpr hdelta]
  · rw [← drop_add_of_drop_eq hx] at hlength
    simp only [unpackEntries, gammaRead_of_gamma hd hx, gammaRead_eq_none_iff.mpr hlength]
  · rw [List.append_assoc] at hx
    have hx' := drop_add_of_drop_eq hx
    have hroom := congrArg List.length (drop_add_of_drop_eq hx')
    rw [List.length_drop] at hroom
    simp only [unpackEntries, gammaRead_of_gamma hd hx, gammaRead_of_gamma hlen hx', hroom, hshort, if_true]

/-- Past a whole entry the loop fails as it does on the rest. -/
theorem unpackEntries_succ_eq_error_iff {d : Nat} {c x : Bits} {e : ErrKind} (hd : 1 ≤ d) (hc : c ≠ [])
    (hx : y.drop q = gamma d ++ (gamma c.length ++ (c ++ x))) :
    unpackEntries y (n + 1) base q = .error e ↔
      unpackEntries y n (base + d) (q + (gamma d).length + (gamma c.length).length + c.length) = .error e := by
  have hlength := drop_add_of_drop_eq hx
  have hroom := congrArg List.length (drop_add_of_drop_eq hlength)
  rw [List.length_drop, List.length_append] at hroom
  have hletter : base + d - 1 + 1 = base + d := by omega
  simp only [unpackEntries, gammaRead_of_gamma hd hx, gammaRead_of_gamma (List.length_pos_of_ne_nil hc) hlength, hletter]
  rw [if_neg (by omega)]
  split
  · next hrest => rw [hrest]
  · next hrest => rw [hrest]; exact iff_of_false nofun nofun

/-- The entry loop fails exactly where, after fewer entries than are left to read, the next one is cut off (R820). -/
theorem unpackEntries_eq_truncatedHeader_iff :
    unpackEntries y n base q = .error .truncatedHeader ↔
      ∃ es x, es.length < n ∧ EntriesFrom base es ∧ y.drop q = packEntries base es ++ x ∧ EntryCut x := by
  induction n generalizing base q with
  | zero => simp [unpackEntries]
  | succ n ih =>
    constructor
    · intro h
      obtain hcut | ⟨d, c, x, hd, hc, hx⟩ := entryCut_or_entry (y.drop q)
      · exact ⟨[], _, Nat.succ_pos n, entriesFrom_nil base, rfl, hcut⟩
      · obtain ⟨es, x', hlen, hes, hx', hcut⟩ := ih.mp ((unpackEntries_succ_eq_error_iff hd hc hx).mp h)
        obtain rfl := (drop_add_of_drop_eq (drop_add_of_drop_eq (drop_add_of_drop_eq hx))).symm.trans hx'
        have hletter : base + d - 1 + 1 = base + d := by omega
        refine ⟨(base + d - 1, c) :: es, x', Nat.succ_lt_succ hlen,
          entriesFrom_cons.mpr ⟨by omega, hc, hletter ▸ hes⟩, ?_, hcut⟩
        simp only [hx, packEntries, hletter, Nat.add_sub_cancel_left, List.append_assoc]
    · rintro ⟨es, x, hlen, hes, hx, hcut⟩
      cases es with
      | nil => exact unpackEntries_succ_of_entryCut (hx ▸ hcut)
      | cons e es =>
        obtain ⟨hl, hc, hes⟩ := entriesFrom_cons.mp hes
        simp only [packEntries, List.append_assoc] at hx
        have hdelta : base + (e.1 + 1 - base) = e.1 + 1 := by omega
        rw [unpackEntries_succ_eq_error_iff (by omega) hc hx, hdelta]
        exact ih.mpr ⟨es, x, Nat.lt_of_succ_lt_succ hlen, hes,
          drop_add_of_drop_eq (drop_add_of_drop_eq (drop_add_of_drop_eq hx)), hcut⟩

/-- Past the count the parser is the entry loop. -/
theorem unpackTable_of_count {x : Bits} (hx : y.drop p = gamma (n + 1) ++ x) :
    unpackTable y p = unpackEntries y n 0 (p + (gamma (n + 1)).length) := by
  simp only [unpackTable, gammaRead_of_gamma (Nat.le_add_left 1 n) hx, Nat.add_sub_cancel]

theorem unpackTable_of_gammaCut (h : GammaCut (y.drop p)) : unpackTable y p = .error .truncatedCode := by
  simp only [unpackTable, gammaRead_eq_none_iff.mpr h]

/-- A count that is not cut off is a number of entries and 1. -/
theorem gammaCut_or_count (x : Bits) : GammaCut x ∨ ∃ n z, x = gamma (n + 1) ++ z := by
  refine or_iff_not_imp_left.mpr fun hcut => ?_
  obtain ⟨c, z, hc, rfl⟩ := not_not.mp hcut
  exact ⟨c - 1, z, by rw [Nat.sub_add_cancel hc]⟩

theorem unpackTable_eq_truncatedCode_iff : unpackTable y p = .error .truncatedCode ↔ GammaCut (y.drop p) := by
  refine ⟨fun h => ?_, unpackTable_of_gammaCut⟩
  refine (gammaCut_or_count (y.drop p)).resolve_right fun ⟨n, z, hz⟩ => ?_
  rw [unpackTable_of_count hz] at h
  cases unpackEntries_error h

theorem unpackTable_eq_truncatedHeader_iff :
    unpackTable y p = .error .truncatedHeader ↔
      ∃ n es x, es.length < n ∧ EntriesFrom 0 es
        ∧ y.drop p = gamma (n + 1) ++ packEntries 0 es ++ x ∧ EntryCut x := by
  constructor
  · intro h
    obtain hcut | ⟨n, z, hz⟩ := gammaCut_or_count (y.drop p)
    · rw [unpackTable_of_gammaCut hcut] at h
      cases h
    · rw [unpackTable_of_count hz, unpackEntries_eq_truncatedHeader_iff, drop_add_of_drop_eq hz] at h
      obtain ⟨es, x, hlen, hes, rfl, hcut⟩ := h
      exact ⟨n, es, x, hlen, hes, by rw [hz, List.append_assoc], hcut⟩
  · rintro ⟨n, es, x, hlen, hes, hx, hcut⟩
    rw [List.append_assoc] at hx
    rw [unpackTable_of_count hx]
    exact unpackEntries_eq_truncatedHeader_iff.mpr ⟨es, x, hlen, hes, drop_add_of_drop_eq hx, hcut⟩

end

/-! ### UNPACK_TABLE (R830) -/

/-- Of entries in canonical order, those that are stored are the storable ones. -/
theorem tableGet_tableOf_storable {p : Params} {es : List (Nat × Bits)} (h : keysRising es = true) {l : Nat} {c : Bits} :
    tableGet (tableOf (storable p es)) l = some c ↔ (l, c) ∈ es ∧ l ≤ p.maxLetter := by
  have hnodup : ((storable p es).map Prod.fst).Nodup := (keys_nodup h).sublist (List.filter_sublist.map Prod.fst)
  rw [tableGet_tableOf_eq_some_iff hnodup, storable, List.mem_filter, decide_eq_true_eq]

section
variable {s : State} {es : List (Nat × Bits)} {next : Nat} (h : unpackTable s.ibuf s.icur = .ok (es, next))
include h

theorem execUnpackTable_of_long (hlong : ∃ e ∈ es, e.1 ≤ s.cfg.maxLetter ∧ s.cfg.maxCwLen < e.2.length) :
    execUnpackTable s = raise .capacityExceeded s := by
  obtain ⟨e, he, hl, hlen⟩ := hlong
  simp only [execUnpackTable, h]
  exact if_pos (List.any_eq_true.mpr ⟨e, List.mem_filter.mpr ⟨he, decide_eq_true hl⟩, decide_eq_true hlen⟩)

theorem execUnpackTable_of_short (hshort : ∀ e ∈ es, e.1 ≤ s.cfg.maxLetter → e.2.length ≤ s.cfg.maxCwLen) :
    execUnpackTable s = ret { s with
      ct := tableOf (storable s.cfg es), ctOor := es.any (fun e => decide (s.cfg.maxLetter < e.1))
      result := toWord (next - s.icur), result2 := toWord es.length, icur := next } := by
  have hfits : ¬ (storable s.cfg es).any (fun e => decide (s.cfg.maxCwLen < e.2.length)) = true := by
    rw [List.any_eq_true]
    rintro ⟨e, he, hlong⟩
    obtain ⟨he, hl⟩ := List.mem_filter.mp he
    exact absurd (hshort e he (of_decide_eq_true hl)) (Nat.not_le.mpr (of_decide_eq_true hlong))
  simp only [execUnpackTable, h]
  exact if_neg hfits

end

/-- Settles O24: the command follows the parser's answer; the parser answers entries where a header stands and an error
where one is cut off (R820, R830). -/
theorem unpackTableReplacesTheCodeTable : Obligations.UnpackTableReplacesTheCodeTable := by
  refine ⟨by decide, fun s => ⟨fun e he => ?fails, fun es next hok => ⟨fun hlong => ?long, fun hshort => ?stores⟩,
    fun es next => ?parses, unpackTable_eq_truncatedCode_iff, ?cut, fun e => unpackTable_error⟩⟩
  case fails => exact failsWith_of_raise (execUnpackTable_of_error he)
  case long => exact failsWith_of_raise (execUnpackTable_of_long hok hlong)
  case stores =>
    obtain ⟨hrising, -⟩ := (unpackTable_eq_ok_iff.mp hok).1
    have hoor : es.any (fun e => decide (s.cfg.maxLetter < e.1)) = true ↔ ∃ e ∈ es, s.cfg.maxLetter < e.1 := by
      simp only [List.any_eq_true, decide_eq_true_eq]
    exact .of_ret (execUnpackTable_of_short hok hshort)
      ⟨fun l c => tableGet_tableOf_storable hrising, hoor, rfl, rfl, rfl⟩
  case parses => rw [unpackTable_eq_ok_iff, entriesFrom_zero_iff, packTable_eq_headerBody]
  case cut =>
    simp only [unpackTable_eq_truncatedHeader_iff, entriesFrom_zero_iff, packEntries_zero_eq_headerBody]
    rfl

/-! ### CT_SET and CT_GET (R801, R802) -/

section
variable {s : State} {k : Nat → Bits → Result}

/-! The operands of CT_SET and TRIE_INSERT: which check raises, and where the rest of the command runs (R302). -/

theorem withCodeword_of_empty (h : s.argB.toNat = 0) : withCodeword s k = raise .emptyCodeword s := if_pos h

theorem withCodeword_of_letter_gt (h : s.argB.toNat ≠ 0) (hl : s.cfg.maxLetter < s.argA.toNat) :
    withCodeword s k = raise .letterOutOfRange s :=
  (if_neg h).trans (if_neg (by simpa [letterInRange] using hl))

theorem withCodeword_of_long (h : s.argB.toNat ≠ 0) (hl : s.argA.toNat ≤ s.cfg.maxLetter)
    (hlen : s.cfg.maxCwLen < s.argB.toNat) : withCodeword s k = raise .capacityExceeded s :=
  (if_neg h).trans ((if_pos (decide_eq_true hl)).trans (if_pos hlen))

theorem withCodeword_of_fits (h : s.argB.toNat ≠ 0) (hl : s.argA.toNat ≤ s.cfg.maxLetter)
    (hlen : s.argB.toNat ≤ s.cfg.maxCwLen) :
    withCodeword s k = k s.argA.toNat (bitsOf s.argC s.argB.toNat) :=
  (if_neg h).trans ((if_pos (decide_eq_true hl)).trans (if_neg (Nat.not_lt.mpr hlen)))

theorem execCtGet_of_none (hl : s.argA.toNat ≤ s.cfg.maxLetter) (hget : tableGet s.ct s.argA.toNat = none) :
    execCtGet s = ret { s with result := 0, result2 := 0 } := by
  simp only [execCtGet, withLetter_of_le hl, hget]

theorem execCtGet_of_some {c : Bits} (hl : s.argA.toNat ≤ s.cfg.maxLetter)
    (hget : tableGet s.ct s.argA.toNat = some c) :
    execCtGet s = ret { s with result := toWord (bitsVal c), result2 := toWord c.length } := by
  simp only [execCtGet, withLetter_of_le hl, hget]

end

/-- The low digits of a value of any length in a register: the last one is bit 0 (R32, R36). -/
theorem getLsbD_toWord_bitsVal_of_lt (x : Bits) {i : Nat} (hi : i < 32) :
    (toWord (bitsVal x)).getLsbD i = (decide (i < x.length) && x.getD (x.length - 1 - i) false) := by
  rw [toWord, BitVec.getLsbD_ofNat, decide_eq_true hi, Bool.true_and]
  by_cases hlen : i < x.length
  · have hbit := testBit_bitsVal (x := x) (j := x.length - 1 - i) (by omega)
    rw [Nat.sub_sub_self (by omega)] at hbit
    rw [hbit, decide_eq_true hlen, Bool.true_and]
  · have hlt : bitsVal x < 2 ^ i := (bitsVal_lt x).trans_le (Nat.pow_le_pow_right (by omega) (by omega))
    rw [Nat.testBit_lt_two_pow hlt, decide_eq_false hlen, Bool.false_and]

/-- Settles O22: the checks stand in the order of `withCodeword`; past them CT_SET writes `BitsOf(OPC, L)` as one entry
of the table, and CT_GET reads one (R801, R802). -/
theorem ctSetAndCtGetOneEntry : Obligations.CtSetAndCtGetOneEntry := by
  refine ⟨by decide, by decide, fun s => ⟨?_, ?_, ?_, ?_, ?_, ?_, ?_⟩⟩
  · exact fun hempty => failsWith_of_raise (withCodeword_of_empty hempty : execCtSet s = _)
  · exact fun hne hletter => failsWith_of_raise (withCodeword_of_letter_gt hne hletter : execCtSet s = _)
  · exact fun hne hletter hlong => failsWith_of_raise (withCodeword_of_long hne hletter hlong : execCtSet s = _)
  · exact fun hne hletter hfits => .of_ret (withCodeword_of_fits hne hletter hfits : execCtSet s = _)
      ⟨⟨bitsOf s.argC s.argB.toNat, tableGet_tableSet_self _ _ _, length_bitsOf _ _, getElem?_bitsOf _ _⟩,
        fun l hl => tableGet_tableSet_other _ _ l _ hl⟩
  · exact fun hletter => failsWith_of_raise (withLetter_of_gt hletter : execCtGet s = _)
  · exact fun hletter hget => .of_ret (execCtGet_of_none hletter hget) ⟨rfl, rfl⟩
  · exact fun c hletter hget => .of_ret (execCtGet_of_some hletter hget)
      ⟨rfl, fun i hi => getLsbD_toWord_bitsVal_of_lt c hi⟩

/-! ### ENC_LETTER and ENC_TEXT (R840, R841) -/

theorem encodeText_eq_none_of_unmapped {ct : Table Bits} {ls : List Nat} (h : ∃ l ∈ ls, tableGet ct l = none) :
    encodeText ct ls = none := by
  obtain ⟨l, hl, hnone⟩ := h
  refine Option.eq_none_iff_forall_ne_some.mpr fun w hw => ?_
  induction ls generalizing w with
  | nil => cases hl
  | cons a ls ih =>
    obtain ⟨c, w', hc, hw', -⟩ := encodeText_cons_eq_some_iff.mp hw
    rcases List.mem_cons.mp hl with rfl | hl
    · rw [hnone] at hc
      cases hc
    · exact ih hl w' hw'

theorem encodeText_eq_flatten {ct : Table Bits} {ls : List Nat} {cs : List Bits}
    (h : ls.map (tableGet ct) = cs.map some) : encodeText ct ls = some cs.flatten := by
  induction ls generalizing cs with
  | nil =>
    obtain rfl : cs = [] := List.map_eq_nil_iff.mp h.symm
    rfl
  | cons l ls ih =>
    cases cs with
    | nil => cases h
    | cons c cs =>
      obtain ⟨hc, hcs⟩ := List.cons_eq_cons.mp h
      exact encodeText_cons_eq_some_iff.mpr ⟨c, cs.flatten, hc, ih hcs, List.flatten_cons⟩

section
variable {s : State}

theorem execEncLetter_of_none (hl : s.argA.toNat ≤ s.cfg.maxLetter) (hget : tableGet s.ct s.argA.toNat = none) :
    execEncLetter s = raise .unmappedLetter s := by
  simp only [execEncLetter, withLetter_of_le hl, hget]

theorem execEncLetter_of_some {c : Bits} (hl : s.argA.toNat ≤ s.cfg.maxLetter)
    (hget : tableGet s.ct s.argA.toNat = some c) :
    execEncLetter s = oAppend c s fun s' => ret { s' with result := toWord c.length } := by
  simp only [execEncLetter, withLetter_of_le hl, hget]

theorem execEncText_of_none (h : encodeText s.ct s.txt = none) : execEncText s = raise .unmappedLetter s := by
  simp only [execEncText, h]

theorem execEncText_of_some {w : Bits} (h : encodeText s.ct s.txt = some w) :
    execEncText s = oAppend w s fun s' => ret { s' with result := toWord w.length } := by
  simp only [execEncText, h]

end

/-- Settles O26: the entry, or those of the whole text, are looked up before the check of the room, and what is appended
is the codewords in order (R840, R841). -/
theorem encLetterAndEncTextAppendCodewords : Obligations.EncLetterAndEncTextAppendCodewords := by
  refine ⟨by decide, by decide, fun s => ⟨fun hletter => ?_, fun hletter hget => ?_,
    fun c hletter hget => ⟨fun hfull => ?_, fun hfits => ?_⟩, fun hunmapped => ?_,
    fun cs hcs => ⟨fun hfull => ?_, fun hfits => ?_⟩⟩⟩
  · exact failsWith_of_raise (withLetter_of_gt hletter : execEncLetter s = _)
  · exact failsWith_of_raise (execEncLetter_of_none hletter hget)
  · exact failsWith_of_raise ((execEncLetter_of_some hletter hget).trans (oAppend_of_full hfull))
  · exact .of_ret ((execEncLetter_of_some hletter hget).trans (oAppend_of_fits hfits)) ⟨rfl, rfl⟩
  · exact failsWith_of_raise (execEncText_of_none (encodeText_eq_none_of_unmapped hunmapped))
  · exact failsWith_of_raise ((execEncText_of_some (encodeText_eq_flatten hcs)).trans (oAppend_of_full hfull))
  · exact .of_ret ((execEncText_of_some (encodeText_eq_flatten hcs)).trans (oAppend_of_fits hfits)) ⟨rfl, rfl⟩

end Sys2Proof.Machine
end

section
/-! PROOF. The state machines of R912 and R920 against the functions they compute, R911's `TrieInsert` and `DecodeWalk`: each
run follows the recursion of its function, with the bits read so far as the machine's position. -/

namespace Sys2Proof.Machine

/-! ### The insert state machine (R912) -/

/-- The final state of the insert machine that started on `t`, for an answer of `TrieInsert`. -/
def insertEnd (t : Trie) : Except ErrKind Trie → InsertState × Trie
  | .ok t' => (.idone, t')
  | .error e => (.ifail e, t)

section
variable (p : Params) (l : Nat)

theorem insertRun_insertEnd (c : Bits) (t : Trie) (k : Nat) (r : Except ErrKind Trie) :
    insertRun p c l k (insertEnd t r) = insertEnd t r := by
  induction k with
  | zero => rfl
  | succ k ih => cases r <;> exact ih

@[simp] theorem codeBit_append_cons (q r : Bits) (b : Bool) : codeBit (q ++ b :: r) q.length = b := by simp [codeBit]

/-- From ILEAF the last bit's slot becomes the leaf. -/
theorem insertStep_ileaf (t : Trie) (n : Nat) (q : Bits) (b : Bool) :
    insertStep p (q ++ [b]) l (.ileaf n, t) = (.idone, setTrieSlot t n b (.leaf l)) := by
  simp [insertStep]

/-- From IEXT one step for each bit left and one more make the extension of R911. -/
theorem insertRun_iext (t : Trie) (n : Nat) (q : Bits) {r : Bits} (hr : r ≠ []) :
    insertRun p (q ++ r) l (r.length + 1) (.iext n q.length, t) = (.idone, extendTrie l t n r) := by
  induction t, n, r using extendTrie.induct generalizing q with
  | case1 t n => exact (hr rfl).elim
  | case2 t n b =>
    have hstep : insertStep p (q ++ [b]) l (.iext n q.length, t) = (.ileaf n, t) := by simp [insertStep]
    rw [List.length_singleton, insertRun, hstep]
    exact insertStep_ileaf p l t n q b
  | case3 t n b b' bs ih =>
    have hstep : insertStep p (q ++ b :: b' :: bs) l (.iext n q.length, t)
        = (.iext t.length (q ++ [b]).length, growTrie t n b) := by simp [insertStep]
    have happend : q ++ b :: b' :: bs = q ++ [b] ++ b' :: bs := by simp
    rw [List.length_cons, insertRun, hstep, happend, extendTrie]
    exact ih (q ++ [b]) (by simp)

/-- A step from IWALK follows the walk of R911: it fails, or finds the place of the leaf or of the extension, or goes on to
a child. -/
theorem insertStep_iwalk_cases (t : Trie) (n : Nat) (q : Bits) {r : Bits} (hr : r ≠ []) :
    (∃ e, insertStep p (q ++ r) l (.iwalk n q.length, t) = (.ifail e, t) ∧ insertWalk t l n r = .error e)
    ∨ (∃ b, r = [b] ∧ insertStep p (q ++ r) l (.iwalk n q.length, t) = (.ileaf n, t)
        ∧ insertWalk t l n r = .ok (setTrieSlot t n b (.leaf l)))
    ∨ (insertStep p (q ++ r) l (.iwalk n q.length, t) = (.iext n q.length, t)
        ∧ insertWalk t l n r = .ok (extendTrie l t n r))
    ∨ ∃ b m r', r = b :: r' ∧ r' ≠ []
        ∧ insertStep p (q ++ r) l (.iwalk n q.length, t) = (.iwalk m (q ++ [b]).length, t)
        ∧ insertWalk t l n r = insertWalk t l m r' := by
  match r, hr with
  | [b], _ => cases hslot : trieSlot t n b <;> simp [insertStep, insertWalk, hslot]
  | b :: b' :: bs, _ => cases hslot : trieSlot t n b <;> simp [insertStep, insertWalk, hslot]

/-- From IWALK two steps more than there are bits left end where the walk of R911 ends. -/
theorem insertRun_iwalk (t : Trie) (n : Nat) (q : Bits) {r : Bits} (hr : r ≠ []) :
    insertRun p (q ++ r) l (r.length + 2) (.iwalk n q.length, t) = insertEnd t (insertWalk t l n r) := by
  induction r generalizing n q with
  | nil => exact (hr rfl).elim
  | cons b r ih =>
    rw [insertRun]
    obtain ⟨e, hstep, hwalk⟩ | ⟨b, hb, hstep, hwalk⟩ | ⟨hstep, hwalk⟩ | ⟨b, m, r', hb, hr', hstep, hwalk⟩ :=
      insertStep_iwalk_cases p l t n q hr
    · rw [hstep, hwalk]
      exact insertRun_insertEnd p l _ t _ (.error e)
    · rw [hstep, hwalk, hb, insertRun, insertStep_ileaf]
      exact insertRun_insertEnd p l _ t _ (.ok _)
    · rw [hstep, hwalk]
      exact insertRun_iext p l t n q hr
    · obtain ⟨rfl, rfl⟩ := List.cons.inj hb
      have happend : q ++ b :: r = q ++ [b] ++ r := by simp
      rw [hstep, hwalk, happend]
      exact ih m (q ++ [b]) hr'

/-- From ICHECK the machine computes `TrieInsert` in three steps more than the codeword has bits. -/
theorem insertRun_icheck (t : Trie) (c : Bits) :
    insertRun p c l (c.length + 3) (.icheck, t) = insertEnd t (trieInsert p t c l) := by
  rw [insertRun, insertStep, trieInsert]
  simp only [List.length_eq_zero_iff]
  split
  · exact insertRun_insertEnd p l c t _ (.error _)
  · next hc =>
    split
    · exact insertRun_insertEnd p l c t _ (.error _)
    · exact insertRun_iwalk p l t 0 [] hc

end

/-- Settles O30: the machine's run from ICHECK ends as `TrieInsert` answers (R911, R912). -/
theorem insertMachineComputesTrieInsert : Obligations.InsertMachineComputesTrieInsert := by
  intro p t c l
  rw [insertRun_icheck]
  exact ⟨fun t' hok => by rw [hok, insertEnd], fun e herr => by rw [herr, insertEnd]⟩

/-! ### The decode walk (R920) -/

/-- The final state of the decode machine, for an answer of `DecodeWalk`. -/
def decodeEnd : Option (Nat × Nat) → DecodeState
  | some (l, j) => .ddone l j
  | none => .dfail

section
variable {t : Trie} {ibuf : Bits} {n j l j' : Nat} {bs : Bits}

/-- From DWALK one step for each bit left and one more end where the walk over these bits ends. -/
theorem decodeRun_dwalk (h : ibuf.drop j = bs) :
    decodeRun t ibuf (bs.length + 1) (.dwalk n j) = decodeEnd (walkBits t n j bs) := by
  induction bs generalizing n j with
  | nil =>
    have hbit : ibuf[j]? = none := List.getElem?_eq_none (List.drop_eq_nil_iff.mp h)
    simp only [List.length_nil, decodeRun, decodeStep, hbit, walkBits, decodeEnd]
  | cons b bs ih =>
    have hbit : ibuf[j]? = some b := by rw [← List.head?_drop, h, List.head?_cons]
    rw [List.length_cons, decodeRun]
    simp only [decodeStep, hbit, walkBits]
    cases trieSlot t n b with
    | child m => exact ih (drop_add_of_drop_eq (a := [b]) h)
    | leaf l => exact decodeRun_ddone t ibuf l (j + 1) _
    | empty => exact decodeRun_dfail t ibuf _
    | reserved raw => exact decodeRun_dfail t ibuf _

/-- A walk that succeeds reads at least one bit, and no more than there are. -/
theorem walkBits_position (h : walkBits t n j bs = some (l, j')) : j < j' ∧ j' ≤ j + bs.length := by
  induction bs generalizing n j with
  | nil => cases h
  | cons b bs ih =>
    rw [walkBits] at h
    rw [List.length_cons]
    split at h
    · have := ih h
      omega
    · cases h
      omega
    · cases h
    · cases h

/-- `DecodeWalk` ends past its start and within IBUF. -/
theorem decodeWalk_position (h : decodeWalk t ibuf j = some (l, j')) : j < j' ∧ j' ≤ ibuf.length := by
  have hpos := walkBits_position h
  rw [List.length_drop] at hpos
  omega

end

/-- Settles O31: the machine's run from DWALK ends as `DecodeWalk` answers (R920). -/
theorem decodeMachineComputesDecodeWalk : Obligations.DecodeMachineComputesDecodeWalk := by
  intro t ibuf p hp
  have hrun : decodeRun t ibuf (ibuf.length - p + 1) (.dwalk 0 p) = decodeEnd (decodeWalk t ibuf p) := by
    rw [← List.length_drop]
    exact decodeRun_dwalk rfl
  rw [hrun]
  exact ⟨fun l j hwalk => ⟨by rw [hwalk, decodeEnd], decodeWalk_position hwalk⟩,
    fun hwalk => by rw [hwalk, decodeEnd]⟩

end Sys2Proof.Machine
end

section
/-! PROOF. The slot format (R900, R901), and what a successful insertion says of its codewords (R911, R914). -/

namespace Sys2Proof.Machine

/-! ### Slots (R900, R901) -/

/-- Every value is what its decoded view encodes to; 0 and the values above TOP by the model's choice (log 20). -/
theorem encSlot_slotOf (p : Params) (v : Nat) : encSlot p (slotOf p v) = v := by
  unfold slotOf
  split
  · rfl
  · split
    · rfl
    · split
      · next hempty => exact hempty.symm
      · split
        · next htop => exact Nat.sub_sub_self htop
        · rfl

/-- Above the midpoint a slot value is a leaf (R900). -/
theorem slotOf_of_mid_lt {p : Params} {v : Nat} (hmid : p.mid < v) (htop : v ≤ p.top) :
    slotOf p v = .leaf (p.top - v) := by
  unfold slotOf Params.emptySlot
  rw [if_neg (by omega), if_neg (by omega), if_neg (by omega), if_pos htop]

/-- Settles O27: a slot may hold each of these views, so it is read back, and the last clauses are the table of R900
(R901). -/
theorem slotDecodingInvertsEncoding : Obligations.SlotDecodingInvertsEncoding := by
  intro p hp
  have hback {x : Slot} (hx : SlotOk p p.mid x) : slotOf p (encSlot p x) = x := slotOf_encSlot hp (Nat.le_refl _) hx
  refine ⟨fun m hm hmid => ?child, ?empty, fun l hl => ?leaf, ?zero, fun v => slotOf_of_mid_lt, encSlot_slotOf p⟩
  case child => exact ⟨rfl, hback (x := .child m) ⟨hm, hmid⟩⟩
  case empty => exact ⟨rfl, hback (x := .empty) trivial⟩
  case leaf => exact ⟨rfl, hback (x := .leaf l) hl⟩
  case zero => rfl

/-! ### What a successful insertion says (R911) -/

/-- What a turn of the walk of R911 can do: it meets a conflict, or an empty slot, from which it extends the trie, or a child
from which it goes on. (The extension by the last bit alone is the leaf.) -/
theorem insertWalk_cons_cases (t : Trie) (l n : Nat) (b : Bool) (r : Bits) :
    insertWalk t l n (b :: r) = .error .prefixConflict
    ∨ (trieSlot t n b = .empty ∧ insertWalk t l n (b :: r) = .ok (extendTrie l t n (b :: r)))
    ∨ (r ≠ [] ∧ ∃ m, trieSlot t n b = .child m ∧ insertWalk t l n (b :: r) = insertWalk t l m r) := by
  cases r with
  | nil => cases hslot : trieSlot t n b <;> simp [insertWalk, extendTrie, hslot]
  | cons b' bs => cases hslot : trieSlot t n b <;> simp [insertWalk, hslot]

theorem trieInsert_eq_ok_iff {p : Params} {t t' : Trie} {c : Bits} {l : Nat} :
    trieInsert p t c l = .ok t' ↔ c ≠ [] ∧ l ≤ p.maxLetter ∧ insertWalk t l 0 c = .ok t' := by
  unfold trieInsert
  split
  · next hc => simp [hc]
  · next hc =>
    split
    · simp; omega
    · simp [hc]; omega

theorem insertAll_cons_eq_ok_iff {p : Params} {t t' : Trie} {c : Bits} {l : Nat} {es : List (Nat × Bits)} :
    insertAll p t ((l, c) :: es) = .ok t' ↔ ∃ u, trieInsert p t c l = .ok u ∧ insertAll p u es = .ok t' := by
  rw [insertAll]
  cases trieInsert p t c l <;> simp

section
variable {t : Trie} {ps : List Bits} {es : List (Nat × Bits)} (h : TrieHolds t ps es)
include h

/-- Where a codeword ends there is a leaf, so no path goes there. -/
theorem TrieHolds.codeword_not_path {e : Nat × Bits} (he : e ∈ es) (hne : e.2 ≠ []) : e.2 ∉ ps := by
  obtain ⟨l, c⟩ := e
  obtain ⟨q, b, rfl⟩ := (List.eq_nil_or_concat' c).resolve_left hne
  intro hmem
  obtain ⟨n, hn⟩ := List.mem_iff_getElem?.mp (h.pathParent hmem)
  obtain ⟨m, hm⟩ := List.mem_iff_getElem?.mp hmem
  have hslot := (h.leaf hn b l).mpr he
  rw [(h.child hn b m).mpr hm] at hslot
  cases hslot

/-- A codeword that goes through an empty slot begins no codeword held, and none begins it. -/
theorem TrieHolds.incomparable_of_empty {n l : Nat} {q r : Bits} {b : Bool} (hn : ps[n]? = some q)
    (hempty : trieSlot t n b = .empty) {e : Nat × Bits} (he : e ∈ es) (hne : e.2 ≠ []) :
    Incomparable e (l, q ++ b :: r) := by
  have hbefore : ¬ e.2 <+: q := by
    rintro ⟨x, rfl⟩
    exact h.codeword_not_path he hne (h.path_of_prefix (List.mem_of_getElem? hn))
  have hafter : ¬ q ++ [b] <+: e.2 := by
    rintro ⟨x, hx⟩
    by_cases hlast : x = []
    · rw [hlast, List.append_nil] at hx
      exact h.empty_not_leaf hn hempty e.1 (hx ▸ he)
    · exact h.empty_not_path hn hempty (h.path_of_codeword (l := e.1) hlast (hx ▸ he))
  have hslot : q ++ [b] <+: q ++ b :: r := ⟨r, by simp⟩
  refine ⟨fun hpre => ?_, fun hpre => hafter (hslot.trans hpre)⟩
  obtain hshort | hlong := List.prefix_or_prefix_of_prefix hpre hslot
  · obtain heq | hshort := List.prefix_concat_iff.mp hshort
    · exact hafter (heq ▸ List.prefix_refl _)
    · exact hbefore hshort
  · exact hafter hlong

/-- A codeword that is inserted begins no codeword held, and none begins it (R914 (a)). -/
theorem TrieHolds.incomparable_of_insertWalk (hne : ∀ e ∈ es, e.2 ≠ []) {t' : Trie} {n l : Nat} {q c : Bits}
    (hn : ps[n]? = some q) (hwalk : Machine.insertWalk t l n c = .ok t') : ∀ e ∈ es, Incomparable e (l, q ++ c) := by
  induction c generalizing n q with
  | nil => cases hwalk
  | cons b r ih =>
    obtain herr | ⟨hempty, -⟩ | ⟨-, m, hslot, hrest⟩ := insertWalk_cons_cases t l n b r
    · rw [herr] at hwalk
      cases hwalk
    · exact fun e he => h.incomparable_of_empty hn hempty he (hne e he)
    · have happend : q ++ b :: r = q ++ [b] ++ r := by simp
      rw [happend]
      exact ih ((h.child hn b m).mp hslot) (hrest.symm.trans hwalk)

/-- Entries that are all inserted have non-empty codewords and letters in range, and none of the codewords, nor of those
held before, begins another (R914 (a)). -/
theorem TrieHolds.incomparable_of_insertAll {p : Params} (hneeded : PathsNeeded ps es) (hne : ∀ e ∈ es, e.2 ≠ [])
    (hfree : es.Pairwise Incomparable) {rest : List (Nat × Bits)} {t' : Trie}
    (hins : Machine.insertAll p t rest = .ok t') :
    (∀ e ∈ rest, e.2 ≠ [] ∧ e.1 ≤ p.maxLetter) ∧ (es ++ rest).Pairwise Incomparable := by
  induction rest generalizing t ps es with
  | nil => exact ⟨by simp, by simpa using hfree⟩
  | cons e rest ih =>
    obtain ⟨l, c⟩ := e
    obtain ⟨u, hu, hins⟩ := insertAll_cons_eq_ok_iff.mp hins
    obtain ⟨hc, hl, hwalk⟩ := trieInsert_eq_ok_iff.mp hu
    have hnew := h.incomparable_of_insertWalk hne h.root hwalk
    obtain ⟨u', ps', hwalk', hholds, hneeded'⟩ := h.insertWalk (l := l) hneeded h.root hc hnew
    obtain rfl : u = u' := Except.ok.inj (hwalk.symm.trans hwalk')
    obtain ⟨hrest, hall⟩ := ih hholds hneeded'
      (by simpa [or_imp, forall_and] using And.intro hne hc)
      (List.pairwise_append.mpr ⟨hfree, List.pairwise_singleton _ _, by simpa using hnew⟩) hins
    exact ⟨List.forall_mem_cons.mpr ⟨⟨hc, hl⟩, hrest⟩, by simpa using hall⟩

/-- The paths of a trie with no node beside those its codewords need are their proper prefixes and the empty one
(R914 (b)). -/
theorem TrieHolds.mem_paths_iff (hneeded : PathsNeeded ps es) {x : Bits} :
    x ∈ ps ↔ x = [] ∨ ∃ e ∈ es, x <+: e.2 ∧ x ≠ e.2 := by
  refine ⟨hneeded x, ?_⟩
  rintro (rfl | ⟨⟨l, c⟩, he, ⟨y, rfl⟩, hproper⟩)
  · exact List.mem_of_getElem? h.root
  · exact h.path_of_codeword (by simpa using hproper) he

end

/-- What was inserted from the empty root: the entries are insertable, none of their codewords begins another, and the trie
holds them and no node they do not need (R914). -/
theorem insertAll_emptyTrie_holds {p : Params} {es : List (Nat × Bits)} {t : Trie}
    (hins : insertAll p emptyTrie es = .ok t) :
    (∀ e ∈ es, e.2 ≠ [] ∧ e.1 ≤ p.maxLetter) ∧ es.Pairwise Incomparable
      ∧ ∃ ps, TrieHolds t ps es ∧ PathsNeeded ps es := by
  obtain ⟨hes, hfree⟩ := trieHolds_emptyTrie.incomparable_of_insertAll (fun _ hx => .inl (List.mem_singleton.mp hx))
    (by simp) .nil hins
  obtain ⟨t', ps, hins', hholds, hneeded⟩ := insertAll_emptyTrie hes hfree
  obtain rfl : t = t' := Except.ok.inj (hins.symm.trans hins')
  exact ⟨hes, hfree, ps, hholds, hneeded⟩

theorem prefixFree_iff_pairwise_incomparable {es : List (Nat × Bits)} :
    PrefixFree (es.map Prod.snd) ↔ es.Pairwise Incomparable := List.pairwise_map

/-- Settles O33: an insertion that succeeds meets no codeword on its path, so the trie holds just the entries, and R914's
properties are read off it; conversely `insertAll_emptyTrie` inserts a list of which no codeword begins another. -/
theorem insertedCodewordsArePrefixFreeAndDecode : Obligations.InsertedCodewordsArePrefixFreeAndDecode := by
  intro p es hp
  refine ⟨fun t hins => ?inserted, fun hes hfree => ?insertable⟩
  case inserted =>
    obtain ⟨hes, hfree, ps, hholds, hneeded⟩ := insertAll_emptyTrie_holds hins
    refine ⟨prefixFree_iff_pairwise_incomparable.mpr hfree,
      ⟨ps, hholds.nodup, fun q => hholds.mem_paths_iff hneeded, hholds.length.symm⟩, fun l c hmem q x => ?_,
      trieInv_packTrie hp ((trieWf_emptyTrie p).insertAll hins)⟩
    rw [decodeWalk, List.append_assoc, List.drop_left]
    exact hholds.walkBits_codeword hholds.root (hes _ hmem).1 hmem q.length x
  case insertable =>
    obtain ⟨t, -, hins, -⟩ := insertAll_emptyTrie hes (prefixFree_iff_pairwise_incomparable.mp hfree)
    exact ⟨t, hins⟩

end Sys2Proof.Machine
end

section
/-! PROOF. The trie commands (R913, R915, R921, R931): the order of their errors, and what they store. -/

namespace Sys2Proof.Machine

/-! ### The errors of insertion where its operands are checked before (R911) -/

theorem insertWalk_error_of_ne_nil {t : Trie} {l n : Nat} {c : Bits} {e : ErrKind} (hc : c ≠ [])
    (h : insertWalk t l n c = .error e) : e = .prefixConflict := by
  induction c generalizing n with
  | nil => exact (hc rfl).elim
  | cons b r ih =>
    obtain herr | ⟨-, hok⟩ | ⟨hr, m, -, hrest⟩ := insertWalk_cons_cases t l n b r
    · exact (Except.error.inj (herr.symm.trans h)).symm
    · rw [hok] at h
      cases h
    · exact ih hr (hrest.symm.trans h)

theorem trieInsert_error_of_legal {p : Params} {t : Trie} {c : Bits} {l : Nat} {e : ErrKind} (hc : c ≠ [])
    (hl : l ≤ p.maxLetter) (h : trieInsert p t c l = .error e) : e = .prefixConflict := by
  rw [trieInsert, if_neg hc, if_neg (Nat.not_lt.mpr hl)] at h
  exact insertWalk_error_of_ne_nil hc h

theorem insertAll_error_of_legal {p : Params} {es : List (Nat × Bits)} {t : Trie} {e : ErrKind}
    (hes : ∀ d ∈ es, d.2 ≠ [] ∧ d.1 ≤ p.maxLetter) (h : insertAll p t es = .error e) : e = .prefixConflict := by
  induction es generalizing t with
  | nil => cases h
  | cons d es ih =>
    obtain ⟨⟨hc, hl⟩, hes⟩ := List.forall_mem_cons.mp hes
    rw [insertAll] at h
    split at h
    · next hins =>
      cases h
      exact trieInsert_error_of_legal hc hl hins
    · exact ih hes h

/-! ### TRIE_INSERT and TRIE_BUILD -/

section
variable {s : State} {t : Trie}

theorem storeTrie_of_fits {k : State → Result} (h : t.length ≤ s.cfg.nodeCap) :
    storeTrie t s k = k { s with node := packTrie s.cfg t } := if_neg (Nat.not_lt.mpr h)

theorem storeTrie_of_full {k : State → Result} (h : s.cfg.nodeCap < t.length) :
    storeTrie t s k = raise .capacityExceeded s := if_pos h

section
variable (hne : s.argB.toNat ≠ 0) (hl : s.argA.toNat ≤ s.cfg.maxLetter) (hlen : s.argB.toNat ≤ s.cfg.maxCwLen)
include hne hl hlen

theorem execTrieInsert_of_error {e : ErrKind}
    (h : trieInsert s.cfg (trieOf s.cfg s.node) (bitsOf s.argC s.argB.toNat) s.argA.toNat = .error e) :
    execTrieInsert s = raise e s := by
  simp only [execTrieInsert, withCodeword_of_fits hne hl hlen, h]

theorem execTrieInsert_of_ok
    (h : trieInsert s.cfg (trieOf s.cfg s.node) (bitsOf s.argC s.argB.toNat) s.argA.toNat = .ok t) :
    execTrieInsert s = storeTrie t s ret := by
  simp only [execTrieInsert, withCodeword_of_fits hne hl hlen, h]

end

theorem execTrieBuild_of_error {e : ErrKind} (h : insertAll s.cfg emptyTrie s.ct = .error e) :
    execTrieBuild s = raise e s := by
  simp only [execTrieBuild, h]

theorem execTrieBuild_of_oor (h : insertAll s.cfg emptyTrie s.ct = .ok t) (hoor : s.ctOor = true) :
    execTrieBuild s = raise .letterOutOfRange s := by
  simp only [execTrieBuild, h, hoor, if_true]

theorem execTrieBuild_of_full (h : insertAll s.cfg emptyTrie s.ct = .ok t) (hoor : s.ctOor = false)
    (hfull : s.cfg.nodeCap < t.length) : execTrieBuild s = raise .capacityExceeded s := by
  simp only [execTrieBuild, h, hoor, Bool.false_eq_true, if_false, storeTrie_of_full hfull]

end

/-- Settles O28: past the operand checks, the walk's error, which can only be a conflict, comes before NODE_CAP; a trie that
fits is read back from its packed form (R913). -/
theorem trieInsertStoresTheNewTrie : Obligations.TrieInsertStoresTheNewTrie := by
  refine ⟨by decide, fun s hinv => ⟨fun hempty => ?empty, fun hne hletter => ?letter, fun hne hl hlong => ?long,
    fun hne hl hlen => ⟨fun e herr => ?conflict, fun n hok => ⟨fun hfull => ?full, fun hfits => ?stores⟩⟩⟩⟩
  case empty => exact failsWith_of_raise (withCodeword_of_empty hempty : execTrieInsert s = _)
  case letter => exact failsWith_of_raise (withCodeword_of_letter_gt hne hletter : execTrieInsert s = _)
  case long => exact failsWith_of_raise (withCodeword_of_long hne hl hlong : execTrieInsert s = _)
  case conflict =>
    have hcode : bitsOf s.argC s.argB.toNat ≠ [] :=
      List.ne_nil_of_length_pos (by rw [length_bitsOf]; exact Nat.pos_of_ne_zero hne)
    obtain rfl := trieInsert_error_of_legal hcode hl herr
    exact ⟨rfl, failsWith_of_raise (execTrieInsert_of_error hne hl hlen herr)⟩
  case full => exact failsWith_of_raise ((execTrieInsert_of_ok hne hl hlen hok).trans (storeTrie_of_full hfull))
  case stores =>
    exact .of_ret ((execTrieInsert_of_ok hne hl hlen hok).trans (storeTrie_of_fits hfits))
      ⟨trieOf_packTrie hinv.cfgLegal (hinv.trieWf.trieInsert hok) hfits, length_packTrie s.cfg n⟩

/-- Settles O29: CT's entries are insertable, so their insertion fails by a conflict only; CT_OOR and NODE_CAP are
checked after it (R915). -/
theorem trieBuildStoresTheTrieOfTheTable : Obligations.TrieBuildStoresTheTrieOfTheTable := by
  refine ⟨by decide, fun s hinv => ⟨fun e herr => ?conflict, fun n hok => ⟨fun hoor => ?oor, fun hoor hfull => ?full,
    fun hoor hfits => ?stores⟩⟩⟩
  case conflict =>
    have hct : ∀ d ∈ s.ct, d.2 ≠ [] ∧ d.1 ≤ s.cfg.maxLetter := fun d hd =>
      have ⟨hl, hpos, _⟩ := hinv.ctRange d hd
      ⟨List.ne_nil_of_length_pos hpos, hl⟩
    obtain rfl := insertAll_error_of_legal hct herr
    exact ⟨rfl, failsWith_of_raise (execTrieBuild_of_error herr)⟩
  case oor => exact failsWith_of_raise (execTrieBuild_of_oor hok hoor)
  case full => exact failsWith_of_raise (execTrieBuild_of_full hok hoor hfull)
  case stores =>
    have hword : n.length < 2 ^ 32 := by
      have hcap := (legal_ranges hinv.cfgLegal).nodeCap
      have hmid := mid_range hinv.cfgLegal
      omega
    exact .of_ret (execTrieBuild_of_ok hok hoor hfits)
      ⟨trieOf_packTrie hinv.cfgLegal ((trieWf_emptyTrie s.cfg).insertAll hok) hfits, length_packTrie s.cfg n,
        toNat_toWord hword⟩

/-! ### DECODE_ONE and DECODE_ALL -/

section
variable {t : Trie} {ibuf : Bits} {k p l j : Nat}

/-! The loop of `DecodeAll`: where it is done, where it fails, and one turn of it (R930). -/

theorem decodeLoop_of_length_le (h : ibuf.length ≤ p) : decodeLoop t ibuf k p = some ([], p) := by
  cases k <;> simp [decodeLoop, Nat.not_lt.mpr h]

theorem decodeLoop_of_fail (hp : p < ibuf.length) (h : decodeWalk t ibuf p = none) : decodeLoop t ibuf k p = none := by
  cases k <;> simp [decodeLoop, hp, h]

theorem decodeLoop_succ_of_walk (hp : p < ibuf.length) (h : decodeWalk t ibuf p = some (l, j)) :
    decodeLoop t ibuf (k + 1) p = (decodeLoop t ibuf k j).map fun r => (l :: r.1, r.2) := by
  simp only [decodeLoop, if_pos hp, h]
  cases decodeLoop t ibuf k j <;> rfl

/-- Any bound on the letters left that is large enough gives the same answer. -/
theorem decodeLoop_eq_of_bounds {m : Nat} (hk : ibuf.length - p ≤ k) (hm : ibuf.length - p ≤ m) :
    decodeLoop t ibuf k p = decodeLoop t ibuf m p := by
  induction k generalizing p m with
  | zero => rw [decodeLoop_of_length_le (by omega), decodeLoop_of_length_le (by omega)]
  | succ k ih =>
    by_cases hp : p < ibuf.length
    · obtain ⟨m, rfl⟩ : ∃ m', m = m' + 1 := ⟨m - 1, by omega⟩
      cases hwalk : decodeWalk t ibuf p with
      | none => rw [decodeLoop_of_fail hp hwalk, decodeLoop_of_fail hp hwalk]
      | some r =>
        obtain ⟨l, j⟩ := r
        obtain ⟨hpos, -⟩ := decodeWalk_position hwalk
        rw [decodeLoop_succ_of_walk hp hwalk, decodeLoop_succ_of_walk hp hwalk,
          ih (p := j) (m := m) (by omega) (by omega)]
    · rw [decodeLoop_of_length_le (by omega), decodeLoop_of_length_le (by omega)]

theorem decodeAll_of_walk (hp : p < ibuf.length) (h : decodeWalk t ibuf p = some (l, j)) :
    decodeAll t ibuf p = (decodeAll t ibuf j).map fun r => (l :: r.1, r.2) := by
  obtain ⟨hpos, -⟩ := decodeWalk_position h
  obtain ⟨k, hk⟩ : ∃ k, ibuf.length - p = k + 1 := ⟨ibuf.length - p - 1, by omega⟩
  have hbounds : decodeLoop t ibuf k j = decodeAll t ibuf j := decodeLoop_eq_of_bounds (by omega) (Nat.le_refl _)
  rw [decodeAll, hk, decodeLoop_succ_of_walk hp h, hbounds]

/-- A loop that succeeds ends at the end of IBUF. -/
theorem decodeLoop_position {out : List Nat} (hp : p ≤ ibuf.length) (h : decodeLoop t ibuf k p = some (out, j)) :
    j = ibuf.length := by
  induction k generalizing p out with
  | zero =>
    rw [decodeLoop] at h
    split at h
    · cases h
    · cases h
      omega
  | succ k ih =>
    by_cases hlt : p < ibuf.length
    · cases hwalk : decodeWalk t ibuf p with
      | none =>
        rw [decodeLoop_of_fail hlt hwalk] at h
        cases h
      | some r =>
        rw [decodeLoop_succ_of_walk hlt hwalk] at h
        obtain ⟨⟨rest, e⟩, hrest, heq⟩ := Option.map_eq_some_iff.mp h
        cases heq
        exact ih (decodeWalk_position hwalk).2 hrest
    · rw [decodeLoop_of_length_le (by omega)] at h
      cases h
      omega

end

section
variable {s : State}

theorem execDecodeOne_of_none (h : decodeWalk (trieOf s.cfg s.node) s.ibuf s.icur = none) :
    execDecodeOne s = raise .decodeFailure s := by
  simp only [execDecodeOne, h]

theorem execDecodeOne_of_some {l j : Nat} (h : decodeWalk (trieOf s.cfg s.node) s.ibuf s.icur = some (l, j)) :
    execDecodeOne s = ret { s with result := toWord l, result2 := toWord (j - s.icur), icur := j } := by
  simp only [execDecodeOne, h]

theorem execDecodeAll_of_full {out : List Nat} {j : Nat}
    (h : decodeAll (trieOf s.cfg s.node) s.ibuf s.icur = some (out, j)) (hfull : s.cfg.textCap < out.length) :
    execDecodeAll s = raise .capacityExceeded s := by
  simp only [execDecodeAll, h, hfull, if_true]

end

/-- Settles O34: the commands follow the answers of `DecodeWalk` and `DecodeAll`, whose loop ends because each walk reads a
bit (R921, R930, R931). -/
theorem decodeOneAndDecodeAll : Obligations.DecodeOneAndDecodeAll := by
  refine ⟨by decide, by decide, fun s => ⟨fun hfail => ?_, fun l j hwalk => ?_, fun hfail => ?_,
    fun out j hall => ⟨fun hfull => ?_, fun hfits => ?_⟩, fun n ibuf p => ⟨?_, ?_, ?_⟩⟩⟩
  · exact failsWith_of_raise (execDecodeOne_of_none hfail)
  · exact .of_ret (execDecodeOne_of_some hwalk) ⟨rfl, rfl, rfl, (decodeWalk_position hwalk).1⟩
  · exact failsWith_of_raise (execDecodeAll_of_none hfail)
  · exact failsWith_of_raise (execDecodeAll_of_full hall hfull)
  · exact .of_ret (execDecodeAll_of_some hall hfits) ⟨rfl, rfl, rfl, fun hcur => decodeLoop_position hcur hall⟩
  · exact fun hend => decodeLoop_of_length_le hend
  · exact fun hp hfail => decodeLoop_of_fail hp hfail
  · exact fun l j hp hwalk => decodeAll_of_walk hp hwalk

end Sys2Proof.Machine
end

section
/-! PROOF. The bit/byte packer (R1000 to R1003, R1010 to R1013): the padding marker is a unary code, so the laws of the
unary reader tell what is read back, and a padded sequence is whole bytes, so the laws of Group and Expand tell its bits. -/

namespace Sys2Proof.Machine

/-! ### The padded sequence -/

theorem padAmount_range (n : Nat) : 1 ≤ padAmount n ∧ padAmount n ≤ 8 := by
  rw [padAmount]
  omega

theorem length_padBits_mod (x : Bits) : (padBits x).length % 8 = 0 := by
  rw [length_padBits, padAmount]
  omega

/-- The marker is as long as the padding amount says (R1000). -/
theorem length_marker (n : Nat) : (unary (padAmount n - 1)).length = padAmount n := by
  rw [length_unary, Nat.sub_add_cancel (padAmount_range n).1]

/-- Settles O14: the marker is a unary code of `r` bits, with the sequence after it (R1001, R1003). -/
theorem unpadOfPadGivesTheSequenceBack : Obligations.UnpadOfPadGivesTheSequenceBack := by
  intro x
  refine ⟨length_padBits x, length_padBits_mod x, ?_, ?_⟩
  · exact unaryRead_eq_some_iff.mpr ⟨x, rfl, by rw [Nat.zero_add]; exact (length_marker x.length).symm⟩
  · exact List.drop_left' (length_marker x.length)

/-! ### The bits of whole bytes -/

/-- Bit `8 i + j` of a sequence of whole bytes is bit `7 - j` of its byte `i` (R205, R1002). -/
theorem getD_eq_getLsbD_groupBytes {x : Bits} (hx : x.length % 8 = 0) {i j : Nat} (hi : i < (groupBytes x).length)
    (hj : j < 8) : x.getD (8 * i + j) false = ((groupBytes x).getD i 0).getLsbD (7 - j) := by
  obtain ⟨hgroup, -⟩ := byteConversionsAreMsbFirstInverses
  obtain ⟨-, -, hbytes⟩ := hgroup x hx
  obtain ⟨-, hbits⟩ := hbytes i hi
  exact hbits j hj

/-- Bit `8 i + j` of `Expand` is bit `7 - j` of byte `i` (R205, R1002). -/
theorem getD_expandBytes {bs : List Byte} {i j : Nat} (hi : i < bs.length) (hj : j < 8) :
    (expandBytes bs).getD (8 * i + j) false = (bs.getD i 0).getLsbD (7 - j) := by
  have hbit := getD_eq_getLsbD_groupBytes (x := expandBytes bs) (by simp) (by rwa [groupBytes_expandBytes]) hj
  rwa [groupBytes_expandBytes] at hbit

theorem length_groupBytes_padBits (x : Bits) :
    8 * (groupBytes (padBits x)).length = x.length + padAmount x.length := by
  have hwhole := length_padBits_mod x
  rw [length_groupBytes, ← length_padBits]
  omega

/-! ### The commands -/

section
variable {s : State}

/-- BIT_CAP is a multiple of 8, so only a full OBUF has no room for the marker (R1010). -/
theorem State.Inv.padding_full_iff (h : s.Inv) :
    s.cfg.bitCap < s.obuf.length + padAmount s.obuf.length ↔ s.obuf.length = s.cfg.bitCap := by
  have hcap := (legal_ranges h.cfgLegal).bitCap
  have hfits := h.obufFits
  rw [padAmount]
  omega

theorem execPad_of_full (h : s.cfg.bitCap < s.obuf.length + padAmount s.obuf.length) :
    execPad s = raise .capacityExceeded s := if_pos h

theorem execPad_of_room (h : ¬ s.cfg.bitCap < s.obuf.length + padAmount s.obuf.length) :
    execPad s = ret { s with obuf := padBits s.obuf, result := toWord (padAmount s.obuf.length) } := if_neg h

theorem execPackBytes_of_full (h : s.cfg.bitCap < s.obuf.length + padAmount s.obuf.length) :
    execPackBytes s = raise .capacityExceeded s := if_pos h

theorem execPackBytes_of_room (h : ¬ s.cfg.bitCap < s.obuf.length + padAmount s.obuf.length) :
    execPackBytes s = ret { s with
      bytes := groupBytes (padBits s.obuf), result := toWord (groupBytes (padBits s.obuf)).length } := if_neg h

end

/-- Settles O12: under the invariant the check of the room fails only for a full OBUF; both counts fit RESULT, and the bits
of the bytes are those of the padded sequence (R1010, R1012). -/
theorem padAndPackBytes : Obligations.PadAndPackBytes := by
  refine ⟨by decide, by decide, fun s hs => ⟨fun hfull => ?_, fun hne => ?_⟩⟩
  · have hover := hs.padding_full_iff.mpr hfull
    exact ⟨failsWith_of_raise (execPad_of_full hover), failsWith_of_raise (execPackBytes_of_full hover)⟩
  · have hroom := mt hs.padding_full_iff.mp hne
    have hamount := (padAmount_range s.obuf.length).2
    have hlen := length_groupBytes_padBits s.obuf
    have hcap := (legal_ranges hs.cfgLegal).bitCap
    refine ⟨.of_ret (execPad_of_room hroom) ⟨rfl, toNat_toWord (by omega)⟩,
      .of_ret (execPackBytes_of_room hroom) ⟨hlen, fun i hi j hj => ?_, toNat_toWord (by omega)⟩⟩
    exact (getD_eq_getLsbD_groupBytes (length_padBits_mod s.obuf) hi hj).symm

/-- Settles O13: the reader at 0 answers exactly where the marker is whole, and IBUF holds the expanded bits either way
(R1013, R1111). -/
theorem unpackBytesExpandsAndSkipsTheMarker : Obligations.UnpackBytesExpandsAndSkipsTheMarker := by
  refine ⟨by decide, fun s => ⟨fun n rest hmarker => ?_, fun n hones => ?_⟩⟩
  · have hread : unaryRead (expandBytes s.bytes) 0 = some (n, n + 1) :=
      unaryRead_eq_some_iff.mpr ⟨rest, by rw [List.drop_zero, hmarker, unary, List.append_assoc, List.singleton_append],
        by rw [length_unary, Nat.zero_add]⟩
    exact .of_ret (execUnpackBytes_of_some hread)
      ⟨length_expandBytes s.bytes, fun i hi j hj => getD_expandBytes hi hj, rfl, rfl⟩
  · have hread : unaryRead (expandBytes s.bytes) 0 = none := unaryRead_of_ones hones
    exact failsKeeping_of_raise (execUnpackBytes_of_none hread) (by simp [agreeOutside_iff]) rfl
      ⟨rfl, length_expandBytes s.bytes, length_expandBytes s.bytes⟩

end Sys2Proof.Machine
end

section
/-! PROOF. How a command takes an error (R1100, R1102, R1110, R1111), and that every command comes to its end (R1114). -/

namespace Sys2Proof.Machine

/-! ### Errors -/

/-- Settles O38: the codes, evaluated. -/
theorem errorCodesAreOneToTen : Obligations.ErrorCodesAreOneToTen := by
  unfold Obligations.ErrorCodesAreOneToTen
  decide

/-- A command that ends with an error raised it with nothing staged but what R1111 keeps. -/
theorem exec_error_cases {i : Instr} {s t : State} (h : exec i s = .next t) (herr : t.errCode ≠ 0) :
    ∃ e ∈ kindsFromAnyState i, ∃ s', AgreeOutside (keptOnError i) s s' ∧ t = s'.recordError e := by
  obtain ⟨s', -, hret⟩ | ⟨e, he, s', hs', hraise⟩ := exec_ends i s
  · obtain rfl := ret_next.mp (hret ▸ h)
    exact (herr rfl).elim
  · exact ⟨e, he, s', hs', raise_next.mp (hraise ▸ h)⟩

/-- UNARY_DEC has one error, which moves the cursor to the end of IBUF (R511, R1111). -/
theorem execUnaryDec_error_icur {s t : State} (h : execUnaryDec s = .next t) (herr : t.errCode ≠ 0) :
    t.icur = s.ibuf.length := by
  cases hread : unaryRead s.ibuf s.icur with
  | none =>
    obtain rfl := failAt_next.mp ((execUnaryDec_of_none hread).symm.trans h)
    rfl
  | some r =>
    obtain rfl := ret_next.mp ((execUnaryDec_of_some hread).symm.trans h)
    exact (herr rfl).elim

/-- UNPACK_BYTES has one error, which keeps the expanded bytes and moves the cursor to their end (R1013, R1111). -/
theorem execUnpackBytes_error_ibuf {s t : State} (h : execUnpackBytes s = .next t) (herr : t.errCode ≠ 0) :
    t.ibuf = expandBytes s.bytes ∧ t.icur = t.ibuf.length := by
  cases hread : unaryRead (expandBytes s.bytes) 0 with
  | none =>
    obtain rfl := raise_next.mp ((execUnpackBytes_of_none hread).symm.trans h)
    exact ⟨rfl, rfl⟩
  | some r =>
    obtain rfl := ret_next.mp ((execUnpackBytes_of_some hread).symm.trans h)
    exact (herr rfl).elim

/-- Settles O36: what an error is recorded in differs from the state before by R1111's exceptions only, and the three
commands of R1111 have one error each. -/
theorem failingCommandsAreAllOrNothing : Obligations.FailingCommandsAreAllOrNothing := by
  intro i s t h herr
  refine ⟨?frame, ?errFirst, exec_idle h, ?cursor, ?unpackBytes⟩
  case frame =>
    obtain ⟨e, -, s', hs', rfl⟩ := exec_error_cases h herr
    exact (hs'.mono (by simp_all)).trans ((recordError_frame s' e).mono (by simp_all))
  case errFirst =>
    obtain ⟨e, -, s', hs', rfl⟩ := exec_error_cases h herr
    have hkept : s'.errFirst = s.errFirst := hs' .errFirst (errFirst_not_mem_keptOnError i)
    rw [State.recordError_errFirst, hkept, State.recordError_errCode]
  case cursor =>
    rintro (rfl | rfl)
    · exact execUnaryDec_error_icur h herr
    · exact execUnaryDec_error_icur ((execUnpad_eq s).symm.trans h) herr
  case unpackBytes =>
    rintro rfl
    exact execUnpackBytes_error_ibuf h herr

theorem FailsWith.errCode_eq {i : Instr} {s t : State} {e : ErrKind} (hfail : FailsWith i s e)
    (h : exec i s = .next t) : t.errCode = e.code := by
  obtain ⟨u, hu, herr, -⟩ := hfail
  cases hu.symm.trans h
  exact herr

theorem Succeeds.errCode_eq {i : Instr} {s t : State} {fs : List Field} {P : State → Prop} (hok : Succeeds i s fs P)
    (h : exec i s = .next t) : t.errCode = 0 := by
  obtain ⟨u, hu, herr, -⟩ := hok
  cases hu.symm.trans h
  exact herr

/-- Under the invariant CT lists no empty codeword, so TRIE_BUILD does not raise EmptyCodeword (R156, R915). -/
theorem State.Inv.trieBuild_kinds {s t : State} (hs : s.Inv) (h : exec .trieBuild s = .next t) :
    t.errCode = 0 ∨ ∃ e ∈ raisesOf .trieBuild, t.errCode = e.code := by
  obtain ⟨hconflict, hbuilt⟩ := trieBuildStoresTheTrieOfTheTable.2 s hs
  cases hins : insertAll s.cfg emptyTrie s.ct with
  | error e => exact .inr ⟨.prefixConflict, by decide, (hconflict e hins).2.errCode_eq h⟩
  | ok n =>
    obtain ⟨hoor, hfull, hstored⟩ := hbuilt n hins
    cases hct : s.ctOor with
    | true => exact .inr ⟨.letterOutOfRange, by decide, (hoor hct).errCode_eq h⟩
    | false =>
      obtain hlt | hle := Nat.lt_or_ge s.cfg.nodeCap n.length
      · exact .inr ⟨.capacityExceeded, by decide, (hfull hct hlt).errCode_eq h⟩
      · exact .inl ((hstored hct hle).errCode_eq h)

theorem kindsFromAnyState_eq_raisesOf {i : Instr} (hi : i ≠ .trieBuild) : kindsFromAnyState i = raisesOf i := by
  unfold kindsFromAnyState
  split
  · exact (hi rfl).elim
  · rfl

/-- Settles O37: from any state a command raises the kinds of R1102 only, but for TRIE_BUILD's EmptyCodeword, which the
invariant excludes. -/
theorem commandsRaiseOnlyTheirKinds : Obligations.CommandsRaiseOnlyTheirKinds := by
  intro i s t hs h
  by_cases hi : i = .trieBuild
  · subst hi
    exact hs.trieBuild_kinds h
  · refine or_iff_not_imp_left.mpr fun herr => ?_
    obtain ⟨e, he, s', -, rfl⟩ := exec_error_cases h herr
    exact ⟨e, kindsFromAnyState_eq_raisesOf hi ▸ he, rfl⟩

/-! ### The end of every command -/

/-- Every command answers a next state (R1113, R1114). -/
theorem exec_total (i : Instr) (s : State) : ∃ t, exec i s = .next t := by
  obtain ⟨s', -, hret⟩ | ⟨e, -, s', -, hraise⟩ := exec_ends i s
  · exact ⟨s'.commit, hret⟩
  · exact ⟨s'.recordError e, hraise⟩

/-- The accepted word, legal or not, ends in phase IDLE (R101, R320). -/
theorem runCommand_ends_idle (w : Word) (s : State) : ∃ t, runCommand w s = .next t ∧ t.phase = .idle := by
  unfold runCommand
  split
  · next i _ =>
    obtain ⟨t, ht⟩ := exec_total i s
    exact ⟨t, ht, exec_idle ht⟩
  · exact ⟨s.recordError .illegalCommand, rfl, rfl⟩

section
variable {s : State} {w a b c : Word} (hreset : s.inReset = false) (hphase : s.phase = .busy w a b c)
include hreset hphase

/-- With no latency left, a step in phase BUSY completes the command (R101). -/
theorem step_busy_zero (hleft : s.busyLeft = 0) : step s = runCommand w s := by
  simp only [step, advance, hreset, hphase, hleft, Bool.false_eq_true, if_false]

/-- Before that it is the host's turn, and uses up one step of latency (R1230; log 3). -/
theorem step_busy_succ {k : Nat} (hleft : s.busyLeft = k + 1) : step s = hostTurn { s with busyLeft := k } := by
  simp only [step, advance, hreset, hphase, hleft, Bool.false_eq_true, if_false]

/-- Without host accesses, `k` steps of latency and the completing step lead from BUSY to IDLE. -/
theorem run_busy_ends_idle {k : Nat} (hhost : s.host = []) (hleft : s.busyLeft = k) :
    ∃ t, Host.Core.run core (k + 1) s = .next t ∧ t.phase = .idle := by
  induction k generalizing s with
  | zero =>
    obtain ⟨t, ht, hidle⟩ := runCommand_ends_idle w s
    exact ⟨t, run_succ_eq_next_iff.mpr ⟨t, (step_busy_zero hreset hphase hleft).trans ht, rfl⟩, hidle⟩
  | succ k ih =>
    have hturn : hostTurn { s with busyLeft := k } = .next { s with busyLeft := k } := by simp only [hostTurn, hhost]
    obtain ⟨t, hrun, hidle⟩ := ih (s := { s with busyLeft := k }) hreset hphase hhost rfl
    exact ⟨t, run_succ_eq_next_iff.mpr ⟨_, (step_busy_succ hreset hphase hleft).trans hturn, hrun⟩, hidle⟩

end

/-- Settles O39: the latency is used up one step at a time, and no command stays in BUSY when its step comes. -/
theorem everyCommandEndsInIdle : Obligations.EveryCommandEndsInIdle := by
  intro s hhost hreset hbusy
  cases hphase : s.phase with
  | idle => exact (hbusy hphase).elim
  | busy w a b c => exact run_busy_ends_idle hreset hphase hhost rfl

end Sys2Proof.Machine
end

section
/-! PROOF. The host's accesses in phase BUSY, and the reset event (R1200, R1220, R1221). -/

namespace Sys2Proof.Machine

/-! ### One access, in either phase -/

/-- Where no command completes, a step serves the host's next access. It uses up a step of latency in phase BUSY, and
nothing outside it (R100, R1230; log 3). -/
theorem step_eq_serve {s : State} {op : HostOp} {rest : List HostOp}
    (h : s.inReset = true ∨ s.phase = .idle ∨ s.busyLeft ≠ 0) (hhost : s.host = op :: rest) :
    ∃ k, step s = serve op { s with busyLeft := k, host := rest }
      ∧ (s.inReset = true ∨ s.phase = .idle → k = s.busyLeft) := by
  by_cases hout : s.inReset = true ∨ s.phase = .idle
  · exact ⟨s.busyLeft, (step_eq_hostTurn hout).trans (hostTurn_cons hhost), fun _ => rfl⟩
  · obtain ⟨k, hstep⟩ := step_eq_hostTurn_withBusyLeft h
    exact ⟨k, hstep.trans (hostTurn_cons (s := { s with busyLeft := k }) hhost), fun h => (hout h).elim⟩

section
variable {s : State} {off : Nat} (hp : s.cfg.legal = true) (hoff : off % 4 = 0) (hlt : off < 256)
include hp hoff hlt

/-- A write in the window reaches the register write (R213). -/
theorem serve_write (v : Word) : serve (.write (s.cfg.hufBase + off) 4 v) s = .next (portWrite s off v) := by
  simp only [serve, checkAccess_window hp hoff hlt]

/-- A read in the window answers the register read, and changes the record of the port only (R211, R212). -/
theorem serve_read :
    ∃ d, serve (.read (s.cfg.hufBase + off) 4) s = .next { s with rdata := (portRead s off).1, draws := d } := by
  obtain ⟨d, hd⟩ := portRead_eq s off
  exact ⟨d, by simp only [serve, checkAccess_window hp hoff hlt, hd]⟩

end

/-! ### Writes in phase BUSY -/

theorem portWrite_busy {s : State} (hreset : s.inReset = false) (hbusy : s.phase ≠ .idle) (off : Nat) (v : Word) :
    portWrite s off v = writeBusy s off := by
  obtain ⟨hr, -⟩ | ⟨-, -, hw⟩ | ⟨-, hidle, -⟩ := portWrite_cases s off v
  · simp [hreset] at hr
  · exact hw
  · exact (hbusy hidle).elim

theorem writeBusy_host (s : State) (off : Nat) : (writeBusy s off).host = s.host := by
  unfold writeBusy
  split <;> rfl

theorem writeBusy_of_writable {s : State} {off : Nat} (h : hostWritable off = true) :
    writeBusy s off = { s with overrun := true } := if_pos h

theorem writeBusy_of_not_writable {s : State} {off : Nat} (h : ¬ hostWritable off = true) : writeBusy s off = s :=
  if_neg h

/-- Settles O45: the step is `writeBusy`, which sets OVERRUN for a writable register and changes nothing else. -/
theorem busyWritesAreDropped : Obligations.BusyWritesAreDropped := by
  intro s w a b c v off rest hp hreset hphase hleft hoff hlt hhost
  obtain ⟨k, hstep, -⟩ := step_eq_serve (.inr (.inr hleft)) hhost
  have hbusy : s.phase ≠ .idle := by simp [hphase]
  have hserve := serve_write (s := { s with busyLeft := k, host := rest }) hp hoff hlt v
  rw [portWrite_busy (s := { s with busyLeft := k, host := rest }) hreset hbusy] at hserve
  refine ⟨_, hstep.trans hserve, writeBusy_host _ off, fun hwritable => ?_, fun hother => ?_⟩
  · rw [writeBusy_of_writable (hostWritable_iff.mpr hwritable)]
    exact ⟨rfl, by simp [agreeOutside_iff]⟩
  · rw [writeBusy_of_not_writable (hother ∘ hostWritable_iff.mp)]
    simp [agreeOutside_iff]

/-! ### Reads in phase BUSY -/

/-- A register that R1221 lists reads in BUSY as it does in IDLE. -/
theorem portRead_of_exact (s : State) {off : Nat} (hstatus : off ≠ 0x0C) (h : unspecifiedInBusy off = false) :
    (portRead s off).1 = readReg s off := by
  simp [portRead, hstatus, h]

theorem portRead_status_busy {s : State} (h : s.busyFlag = true) :
    ∃ free, (portRead s 0x0C).1 = s.statusInBusy free := ⟨Config.freeRead s.draws, by simp [portRead, h]⟩

/-- In BUSY the STATUS bits of R1221's mask are those of the STATUS word (R123). -/
theorem statusInBusy_getLsbD (s : State) (free : Word) {k : Nat} (hk : statusExactMask.getLsbD k = true) :
    (s.statusInBusy free).getLsbD k = s.statusWord.getLsbD k := by
  simp [State.statusInBusy, hk]

theorem statusWord_getLsbD_zero (s : State) : s.statusWord.getLsbD 0 = s.busyFlag := by
  rw [statusWord_eq, toWord, BitVec.getLsbD_ofNat, Nat.testBit_bit_zero]
  rfl

theorem statusWord_getLsbD_three (s : State) : s.statusWord.getLsbD 3 = s.overrun := by
  rw [statusWord_eq, toWord, BitVec.getLsbD_ofNat]
  simp only [Nat.testBit_bit_succ, Nat.testBit_bit_zero]
  rfl

/-- STATUS read in phase BUSY: bit 0 is 1 and bit 3 is OVERRUN (R1221). -/
theorem portRead_status_bits {s : State} (h : s.busyFlag = true) :
    (portRead s 0x0C).1.getLsbD 0 = true ∧ (portRead s 0x0C).1.getLsbD 3 = s.overrun := by
  obtain ⟨free, hread⟩ := portRead_status_busy h
  rw [hread, statusInBusy_getLsbD s free (by decide), statusInBusy_getLsbD s free (by decide), statusWord_getLsbD_zero,
    statusWord_getLsbD_three]
  exact ⟨h, rfl⟩

/-- Settles O47: the listed registers read as in phase IDLE, STATUS does so in its two exact bits, and a read changes no
register. -/
theorem busyReadsOfTheListedRegistersAreExact : Obligations.BusyReadsOfTheListedRegistersAreExact := by
  intro s w a b c off rest hp hreset hphase hleft hoff hlt hhost
  obtain ⟨k, hstep, -⟩ := step_eq_serve (.inr (.inr hleft)) hhost
  obtain ⟨d, hserve⟩ := serve_read (s := { s with busyLeft := k, host := rest }) hp hoff hlt
  have hexact := portRead_of_exact { s with busyLeft := k, host := rest } (off := off)
  obtain ⟨hbits, hbytes, htext, hnodes, hletter⟩ := readReg_capacities (s := { s with busyLeft := k, host := rest }) hp
  refine ⟨_, hstep.trans hserve, rfl, by simp [agreeOutside_iff], ?id, ?cfg, ?cmd, ?status, ?bitCap, ?byteCap, ?textCap,
    ?nodeCap, ?maxLetter⟩
  all_goals rintro rfl
  case status => exact portRead_status_bits (by simp only [State.busyFlag, hphase])
  all_goals
    dsimp only
    rw [hexact (by decide) (by decide)]
  case id => rfl
  case cfg => exact cfgWord_toNat (legal_ranges hp)
  case cmd => rfl
  case bitCap => exact hbits
  case byteCap => exact hbytes
  case textCap => exact htext
  case nodeCap => exact hnodes
  case maxLetter => exact hletter

/-! ### The reset event -/

/-- Settles O50: the step serves `resetEvent`, or a register write, which reset drops, or the release (R170, R1200). -/
theorem resetEventRestoresTheResetState : Obligations.ResetEventRestoresTheResetState := by
  intro s rest
  refine ⟨fun hturn hhost => ?assert, fun off v hp hreset hoff hlt hhost => ?write, fun hturn hhost => ?release⟩
  case assert =>
    obtain ⟨k, hstep, -⟩ := step_eq_serve hturn hhost
    exact ⟨_, hstep, rfl, rfl, by simp [agreeOutside_iff, State.resetWith]⟩
  case write =>
    obtain ⟨k, hstep, hk⟩ := step_eq_serve (.inl hreset) hhost
    obtain rfl := hk (.inl hreset)
    have hdropped : portWrite { s with host := rest } off v = { s with host := rest } := if_pos hreset
    refine ⟨_, hstep.trans (serve_write (s := { s with host := rest }) hp hoff hlt v), ?_⟩
    rw [hdropped]
    simp [agreeOutside_iff]
  case release =>
    obtain ⟨k, hstep, hk⟩ := step_eq_serve hturn hhost
    refine ⟨_, hstep, rfl, rfl, by simp [agreeOutside_iff], fun hout => ?_⟩
    obtain rfl := hk hout
    simp [agreeOutside_iff]

end Sys2Proof.Machine
end
